-- ==== Sys2Proof/Word.lean ====
section
/-! DEFINITION. The word and byte types of spec/00_scope.md rule R4 (every register and memory word is 32 bits wide
unless its rule says otherwise; bit 0 is the least significant bit). -/

namespace Sys2Proof

/-- A register, FIFO or memory word (00_scope.md R4). -/
abbrev Word := BitVec 32

/-- A byte of the DMA-visible bus space, or one colour component (20_memory.md R81, 41_bitstream_encoder.md R221). -/
abbrev Byte := BitVec 8

end Sys2Proof
end

