-- ==== Sys2Proof/Config.lean ====
section
/-! DEFINITION. What is fixed for one machine: the OPEN parameters of spec/00_scope.md section 4, the shapes of the
environment's draws and of the scheduler's choices, and the two free values (no body) that stand for draws and choices
nobody has supplied. -/

namespace Sys2Proof

/-- A channel, and the serializer it drives: channel j drives serializer j (00_scope.md R2, 40_controller_commands.md
R158). `NCH_MAX` is 2. -/
inductive Chan where
  | c0
  | c1
  deriving DecidableEq, Repr, Inhabited

/-- The channel index, 0 or 1. -/
def Chan.toNat : Chan → Nat
  | .c0 => 0
  | .c1 => 1

/-- The OPEN parameters of 00_scope.md section 4 that a rule reads. `WAIT_DEADLINE` is not here: no rule reads it
(70_reset_and_hazards.md R390, R393). `hwHealthy` is a field of the machine's state (10_state.md R46). GPIO numbers are
natural numbers, so that a negative pin is in no set (40_controller_commands.md R158). -/
structure Config where
  /-- `F_SRC`, the symbol clock's source frequency in Hz. -/
  fSrc : Nat
  /-- `FIFO_DEPTH`, words per serializer FIFO. -/
  fifoDepth : Nat
  /-- `PIN_ROUTE(0)`. -/
  pinRoute0 : List Nat
  /-- `PIN_ROUTE(1)`. -/
  pinRoute1 : List Nat
  /-- `PCM_PINS`. -/
  pcmPins : List Nat
  /-- `MAX_REGION_BYTES`. -/
  maxRegionBytes : Nat
  /-- `FIF0_BUS`. -/
  fif0Bus : Word
  /-- `FIF1_BUS`. -/
  fif1Bus : Word
  deriving DecidableEq, Repr

/-- The constraints on the parameters (93_implementation_defined.md section 1.3): FIFO_DEPTH at least 1; 18 routed to
serializer 0; no PCM pin routed; MAX_REGION_BYTES at least the region of the source's scenario (292 bytes); the FIFO
addresses word aligned and distinct. -/
def Config.wf (p : Config) : Bool :=
  decide (1 ≤ p.fifoDepth) && p.pinRoute0.contains 18 &&
    p.pinRoute0.all (fun g => !p.pcmPins.contains g) && p.pinRoute1.all (fun g => !p.pcmPins.contains g) &&
    decide (292 ≤ p.maxRegionBytes) && decide (p.fif0Bus.toNat % 4 = 0) && decide (p.fif1Bus.toNat % 4 = 0) &&
    decide (p.fif0Bus ≠ p.fif1Bus)

/-- The parameter values of 95_test_vectors.md section 0. `State.reset` carries them; no statement rests on them
(DESIGN CHOICE, log entry 2). -/
def Config.vectors : Config where
  fSrc := 19200000
  fifoDepth := 16
  pinRoute0 := [12, 18, 40, 52]
  pinRoute1 := [13, 19, 41, 45, 53]
  pcmPins := [21, 31]
  maxRegionBytes := 4096
  fif0Bus := 0xF0000000#32
  fif1Bus := 0xF0000004#32

/-- Whose step comes next (00_scope.md R8, 42_dma_sequencer.md R275, 43_pwm_serializer.md R303). STALL is a choice of its
own, because it may be enabled together with another sequencer step (R275). -/
inductive Turn where
  | host
  | dma
  | stall
  | ser (c : Chan)
  deriving DecidableEq, Repr, Inhabited

/-- One INIT's draws from the environment (00_scope.md R7, 60_exceptions.md R346). -/
structure InitDraw where
  otherOwner : Bool
  allocFails : Bool
  rbase : Word
  originCode : BitVec 16
  deriving DecidableEq, Repr, Inhabited

/-- Free value (log entry 3): the n-th scheduler choice once the supplied plan is used up. -/
opaque Config.freeTurn : Nat → Turn

/-- Free value (log entry 4): the n-th INIT draw once the supplied draws are used up. -/
opaque Config.freeDraw : Nat → InitDraw

end Sys2Proof
end

