-- ==== Sys2Proof/Syntax.lean ====
section
/-! DEFINITION. The instructions of spec/opcode_table.json: the eight host commands and the DMA control block, each with
its operands (spec/30_encoding.md R110, R115 to R118, R120, R121). -/

namespace Sys2Proof

/-- A colour component letter (30_encoding.md R118, 41_bitstream_encoder.md R221). -/
inductive Letter where
  | R
  | G
  | B
  | W
  deriving DecidableEq, Repr

/-- The twelve strip types (30_encoding.md R118). -/
inductive StripType where
  | RGB
  | RBG
  | GRB
  | GBR
  | BRG
  | BGR
  | RGBW
  | RBGW
  | GRBW
  | GBRW
  | BRGW
  | BGRW
  deriving DecidableEq, Repr

/-- The two instruction classes (30_encoding.md R110). -/
inductive InstrClass where
  /-- A CMD word with the argument list taken from ARGQ. -/
  | command
  /-- A 32-byte control block of the region. -/
  | block
  deriving DecidableEq, Repr

/-- A ChannelConfig record as six argument words, in the order of 30_encoding.md R117. -/
structure ConfigRecord where
  pin : Word
  count : Word
  bright : Word
  invw : Word
  stype : Word
  freq : Word
  deriving DecidableEq, Repr

/-- The fields of a TI word; its reserved bits are 0 (30_encoding.md R121). -/
structure TransferInfo where
  inten : Bool
  destInc : Bool
  destDreq : Bool
  srcInc : Bool
  permap : BitVec 5
  deriving DecidableEq, Repr

/-- A control block: the six words the sequencer reads (30_encoding.md R120; the words at +0x18 and +0x1C are ignored). -/
structure ControlBlock where
  ti : TransferInfo
  sourceAd : Word
  destAd : Word
  txfrLen : Word
  stride : Word
  nextConbk : Word
  deriving DecidableEq, Repr

/-- The instructions, one constructor per row of spec/opcode_table.json (30_encoding.md R112, R115, R120). -/
inductive Instr where
  /-- INIT (40_controller_commands.md R153). -/
  | init (records : List ConfigRecord)
  /-- INIT1 (R170). -/
  | init1 (pin count bright : Word)
  /-- FINI (R171). -/
  | fini
  /-- SETPIXEL (R173). -/
  | setpixel (ch : Chan) (index color : Word)
  /-- SETBITMAP (R175). -/
  | setbitmap (ch : Chan) (colors : List Word)
  /-- CLEAR (R177). -/
  | clear (ch : Chan)
  /-- RENDER (R179). -/
  | render
  /-- WAIT (R182). -/
  | wait
  /-- CB, the control block (42_dma_sequencer.md R277 to R281). -/
  | cb (block : ControlBlock)
  deriving DecidableEq, Repr

/-- The class an instruction belongs to (30_encoding.md R110). -/
def Instr.cls : Instr → InstrClass
  | .init _ => .command
  | .init1 _ _ _ => .command
  | .fini => .command
  | .setpixel _ _ _ => .command
  | .setbitmap _ _ => .command
  | .clear _ => .command
  | .render => .command
  | .wait => .command
  | .cb _ => .block

end Sys2Proof
end

