-- ==== Sys2Proof/WellFormed.lean ====
section
/-! DEFINITION. When an instruction is well formed. For a control block it is the validity of spec/30_encoding.md R122;
the types of `Instr` already rule out every ill-formed host command (R114, R115 are checked by the decoder, operand
values by the commands themselves, R119). -/

namespace Sys2Proof

/-- The TI part of 30_encoding.md R122: PERMAP at most 2, and no DEST_DREQ without a data-request line. Reserved TI bits
cannot be set in a `TransferInfo`. -/
def TransferInfo.wellFormed (ti : TransferInfo) : Bool :=
  decide (ti.permap.toNat ≤ 2) && !(ti.destDreq && decide (ti.permap.toNat = 0))

/-- 30_encoding.md R122, the clauses over a block's six words. -/
def ControlBlock.wellFormed (b : ControlBlock) : Bool :=
  b.ti.wellFormed && decide (b.txfrLen ≠ 0) && decide (b.txfrLen.toNat % 4 = 0) && decide (b.stride = 0) &&
    decide (b.sourceAd.toNat % 4 = 0) && decide (b.destAd.toNat % 4 = 0)

/-- A well-formed instruction. -/
def Instr.wellFormed : Instr → Bool
  | .init _ => true
  | .init1 _ _ _ => true
  | .fini => true
  | .setpixel _ _ _ => true
  | .setbitmap _ _ => true
  | .clear _ => true
  | .render => true
  | .wait => true
  | .cb b => b.wellFormed

end Sys2Proof
end

