-- ==== Sys2Proof/Decode.lean ====
section
/-! DEFINITION. The decoder and the encoder of spec/30_encoding.md: CMD words with their argument lists (R111 to R117)
and control blocks (R120, R121); the assembler's pseudo-instructions and named control-block forms (R125, R126); and the
host's view of the decoder, `decodeTableWord`. -/

namespace Sys2Proof

/-- Why a word list decodes to no instruction. -/
inductive DecodeError where
  /-- Reserved OPC, RSVD not 0, or CH = 1 on a command without a channel (R114). -/
  | reservedEncoding
  /-- The argument list does not have the opcode's shape (R115). -/
  | argumentShape
  /-- A reserved TI bit is set (R121, R122). -/
  | reservedTi
  /-- Fewer than the six words a LOAD reads (42_dma_sequencer.md R277). -/
  | truncatedBlock
  deriving DecidableEq, Repr

/-- The opcodes of R112. -/
inductive Opcode where
  | init
  | init1
  | fini
  | setpixel
  | setbitmap
  | clear
  | render
  | wait
  deriving DecidableEq, Repr

/-- The OPC value of each command (R112). -/
def Opcode.code : Opcode → Nat
  | .init => 0x1
  | .init1 => 0x2
  | .fini => 0x3
  | .setpixel => 0x4
  | .setbitmap => 0x5
  | .clear => 0x6
  | .render => 0x7
  | .wait => 0x8

/-- The command an OPC field selects; 0x0 and 0x9 to 0xF are reserved (R112). -/
def opcodeOf (opc : BitVec 4) : Option Opcode :=
  if opc = 0x1 then some .init
  else if opc = 0x2 then some .init1
  else if opc = 0x3 then some .fini
  else if opc = 0x4 then some .setpixel
  else if opc = 0x5 then some .setbitmap
  else if opc = 0x6 then some .clear
  else if opc = 0x7 then some .render
  else if opc = 0x8 then some .wait
  else none

/-- CH is a channel for these commands only; every other command needs CH = 0 (R111, R113). -/
def Opcode.takesChannel : Opcode → Bool
  | .setpixel => true
  | .setbitmap => true
  | .clear => true
  | _ => false

/-- The channel a CH bit selects (R113). -/
def chanOfBit (b : Bool) : Chan := if b then .c1 else .c0

/-- INIT's argument list cut into records of six words; `none` when its length is not a multiple of six (R115, R117). -/
def recordsOf : List Word → Option (List ConfigRecord)
  | [] => some []
  | pin :: count :: bright :: invw :: stype :: freq :: rest =>
    (recordsOf rest).map (fun rs => ⟨pin, count, bright, invw, stype, freq⟩ :: rs)
  | _ => none

/-- The instruction of a command that takes no argument words; `none` when there are any (R115). -/
def noOperands (i : Instr) : List Word → Option Instr
  | [] => some i
  | _ => none

/-- INIT1's three argument words (R115). -/
def threeOperands : List Word → Option Instr
  | [pin, count, bright] => some (.init1 pin count bright)
  | _ => none

/-- SETPIXEL's two argument words (R115). -/
def twoOperands (ch : Chan) : List Word → Option Instr
  | [index, color] => some (.setpixel ch index color)
  | _ => none

/-- The operands a command takes from its argument list; `none` is a wrong shape (R115). -/
def operandsOf (op : Opcode) (ch : Chan) (args : List Word) : Option Instr :=
  match op with
  | .init => (recordsOf args).map .init
  | .init1 => threeOperands args
  | .fini => noOperands .fini args
  | .setpixel => twoOperands ch args
  | .setbitmap => some (.setbitmap ch args)
  | .clear => noOperands (.clear ch) args
  | .render => noOperands .render args
  | .wait => noOperands .wait args

/-- A CMD word with the argument list taken from ARGQ: RSVD, then OPC, then CH, then the shape (R111, R114, R115 and
section 8 of 30_encoding.md). -/
def decodeCommand (w : Word) (args : List Word) : Except DecodeError Instr :=
  if w.extractLsb' 5 27 ≠ 0 then .error .reservedEncoding
  else
    match opcodeOf (w.extractLsb' 0 4) with
    | none => .error .reservedEncoding
    | some op =>
      if w.getLsbD 4 && !op.takesChannel then .error .reservedEncoding
      else
        match operandsOf op (chanOfBit (w.getLsbD 4)) args with
        | none => .error .argumentShape
        | some i => .ok i

/-- `TI_RSVD`, the reserved bits of a TI word (R121). -/
def tiReserved : Word := 0xFFE0FEAE#32

/-- The fields of a TI word (R121). -/
def TransferInfo.ofWord (w : Word) : TransferInfo where
  inten := w.getLsbD 0
  destInc := w.getLsbD 4
  destDreq := w.getLsbD 6
  srcInc := w.getLsbD 8
  permap := w.extractLsb' 16 5

/-- A control block's words, of which the first six are read (R120, 42_dma_sequencer.md R277). A TI word with a reserved
bit set is no instruction. -/
def decodeBlock : List Word → Except DecodeError Instr
  | ti :: src :: dst :: len :: stride :: nextcb :: _ =>
    if ti &&& tiReserved ≠ 0 then .error .reservedTi
    else .ok (.cb ⟨TransferInfo.ofWord ti, src, dst, len, stride, nextcb⟩)
  | _ => .error .truncatedBlock

/-- The decoder, total on any words of either class: a command is its CMD word and then its argument words, a control
block its words in address order. -/
def decode : InstrClass → List Word → Except DecodeError Instr
  | .command, w :: args => decodeCommand w args
  | .command, [] => .error .reservedEncoding
  | .block, ws => decodeBlock ws

/-- A single bit of a word. -/
def bitAt (b : Bool) (k : Nat) : Word := if b then 1#32 <<< k else 0#32

/-- The TI word of a `TransferInfo`, reserved bits 0 (R121). -/
def TransferInfo.toWord (ti : TransferInfo) : Word :=
  bitAt ti.inten 0 ||| bitAt ti.destInc 4 ||| bitAt ti.destDreq 6 ||| bitAt ti.srcInc 8 |||
    (ti.permap.setWidth 32 <<< 16)

/-- The CMD word of an opcode and a channel: `OPC | CH << 4` (R111, R124). -/
def commandWord (op : Opcode) (ch : Chan) : Word :=
  BitVec.ofNat 32 op.code ||| bitAt (decide (ch = .c1)) 4

/-- A record's six argument words (R117). -/
def ConfigRecord.words (r : ConfigRecord) : List Word :=
  [r.pin, r.count, r.bright, r.invw, r.stype, r.freq]

/-- A control block's eight words (R120, R126). -/
def ControlBlock.words (b : ControlBlock) : List Word :=
  [b.ti.toWord, b.sourceAd, b.destAd, b.txfrLen, b.stride, b.nextConbk, 0#32, 0#32]

/-- The words of an instruction: a command's CMD word and then its ARGQ words in order of writing (R124), a control
block's eight words in address order (R126). -/
def encode : Instr → List Word
  | .init rs => commandWord .init .c0 :: rs.flatMap ConfigRecord.words
  | .init1 pin count bright => [commandWord .init1 .c0, pin, count, bright]
  | .fini => [commandWord .fini .c0]
  | .setpixel ch index color => [commandWord .setpixel ch, index, color]
  | .setbitmap ch colors => commandWord .setbitmap ch :: colors
  | .clear ch => [commandWord .clear ch]
  | .render => [commandWord .render .c0]
  | .wait => [commandWord .wait .c0]
  | .cb b => b.words

/-- Pseudo-instruction `SETLED index, color` (R125). -/
def Instr.setled (index color : Word) : Instr := .setpixel .c0 index color

/-- Pseudo-instruction `SETBITMAP [c0, ..., cL-1]` (R125). -/
def Instr.setbitmapFirst (colors : List Word) : Instr := .setbitmap .c0 colors

/-- Pseudo-instruction `CLEAR` (R125). -/
def Instr.clearFirst : Instr := .clear .c0

/-- The named form `CB.DATA s, src, dst, len, next`: DEST_DREQ, SRC_INC, PERMAP = s + 1 (R126). -/
def ControlBlock.data (s : Chan) (src dst len nextcb : Word) : ControlBlock where
  ti := ⟨false, false, true, true, BitVec.ofNat 5 (s.toNat + 1)⟩
  sourceAd := src
  destAd := dst
  txfrLen := len
  stride := 0#32
  nextConbk := nextcb

/-- The named form `CB.FLAG src, dst, len, next`: INTEN, DEST_INC, SRC_INC (R126). -/
def ControlBlock.flag (src dst len nextcb : Word) : ControlBlock where
  ti := ⟨true, true, false, true, 0#5⟩
  sourceAd := src
  destAd := dst
  txfrLen := len
  stride := 0#32
  nextConbk := nextcb

/-- The fewest argument words a CMD word's command takes (R115); 0 for a word that is no command. -/
def leastArguments (w : Word) : Nat :=
  match opcodeOf (w.extractLsb' 0 4) with
  | some .init1 => 3
  | some .setpixel => 2
  | _ => 0

/-- The number w cut into n words, the least significant first: the host's numbering of an instruction's bits. -/
def tableWords : Nat → Nat → List Word
  | 0, _ => []
  | n + 1, w => BitVec.ofNat 32 w :: tableWords n (w / 2 ^ 32)

/-- The number w read as a CMD word and its argument words: as many as nbits holds, and at least the fewest the command
takes. -/
def tableCommand (nbits w : Nat) : List Word :=
  tableWords (1 + max (leastArguments (BitVec.ofNat 32 w)) (nbits / 32 - 1)) w

/-- The number w read as a control block's eight words. -/
def tableBlock (w : Nat) : List Word := tableWords 8 w

/-- The instruction the decoder reads from an opcode-table word: the CMD reading first, then the control-block reading
(only 0x00000001 is a word of both rows; DESIGN CHOICE, log entry 6). -/
def decodeTableWord (nbits w : Nat) : Option Instr :=
  match decode .command (tableCommand nbits w) with
  | .ok i => some i
  | .error _ =>
    match decode .block (tableBlock w) with
    | .ok i => some i
    | .error _ => none

end Sys2Proof
end

