-- ==== Sys2Proof/Machine/State.lean ====
section
/-! DEFINITION. The machine's state as plain data: every element of the table in spec/10_state.md section 8.1, the
environment's inputs, the two ways a command can stop (60_exceptions.md R342), and the power-on state (R51 to R54, R380).
-/

namespace Sys2Proof.Machine

/-- The region's bytes: address and byte, addresses strictly rising, no entry equal to what an unlisted address reads as
(10_state.md R30, 20_memory.md R89). -/
abbrev Memory := List Host.Cell

/-- The names of the result codes (60_exceptions.md R345). -/
inductive ResultCode where
  | ok
  | configError
  | resourceError
  | hardwareBusyError
  | indexError
  | lengthMismatchError
  | transmissionError
  | timeoutError
  deriving DecidableEq, Repr

/-- `HIF.RESULT`: CODE and ORIGIN; bits 15:8 read 0 (10_state.md R24, 60_exceptions.md R346). -/
structure Result where
  code : ResultCode
  origin : BitVec 16
  deriving DecidableEq, Repr

/-- `CFG[i]`, a latched channel configuration (10_state.md R28). -/
structure ChannelConfig where
  pin : Int
  count : Nat
  bright : Byte
  invert : Bool
  stype : StripType
  freq : Nat
  deriving DecidableEq, Repr

/-- One configured channel: `CFG[i]`, `PIX[i]` and `WORDS[i]` (10_state.md R28 to R30). -/
structure Channel where
  cfg : ChannelConfig
  pix : List Word
  words : Nat
  deriving DecidableEq, Repr

/-- What the device holds exactly while LIFE = Active: its channels (`NCH` is 2 when `ch1` is present, else 1), `SLOT`,
`RSIZE` and `RBASE` (10_state.md R28, R30). The region's bytes are `State.mem`. -/
structure Device where
  ch0 : Channel
  ch1 : Option Channel
  slot : Nat
  rsize : Nat
  rbase : Word
  deriving DecidableEq, Repr

/-- `LIFE`, with the device state that exists only while it is Active (10_state.md R26, R28). -/
inductive Life where
  | uninitialized
  | active (d : Device)
  | finalized
  deriving DecidableEq, Repr

/-- An event of an output stream: one slot at a physical level, or an idle interval at least as long as the reset code
(10_state.md R45, 43_pwm_serializer.md R304, R306). -/
inductive WireEvent where
  | lvl (b : Bool)
  | gap
  deriving DecidableEq, Repr

/-- Where in an output stream the events of one INIT begin, and the configuration they are emitted under. -/
structure InitMark where
  cfg : ChannelConfig
  start : Nat
  deriving DecidableEq, Repr

/-- One serializer: its bits of PWM.CTL (PWEN, POLA) and PWM.STA (WERR, GAPO), its FIFO (oldest word first), LASTGAP and
its output stream (10_state.md R31, R32, R43 to R45). `marks` is the model's own record of the INITs that configured its
channel, oldest first: 43_pwm_serializer.md R308 decodes the events of different INITs separately (DESIGN CHOICE, log entry
17). -/
structure Serializer where
  pwen : Bool
  pola : Bool
  werr : Bool
  gapo : Bool
  fifo : List Word
  lastGap : Bool
  wire : List WireEvent
  marks : List InitMark
  deriving DecidableEq, Repr

/-- The clock window: `CLKCTL.ENAB` and `CLKDIV.DIVI` (10_state.md R36, R37). -/
structure Clk where
  enab : Bool
  divi : BitVec 12
  deriving DecidableEq, Repr

/-- `DPHASE`, where the sequencer is in the current control block (10_state.md R42). -/
inductive DPhase where
  | idle
  | load
  | xfer
  deriving DecidableEq, Repr

/-- The DMA window and the sequencer's hidden state (10_state.md R38 to R42). The stored bits of CS are named fields; DREQ
and the reserved bits are computed when CS is read. -/
structure Dma where
  /-- `CS.ACTIVE`. -/
  active : Bool
  /-- `CS.END`. -/
  ended : Bool
  /-- `CS.INT`. -/
  int : Bool
  /-- `CS.ERROR`. -/
  error : Bool
  conblkAd : Word
  ti : Word
  sourceAd : Word
  destAd : Word
  txfrLen : Word
  stride : Word
  nextConbk : Word
  /-- `DEBUG.ERRCAUSE`. -/
  errcause : BitVec 3
  dphase : DPhase
  stalled : Bool
  deriving DecidableEq, Repr

/-- One access of the host to its window HIF, by byte offset (10_state.md R21 to R25). -/
inductive HostAccess where
  | write (offset value : Word)
  | read (offset : Word)
  deriving DecidableEq, Repr

/-- A pending host access. `secondThread` marks an access made without waiting for a WAIT that holds: against the host's
obligation, and refused when it is a CMD write (40_controller_commands.md R185). -/
structure HostEvent where
  access : HostAccess
  secondThread : Bool
  deriving DecidableEq, Repr

/-- The model's own record of what comes from outside the block: the host's accesses to come and the value its last read
returned, the scheduler's choices to come, and the INIT draws to come, each list oldest first, with a count of the choices
and draws taken (log entries 2 to 5). -/
structure Env where
  hostq : List HostEvent
  rdata : Word
  plan : List Turn
  turnsTaken : Nat
  draws : List InitDraw
  drawsTaken : Nat
  deriving DecidableEq, Repr

/-- The state of the block. -/
@[ext]
structure State where
  /-- The OPEN parameters (00_scope.md section 4); no step changes them. -/
  config : Config
  /-- `hwHealthy`, chosen by the launch (10_state.md R46); no step changes it. -/
  hwHealthy : Bool
  /-- `HIF.ARGQ` (R23). -/
  argq : List Word
  /-- `HIF.RESULT` (R24). -/
  result : Result
  /-- A WAIT holds (40_controller_commands.md R182). -/
  waiting : Bool
  /-- `LIFE` and the device state (R26, R28 to R30). -/
  life : Life
  /-- `OWNED` (R27). -/
  owned : Bool
  /-- `MEM`, the region's bytes (R30). -/
  mem : Memory
  /-- Serializer 0. -/
  ser0 : Serializer
  /-- Serializer 1. -/
  ser1 : Serializer
  /-- `PWM.DMAC.ENAB` (R33). -/
  dmac : Bool
  /-- The clock window (R36, R37). -/
  clk : Clk
  /-- The DMA window and the sequencer (R38 to R42). -/
  dma : Dma
  /-- Inputs from outside the block (the model's own). -/
  env : Env
  deriving DecidableEq, Repr

/-- Why a command faults. Raised by SETPIXEL, SETBITMAP, CLEAR, RENDER and WAIT (60_exceptions.md R350). Safe: the run
ends and nothing can be proved of a later state. -/
inductive Fault where
  /-- LIFE is not Active (40_controller_commands.md R151). Safe. -/
  | notInitialized
  deriving DecidableEq, Repr

/-- Why a command is refused; the run ends at the CMD write and nothing is written (60_exceptions.md R351). Safe: the model
gives no meaning. -/
inductive Refusal where
  /-- An arm of `exec` without a meaning. Safe. -/
  | notModelled (mnemonic : String)
  /-- A CMD write of a reserved word, raised by the host's turn (30_encoding.md R114). Safe. -/
  | reservedEncoding
  /-- A CMD write whose ARGQ does not fit the opcode, raised by the host's turn (30_encoding.md R115). Safe. -/
  | argumentShape
  /-- An INIT or INIT1 record's pin is in PCM_PINS (40_controller_commands.md R157). Safe. -/
  | pcmPin
  /-- A CMD write while a WAIT holds, raised by the host's turn (40_controller_commands.md R185). Safe. -/
  | concurrentCommand
  deriving DecidableEq, Repr

/-- Serializer s (the two are alike, 43_pwm_serializer.md R315). -/
def State.ser (s : State) : Chan → Serializer
  | .c0 => s.ser0
  | .c1 => s.ser1

/-- Replace ARGQ. -/
def State.setArgq (s : State) (x : List Word) : State := { s with argq := x }
/-- Replace RESULT. -/
def State.setResult (s : State) (x : Result) : State := { s with result := x }
/-- Replace the WAIT marker. -/
def State.setWaiting (s : State) (x : Bool) : State := { s with waiting := x }
/-- Replace LIFE and the device. -/
def State.setLife (s : State) (x : Life) : State := { s with life := x }
/-- Replace OWNED. -/
def State.setOwned (s : State) (x : Bool) : State := { s with owned := x }
/-- Replace the region's bytes. -/
def State.setMem (s : State) (x : Memory) : State := { s with mem := x }
/-- Replace serializer c. -/
def State.setSer (s : State) (c : Chan) (x : Serializer) : State :=
  match c with
  | .c0 => { s with ser0 := x }
  | .c1 => { s with ser1 := x }
/-- Replace PWM.DMAC.ENAB. -/
def State.setDmac (s : State) (x : Bool) : State := { s with dmac := x }
/-- Replace the clock window. -/
def State.setClk (s : State) (x : Clk) : State := { s with clk := x }
/-- Replace the DMA window and the sequencer. -/
def State.setDma (s : State) (x : Dma) : State := { s with dma := x }
/-- Replace the inputs. -/
def State.setEnv (s : State) (x : Env) : State := { s with env := x }

/-- A serializer at power-on (10_state.md R52); no INIT has marked its stream (log entry 17). -/
def Serializer.powerOn : Serializer where
  pwen := false
  pola := false
  werr := false
  gapo := false
  fifo := []
  lastGap := false
  wire := []
  marks := []

/-- The DMA window at power-on (10_state.md R54). -/
def Dma.powerOn : Dma where
  active := false
  ended := false
  int := false
  error := false
  conblkAd := 0#32
  ti := 0#32
  sourceAd := 0#32
  destAd := 0#32
  txfrLen := 0#32
  stride := 0#32
  nextConbk := 0#32
  errcause := 0#3
  dphase := .idle
  stalled := false

/-- No input supplied yet (the model's own, log entry 5). -/
def Env.empty : Env where
  hostq := []
  rdata := 0#32
  plan := []
  turnsTaken := 0
  draws := []
  drawsTaken := 0

/-- The machine right after power-on, the block's one reset (10_state.md R51 to R54, 70_reset_and_hazards.md R380). The
parameters and `hwHealthy` are those of 95_test_vectors.md section 0 (DESIGN CHOICE, log entry 2). -/
def State.reset : State where
  config := Config.vectors
  hwHealthy := true
  argq := []
  result := ⟨.ok, 0#16⟩
  waiting := false
  life := .uninitialized
  owned := false
  mem := []
  ser0 := Serializer.powerOn
  ser1 := Serializer.powerOn
  dmac := false
  clk := ⟨false, 0#12⟩
  dma := Dma.powerOn
  env := Env.empty

end Sys2Proof.Machine
end

