-- ==== Sys2Proof/Machine/Ops.lean ====
section
/-! DEFINITION. The shared operations: the region's bytes and words, RESULT, the register writes that the
microsequences are made of, the sequencer's address predicates, and `stop`, the one way the sequencer takes an error. -/

namespace Sys2Proof.Machine

/-! ### Memory (20_memory.md R81, R84, R89) -/

/-- What an unlisted address reads as: INIT zero-fills the region (20_memory.md R89). -/
def Memory.unlisted : Byte := 0#8

/-- One byte. -/
def Memory.read : Memory → Nat → Byte
  | [], _ => Memory.unlisted
  | (k, b) :: m, a => if k = a then b else Memory.read m a

/-- Store one byte, keeping the canonical form. -/
def Memory.write : Memory → Nat → Byte → Memory
  | [], a, v => if v = Memory.unlisted then [] else [(a, v)]
  | (k, b) :: m, a, v =>
    if a < k then (if v = Memory.unlisted then (k, b) :: m else (a, v) :: (k, b) :: m)
    else if a = k then (if v = Memory.unlisted then m else (a, v) :: m)
    else (k, b) :: Memory.write m a v

/-- The canonical form: addresses strictly rising and no listed byte equal to the unlisted one. -/
abbrev Memory.wf (m : Memory) : Prop :=
  m.Pairwise (fun x y => x.1 < y.1) ∧ ∀ c ∈ m, c.2 ≠ Memory.unlisted

/-- `MemRead(a, 4)`, little-endian (R81). -/
def Memory.readWord (m : Memory) (a : Nat) : Word :=
  Memory.read m (a + 3) ++ Memory.read m (a + 2) ++ Memory.read m (a + 1) ++ Memory.read m a

/-- `MemWrite(a, 4, v)`, little-endian (R81). -/
def Memory.writeWord (m : Memory) (a : Nat) (v : Word) : Memory :=
  Memory.write
    (Memory.write
      (Memory.write
        (Memory.write m a (v.extractLsb' 0 8))
        (a + 1) (v.extractLsb' 8 8))
      (a + 2) (v.extractLsb' 16 8))
    (a + 3) (v.extractLsb' 24 8)

/-- Consecutive words from address a on. -/
def Memory.writeWords : Memory → Nat → List Word → Memory
  | m, _, [] => m
  | m, a, v :: vs => Memory.writeWords (Memory.writeWord m a v) (a + 4) vs

/-! ### RESULT (10_state.md R24) -/

/-- A command that completes writes RESULT (40_controller_commands.md R152). -/
def State.report (s : State) (code : ResultCode) (origin : BitVec 16) : State :=
  s.setResult ⟨code, origin⟩

/-! ### The PWM window (10_state.md R31 to R35) -/

/-- A write of v to PWM.CTL as serializer k/8 sees it, k = 0 or 8: PWEN, POLA, and CLRF, which empties the FIFO (R31).
MODE, USEF and the reserved bits ignore the write. -/
def Serializer.writeCtl (x : Serializer) (k : Nat) (v : Word) : Serializer :=
  { x with
    pwen := v.getLsbD k
    pola := v.getLsbD (k + 4)
    fifo := if v.getLsbD (k + 6) then [] else x.fifo }

/-- A write of v to PWM.STA as serializer k/8 sees it: WERR and GAPO are write-1-to-clear (R32). -/
def Serializer.writeSta (x : Serializer) (k : Nat) (v : Word) : Serializer :=
  { x with
    werr := x.werr && !v.getLsbD (k + 2)
    gapo := x.gapo && !v.getLsbD (k + 4) }

/-- A write to PWM.CTL (R31). -/
def State.writeCtl (s : State) (v : Word) : State :=
  (s.setSer .c0 (s.ser0.writeCtl 0 v)).setSer .c1 (s.ser1.writeCtl 8 v)

/-- A write to PWM.STA (R32). -/
def State.writeSta (s : State) (v : Word) : State :=
  (s.setSer .c0 (s.ser0.writeSta 0 v)).setSer .c1 (s.ser1.writeSta 8 v)

/-- A write to PWM.DMAC: bit 31 is ENAB (R33). -/
def State.writeDmac (s : State) (v : Word) : State := s.setDmac (v.getLsbD 31)

/-- `PWM.CTL.PWENc <- b` (R31). -/
def State.writePwen (s : State) (c : Chan) (b : Bool) : State := s.setSer c { s.ser c with pwen := b }

/-- `PWM.CTL.POLAc <- b` (R31). -/
def State.writePola (s : State) (c : Chan) (b : Bool) : State := s.setSer c { s.ser c with pola := b }

/-- The events serializer c emits from now on are those of an INIT with the configuration `k` (43_pwm_serializer.md R308; the
model's own record, log entry 17). -/
def State.markInit (s : State) (c : Chan) (k : ChannelConfig) : State :=
  s.setSer c { s.ser c with marks := (s.ser c).marks ++ [⟨k, (s.ser c).wire.length⟩] }

/-- A write of v to FIFc: push, or drop and set WERR when the FIFO is full (R35). -/
def State.pushFifo (s : State) (c : Chan) (v : Word) : State :=
  if (s.ser c).fifo.length < s.config.fifoDepth then
    s.setSer c { s.ser c with fifo := (s.ser c).fifo ++ [v] }
  else s.setSer c { s.ser c with werr := true }

/-- `CLRF0 | CLRF1` (R31). -/
def ctlClearFifos : Word := 0x00004040#32

/-- `WERR0 | GAPO0 | WERR1 | GAPO1` (R32). -/
def staClearAll : Word := 0x00001414#32

/-- `DMAC.ENAB` (R33). -/
def dmacEnab : Word := 0x80000000#32

/-! ### The clock window (10_state.md R36, R37) -/

/-- A write to CLK.CLKCTL: bit 4 is ENAB (R36). -/
def State.writeClkctl (s : State) (v : Word) : State := s.setClk { s.clk with enab := v.getLsbD 4 }

/-- A write to CLK.CLKDIV: bits 23:12 are DIVI; ignored while BUSY, which equals ENAB (R36, R37). -/
def State.writeClkdiv (s : State) (v : Word) : State :=
  if s.clk.enab then s else s.setClk { s.clk with divi := v.extractLsb' 12 12 }

/-- `CLKCTL.ENAB` (R36). -/
def clkEnab : Word := 0x00000010#32

/-! ### The DMA window (10_state.md R38, R39; 42_dma_sequencer.md R276, R282, R285) -/

/-- The effect of a write of 1 to DMA.CS.RESET: the whole window and the hidden state to their reset values (R285). -/
def Dma.cleared : Dma where
  active := false
  ended := false
  int := false
  error := false
  conblkAd := 0#32
  ti := 0#32
  sourceAd := 0#32
  destAd := 0#32
  txfrLen := 0#32
  stride := 0#32
  nextConbk := 0#32
  errcause := 0#3
  dphase := .idle
  stalled := false

/-- The effect of a write of 1 to DMA.CS.ACTIVE: it starts the sequencer unless ACTIVE or ERROR is 1 (R276). -/
def Dma.start (d : Dma) : Dma :=
  if d.active || d.error then d else { d with active := true, dphase := .load }

/-- A write of v to DMA.CS (R38): RESET acts alone; else END and INT are write-1-to-clear, a 1 in ACTIVE starts the
sequencer, a 0 in ACTIVE does nothing (that RESET acts alone is a DESIGN CHOICE, log entry 9). -/
def Dma.writeCs (d : Dma) (v : Word) : Dma :=
  if v.getLsbD 31 then Dma.cleared
  else
    let d1 := { d with ended := d.ended && !v.getLsbD 1, int := d.int && !v.getLsbD 2 }
    if v.getLsbD 0 then d1.start else d1

/-- A write of v to DMA.CS. -/
def State.writeCs (s : State) (v : Word) : State := s.setDma (s.dma.writeCs v)

/-- A write of v to DMA.CONBLK_AD: ignored while ACTIVE = 1 (R39). -/
def State.writeConblkAd (s : State) (v : Word) : State :=
  if s.dma.active then s else s.setDma { s.dma with conblkAd := v }

/-- `CS.ACTIVE` (R38). -/
def csActive : Word := 0x00000001#32

/-- `CS.END | CS.INT` (R38). -/
def csEndInt : Word := 0x00000006#32

/-- `CS.RESET` (R38). -/
def csReset : Word := 0x80000000#32

/-- `stop(c)`: the one way the sequencer takes an error. It sets ERROR and ERRCAUSE, clears ACTIVE and goes idle; END, INT,
CONBLK_AD and the current-block registers keep their values (R282, 60_exceptions.md R352). -/
def State.stop (s : State) (cause : BitVec 3) : State :=
  s.setDma { s.dma with error := true, errcause := cause, active := false, dphase := .idle }

/-! ### The sequencer's address predicates (42_dma_sequencer.md R284) -/

/-- The word at address a lies in the region (R284). -/
def State.readable (s : State) (a : Nat) : Bool :=
  match s.life with
  | .active d => decide (d.rbase.toNat ≤ a) && decide (a + 4 ≤ d.rbase.toNat + d.rsize)
  | _ => false

/-- The word at address a lies in the region or is a FIFO register (R284). -/
def State.writable (s : State) (a : Nat) : Bool :=
  s.readable a || decide (a = s.config.fif0Bus.toNat) || decide (a = s.config.fif1Bus.toNat)

/-! ### The environment's draws and the scheduler's choices (00_scope.md R7, R8) -/

/-- The next INIT's draws: the first supplied, else a free value (log entry 4). -/
def State.initDraw (s : State) : InitDraw :=
  match s.env.draws with
  | d :: _ => d
  | [] => Config.freeDraw s.env.drawsTaken

/-- The draws used up. -/
def State.dropDraw (s : State) : State :=
  s.setEnv { s.env with draws := s.env.draws.tail, drawsTaken := s.env.drawsTaken + 1 }

/-- Whose step is next: the first of the plan, else a free value (log entry 3). -/
def State.turn (s : State) : Turn :=
  match s.env.plan with
  | t :: _ => t
  | [] => Config.freeTurn s.env.turnsTaken

/-- The choice used up. -/
def State.dropTurn (s : State) : State :=
  s.setEnv { s.env with plan := s.env.plan.tail, turnsTaken := s.env.turnsTaken + 1 }

/-- The first pending host access used up. -/
def State.dropHost (s : State) : State := s.setEnv { s.env with hostq := s.env.hostq.tail }

/-- The value a host read returned. -/
def State.setRdata (s : State) (v : Word) : State := s.setEnv { s.env with rdata := v }

end Sys2Proof.Machine
end

