-- ==== Sys2Proof/Machine/Operands.lean ====
section
/-! DEFINITION. Operand forms: ChannelConfig records (30_encoding.md R116 to R118), the channel operand, the frame's
geometry that depends on a configuration only (41_bitstream_encoder.md R227 to R229), the region's addresses
(20_memory.md R86, 42_dma_sequencer.md R261) and the fixed numbers of 00_scope.md section 4. -/

namespace Sys2Proof.Machine

/-- `ceil_div(a, b)` (00_scope.md R5). -/
def ceilDiv (a b : Nat) : Nat := (a + b - 1) / b

/-- `RESET_US` (00_scope.md section 4). -/
def resetUs : Nat := 55

/-- `SUPPORTED_FREQS`. -/
def supportedFreqs : List Nat := [400000, 800000]

/-- `DEFAULT_FREQ`. -/
def defaultFreq : Nat := 800000

/-- `DIVI_MIN` and `DIVI_MAX`. -/
def diviMin : Nat := 2
def diviMax : Nat := 4095

/-- The strip type of a code; codes 12 and above are none (30_encoding.md R118). -/
def stripTypeOf : Nat → Option StripType
  | 0 => some .RGB
  | 1 => some .RBG
  | 2 => some .GRB
  | 3 => some .GBR
  | 4 => some .BRG
  | 5 => some .BGR
  | 6 => some .RGBW
  | 7 => some .RBGW
  | 8 => some .GRBW
  | 9 => some .GBRW
  | 10 => some .BRGW
  | 11 => some .BGRW
  | _ => none

/-- `order(t)`: the components in the order they go on the wire (30_encoding.md R118). -/
def stripOrder : StripType → List Letter
  | .RGB => [.R, .G, .B]
  | .RBG => [.R, .B, .G]
  | .GRB => [.G, .R, .B]
  | .GBR => [.G, .B, .R]
  | .BRG => [.B, .R, .G]
  | .BGR => [.B, .G, .R]
  | .RGBW => [.R, .G, .B, .W]
  | .RBGW => [.R, .B, .G, .W]
  | .GRBW => [.G, .R, .B, .W]
  | .GBRW => [.G, .B, .R, .W]
  | .BRGW => [.B, .R, .G, .W]
  | .BGRW => [.B, .G, .R, .W]

/-- `ncol(t)` (30_encoding.md R118). -/
def stripNcol : StripType → Nat
  | .RGB => 3
  | .RBG => 3
  | .GRB => 3
  | .GBR => 3
  | .BRG => 3
  | .BGR => 3
  | .RGBW => 4
  | .RBGW => 4
  | .GRBW => 4
  | .GBRW => 4
  | .BRGW => 4
  | .BGRW => 4

/-- The GPIO pin of a pin word, `sext_32` (30_encoding.md R116). -/
def gpioPin (w : Word) : Int := w.toInt

/-- `pin in PIN_ROUTE(c)`; a negative pin is in no route (40_controller_commands.md R158). -/
def routed (p : Config) (c : Chan) (pin : Int) : Bool :=
  match c with
  | .c0 => p.pinRoute0.any (fun g => decide (pin = (g : Int)))
  | .c1 => p.pinRoute1.any (fun g => decide (pin = (g : Int)))

/-- `pin in PCM_PINS` (40_controller_commands.md R157). -/
def pcmOnly (p : Config) (pin : Int) : Bool := p.pcmPins.any (fun g => decide (pin = (g : Int)))

/-- The record of channel c as a configuration, or `none` where INIT reports ConfigError for it: count 0, brightness
above 255, invert not 0 or 1, no such strip type, unsupported frequency, or a pin not routed to serializer c
(40_controller_commands.md R156, R158). -/
def channelConfig (p : Config) (c : Chan) (r : ConfigRecord) : Option ChannelConfig :=
  if r.count.toNat = 0 then none
  else if 255 < r.bright.toNat then none
  else if 1 < r.invw.toNat then none
  else if !supportedFreqs.contains r.freq.toNat then none
  else if !routed p c (gpioPin r.pin) then none
  else
    match stripTypeOf r.stype.toNat with
    | none => none
    | some t =>
      some
        { pin := gpioPin r.pin
          count := r.count.toNat
          bright := BitVec.ofNat 8 r.bright.toNat
          invert := decide (r.invw.toNat = 1)
          stype := t
          freq := r.freq.toNat }

/-- `DIVI = (F_SRC + (3 f) div 2) div (3 f)` (40_controller_commands.md R161). -/
def clockDivisor (p : Config) (f : Nat) : Nat := (p.fSrc + 3 * f / 2) / (3 * f)

/-- `RESET_SLOTS(f)` (41_bitstream_encoder.md R227). -/
def resetSlots (f : Nat) : Nat := ceilDiv (resetUs * 3 * f) 1000000

/-- `WORDS(cfg)` (41_bitstream_encoder.md R229). -/
def frameWords (cfg : ChannelConfig) : Nat :=
  ceilDiv (cfg.count * stripNcol cfg.stype * 24 + resetSlots cfg.freq) 32

/-- `NCH` (10_state.md R28). -/
def Device.nch (d : Device) : Nat := if d.ch1.isSome then 2 else 1

/-- Channel c of the device; `none` when c ≥ NCH. -/
def Device.chan (d : Device) : Chan → Option Channel
  | .c0 => some d.ch0
  | .c1 => d.ch1

/-- `PIX[c] <- pix`; no effect when c ≥ NCH. -/
def Device.setPix (d : Device) (c : Chan) (pix : List Word) : Device :=
  match c with
  | .c0 => { d with ch0 := { d.ch0 with pix := pix } }
  | .c1 => { d with ch1 := d.ch1.map (fun k => { k with pix := pix }) }

/-- `CBADDR(c)` (42_dma_sequencer.md R261). -/
def Device.cbAddr (d : Device) : Chan → Nat
  | .c0 => d.rbase.toNat
  | .c1 => d.rbase.toNat + 0x20

/-- `CBT_ADDR`. -/
def Device.cbtAddr (d : Device) : Nat := d.rbase.toNat + 0x40

/-- `ZERO_ADDR`. -/
def Device.zeroAddr (d : Device) : Nat := d.rbase.toNat + 0x60

/-- `CFLAG_ADDR`. -/
def Device.cflagAddr (d : Device) : Nat := d.rbase.toNat + 0x64

/-- `SLOTADDR(c) = RBASE + 0x80 + c * SLOT * 4`. -/
def Device.slotAddr (d : Device) (c : Chan) : Nat := d.rbase.toNat + 0x80 + c.toNat * d.slot * 4

/-- `FIFBUS(c)`. -/
def fifBus (p : Config) : Chan → Word
  | .c0 => p.fif0Bus
  | .c1 => p.fif1Bus

/-- The constraints on a region base (20_memory.md R88). -/
def baseOk (p : Config) (rsize : Nat) (base : Word) : Bool :=
  decide (base.toNat % 32 = 0) && decide (base ≠ 0) && decide (base.toNat + rsize ≤ 2 ^ 32) &&
    !(decide (base.toNat ≤ p.fif0Bus.toNat) && decide (p.fif0Bus.toNat < base.toNat + rsize)) &&
    !(decide (base.toNat ≤ p.fif1Bus.toNat) && decide (p.fif1Bus.toNat < base.toNat + rsize))

/-- The lowest 32-byte aligned address above a FIFO register. -/
def baseAbove (bus : Word) : Word := BitVec.ofNat 32 ((bus.toNat / 32 + 1) * 32)

/-- The region base of a successful INIT: the drawn one when it meets R88. A draw that does not meet R88 stands for the
lowest base above address 0, FIF0_BUS or FIF1_BUS that does; `none` only when no base does (log entry 4). -/
def regionBase (p : Config) (rsize : Nat) (drawn : Word) : Option Word :=
  [drawn, 32#32, baseAbove p.fif0Bus, baseAbove p.fif1Bus].find? (baseOk p rsize)

end Sys2Proof.Machine
end

