-- ==== Sys2Proof/Machine/Flags.lean ====
section
/-! DEFINITION. Everything that is computed from other state whenever it is read: the status and register words
(10_state.md R24, R25, R31 to R41), the data-request lines (R49), the running conditions (43_pwm_serializer.md R300,
R301), completion and draining (42_dma_sequencer.md R268, 40_controller_commands.md R184), `transportStuck`
(40_controller_commands.md R183) and which agent steps are enabled (42_dma_sequencer.md R275, 43_pwm_serializer.md
R303). -/

namespace Sys2Proof.Machine

/-! ### Running conditions and data requests -/

/-- The symbol clock runs (10_state.md R37, 43_pwm_serializer.md R300). -/
def State.clockRuns (s : State) : Bool := s.clk.enab && decide (2 ≤ s.clk.divi.toNat)

/-- Serializer c runs (43_pwm_serializer.md R301). -/
def State.runs (s : State) (c : Chan) : Bool := s.clockRuns && (s.ser c).pwen

/-- `DREQc = PWM.DMAC.ENAB and len(FIFOc) < FIFO_DEPTH` (10_state.md R49). -/
def State.dreq (s : State) (c : Chan) : Bool :=
  s.dmac && decide ((s.ser c).fifo.length < s.config.fifoDepth)

/-- The fields of DMA.TI. -/
def State.info (s : State) : TransferInfo := TransferInfo.ofWord s.dma.ti

/-- The serializer whose data-request line a PERMAP names: 1 and 2 (30_encoding.md R121). -/
def requestLine (ti : TransferInfo) : Option Chan :=
  if ti.permap = 1#5 then some .c0 else if ti.permap = 2#5 then some .c1 else none

/-- The data request of the current block's PERMAP; false when it names no line. -/
def State.lineDreq (s : State) : Bool :=
  match requestLine s.info with
  | some c => s.dreq c
  | none => false

/-! ### Completion -/

/-- `CFLAG`, the completion flag word (42_dma_sequencer.md R261). -/
def State.cflag (s : State) (d : Device) : Word := Memory.readWord s.mem d.cflagAddr

/-- `complete` (42_dma_sequencer.md R268). -/
def State.complete (s : State) (d : Device) : Bool := decide (s.cflag d = 0#32) && !s.dma.active

/-- FIFOc holds no word or channel c is not configured. -/
def State.chanDrained (s : State) (d : Device) (c : Chan) : Bool :=
  (d.chan c).isNone || (s.ser c).fifo.isEmpty

/-- `drained`: every configured channel's FIFO is empty (40_controller_commands.md R184). -/
def State.drained (s : State) (d : Device) : Bool := s.chanDrained d .c0 && s.chanDrained d .c1

/-- Clause (a) of `transportStuck`, of a transfer that waits for a data request nothing will ever make: its line does not
assert, and DMAC.ENAB is 0 or the serializer does not run (40_controller_commands.md R183). -/
def State.starved (s : State) : Bool :=
  match requestLine s.info with
  | some c => !s.dreq c && (!s.dmac || !s.runs c)
  | none => false

/-- A configured channel's FIFO holds words and its serializer does not run: clause (c) of `transportStuck`. -/
def State.chanStranded (s : State) (d : Device) (c : Chan) : Bool :=
  (d.chan c).isSome && !(s.ser c).fifo.isEmpty && !s.runs c

/-- `transportStuck` (40_controller_commands.md R183), clauses (a), (b) and (c). -/
def State.transportStuck (s : State) (d : Device) : Bool :=
  (s.dma.active &&
    (s.dma.stalled ||
      (decide (s.dma.dphase = .xfer) && decide (s.dma.txfrLen ≠ 0#32) && s.info.destDreq && s.starved))) ||
  (!s.dma.active && !s.dma.error && decide (s.cflag d ≠ 0#32)) ||
  (s.complete d && (s.chanStranded d .c0 || s.chanStranded d .c1))

/-! ### Which agent steps are enabled -/

/-- The sequencer is in a chain and not stalled. -/
def State.dmaLive (s : State) : Bool := s.dma.active && !s.dma.stalled

/-- LOAD is enabled (42_dma_sequencer.md R275). -/
def State.loadEnabled (s : State) : Bool := s.dmaLive && decide (s.dma.dphase = .load)

/-- XFER is enabled (42_dma_sequencer.md R275, R280). -/
def State.xferEnabled (s : State) : Bool :=
  s.dmaLive && decide (s.dma.dphase = .xfer) && decide (s.dma.txfrLen ≠ 0#32) && (!s.info.destDreq || s.lineDreq)

/-- NEXT is enabled (42_dma_sequencer.md R275). -/
def State.nextEnabled (s : State) : Bool :=
  s.dmaLive && decide (s.dma.dphase = .xfer) && decide (s.dma.txfrLen = 0#32)

/-- STALL is enabled (42_dma_sequencer.md R275, R283). -/
def State.stallEnabled (s : State) : Bool := s.dmaLive && !s.hwHealthy

/-- SHIFT(c) is enabled (43_pwm_serializer.md R303). -/
def State.shiftEnabled (s : State) (c : Chan) : Bool := s.runs c && !(s.ser c).fifo.isEmpty

/-- The sequencer is in the middle of serializer c's data block: the last conjunct of GAP's condition
(43_pwm_serializer.md R303). -/
def State.feeding (s : State) (c : Chan) : Bool :=
  s.dmaLive && decide (s.dma.dphase = .xfer) && decide (requestLine s.info = some c)

/-- GAP(c) is enabled (43_pwm_serializer.md R303). -/
def State.gapEnabled (s : State) (c : Chan) : Bool :=
  s.runs c && (s.ser c).fifo.isEmpty && !(s.ser c).lastGap && !s.feeding c

/-! ### Register words -/

/-- The number of a result code (60_exceptions.md R345). -/
def ResultCode.code : ResultCode → Nat
  | .ok => 0
  | .configError => 1
  | .resourceError => 2
  | .hardwareBusyError => 3
  | .indexError => 4
  | .lengthMismatchError => 5
  | .transmissionError => 6
  | .timeoutError => 7

/-- HIF.RESULT as read: CODE in 7:0, ORIGIN in 31:16 (10_state.md R24). -/
def State.resultWord (s : State) : Word :=
  BitVec.ofNat 32 s.result.code.code ||| (s.result.origin.setWidth 32 <<< 16)

/-- The LIFE field of STATUS (10_state.md R25). -/
def Life.code : Life → Nat
  | .uninitialized => 0
  | .active _ => 1
  | .finalized => 2

/-- `INFLIGHT`: Active and not complete (10_state.md R25). -/
def State.inflight (s : State) : Bool :=
  match s.life with
  | .active d => !s.complete d
  | _ => false

/-- HIF.STATUS as read (10_state.md R25). -/
def State.statusWord (s : State) : Word :=
  bitAt s.inflight 1 ||| (BitVec.ofNat 32 s.life.code <<< 2) ||| bitAt s.dma.int 4 ||| bitAt s.owned 5

/-- One serializer's byte of PWM.CTL: PWEN, MODE (1), POLA, USEF (1); CLRF reads 0 (10_state.md R31). -/
def Serializer.ctlBits (x : Serializer) : Word :=
  bitAt x.pwen 0 ||| bitAt true 1 ||| bitAt x.pola 4 ||| bitAt true 5

/-- PWM.CTL as read (10_state.md R31). -/
def State.ctlWord (s : State) : Word := s.ser0.ctlBits ||| (s.ser1.ctlBits <<< 8)

/-- One serializer's byte of PWM.STA: FULL, EMPT, WERR, GAPO (10_state.md R32). -/
def Serializer.staBits (x : Serializer) (depth : Nat) : Word :=
  bitAt (decide (x.fifo.length = depth)) 0 ||| bitAt x.fifo.isEmpty 1 ||| bitAt x.werr 2 ||| bitAt x.gapo 4

/-- PWM.STA as read (10_state.md R32). -/
def State.staWord (s : State) : Word :=
  s.ser0.staBits s.config.fifoDepth ||| (s.ser1.staBits s.config.fifoDepth <<< 8)

/-- PWM.DMAC as read (10_state.md R33). -/
def State.dmacWord (s : State) : Word := bitAt s.dmac 31

/-- PWM.RNG0 and PWM.RNG1 as read: `WORD_BITS` (10_state.md R34). -/
def rngWord : Word := 0x00000020#32

/-- CLK.CLKCTL as read: ENAB in bit 4, BUSY = ENAB in bit 7 (10_state.md R36). -/
def State.clkctlWord (s : State) : Word := bitAt s.clk.enab 4 ||| bitAt s.clk.enab 7

/-- CLK.CLKDIV as read: DIVI in 23:12 (10_state.md R37). -/
def State.clkdivWord (s : State) : Word := s.clk.divi.setWidth 32 <<< 12

/-- DMA.CS as read; DREQ is the current block's data request while DPHASE is not Idle (10_state.md R38, R49). -/
def State.csWord (s : State) : Word :=
  bitAt s.dma.active 0 ||| bitAt s.dma.ended 1 ||| bitAt s.dma.int 2 |||
    bitAt (decide (s.dma.dphase ≠ .idle) && s.lineDreq) 3 ||| bitAt s.dma.error 8

/-- DMA.DEBUG as read: ERRCAUSE in 2:0 (10_state.md R41). -/
def State.debugWord (s : State) : Word := s.dma.errcause.setWidth 32

end Sys2Proof.Machine
end

