-- ==== Sys2Proof/Machine/Init.lean ====
section
/-! DEFINITION. INIT, INIT1 and FINI (spec/40_controller_commands.md R153 to R172). -/

namespace Sys2Proof.Machine

/-- What a valid configuration fixes: one or two channels and the clock divisor. -/
structure InitPlan where
  cfg0 : ChannelConfig
  cfg1 : Option ChannelConfig
  divi : Nat
  deriving DecidableEq, Repr

/-- The divisor check that ends the configuration checks (R161). -/
def planOf (p : Config) (cfg0 : ChannelConfig) (cfg1 : Option ChannelConfig) : Option InitPlan :=
  if clockDivisor p cfg0.freq < diviMin || diviMax < clockDivisor p cfg0.freq then none
  else some ⟨cfg0, cfg1, clockDivisor p cfg0.freq⟩

/-- Every configuration check of INIT; `none` is ConfigError (R155, R156, R158 to R161). -/
def initPlan (p : Config) (rs : List ConfigRecord) : Option InitPlan :=
  match rs with
  | [r0] =>
    match channelConfig p .c0 r0 with
    | some k0 => planOf p k0 none
    | none => none
  | [r0, r1] =>
    match channelConfig p .c0 r0, channelConfig p .c1 r1 with
    | some k0, some k1 =>
      if k0.pin = k1.pin then none
      else if k0.freq ≠ k1.freq then none
      else planOf p k0 (some k1)
    | _, _ => none
  | _ => none

/-- `NCH` of a plan. -/
def InitPlan.nch (q : InitPlan) : Nat := if q.cfg1.isSome then 2 else 1

/-- `SLOT = max WORDS[i]` (20_memory.md R87). -/
def InitPlan.slot (q : InitPlan) : Nat :=
  match q.cfg1 with
  | some k1 => max (frameWords q.cfg0) (frameWords k1)
  | none => frameWords q.cfg0

/-- `RSIZE = 0x80 + NCH * SLOT * 4` (20_memory.md R87). -/
def InitPlan.rsize (q : InitPlan) : Nat := 0x80 + q.nch * q.slot * 4

/-- A channel right after INIT: every pixel 0 (R168). -/
def freshChannel (k : ChannelConfig) : Channel := ⟨k, List.replicate k.count 0#32, frameWords k⟩

/-- The device state INIT commits (R168). -/
def InitPlan.device (q : InitPlan) (base : Word) : Device where
  ch0 := freshChannel q.cfg0
  ch1 := q.cfg1.map freshChannel
  slot := q.slot
  rsize := q.rsize
  rbase := base

/-- The device state committed, the region zero-filled, the peripheral owned (R168, 20_memory.md R89). -/
def State.commit (s : State) (q : InitPlan) (base : Word) : State :=
  ((s.setMem []).setOwned true).setLife (.active (q.device base))

/-- `PWM.CTL.PWENc <- 1; PWM.CTL.POLAc <- invert` (R169), and the stream marked (log entry 17). -/
def State.enableSer (s : State) (c : Chan) (k : ChannelConfig) : State :=
  ((s.writePwen c true).writePola c k.invert).markInit c k

/-- INIT's register writes, in order (R169). -/
def State.programHardware (s : State) (q : InitPlan) : State :=
  let s1 := s.writeClkctl 0#32
  let s2 := s1.writeClkdiv (BitVec.ofNat 32 q.divi <<< 12)
  let s3 := s2.writeClkctl clkEnab
  let s4 := s3.writeCtl ctlClearFifos
  let s5 := s4.writeSta staClearAll
  let s6 := s5.enableSer .c0 q.cfg0
  let s7 :=
    match q.cfg1 with
    | some k1 => s6.enableSer .c1 k1
    | none => s6
  let s8 := s7.writeDmac dmacEnab
  s8.writeCs csReset

/-- INIT from its claim on: the draws, the allocation, the base, then the commit and the hardware (R154 steps 3 and 4, R163
to R169; ORIGIN by 60_exceptions.md R346, log entry 8). -/
def State.claim (s : State) (q : InitPlan) : State :=
  if s.owned then s.report .hardwareBusyError 0
  else if s.initDraw.otherOwner then s.dropDraw.report .hardwareBusyError s.initDraw.originCode
  else if s.initDraw.allocFails then s.dropDraw.report .resourceError s.initDraw.originCode
  else if s.config.maxRegionBytes < q.rsize then s.dropDraw.report .resourceError 0
  else
    match regionBase s.config q.rsize s.initDraw.rbase with
    | none => s.dropDraw.report .resourceError s.initDraw.originCode
    | some base => ((s.dropDraw.commit q base).programHardware q).report .ok 0

/-- A record's pin is routable to the PCM peripheral only (R157). -/
def pcmRecord (p : Config) (r : ConfigRecord) : Bool := pcmOnly p (gpioPin r.pin)

/-- INIT's body, shared with INIT1: the PCM refusal, the configuration, the claim (R153, R154). -/
def initDevice (rs : List ConfigRecord) (s : State) : Host.Outcome State Fault Refusal :=
  if rs.any (pcmRecord s.config) then .refused .pcmPin
  else
    match initPlan s.config rs with
    | none => .next (s.report .configError 0)
    | some q => .next (s.claim q)

/-- INIT (R153). -/
def execInit (rs : List ConfigRecord) (s : State) : Host.Outcome State Fault Refusal := initDevice rs s

/-- The record INIT1 makes of its three operands: invert 0, RGB (code 0), 800000 Hz (R170). -/
def defaultRecord (pin count bright : Word) : ConfigRecord :=
  ⟨pin, count, bright, 0#32, 0#32, BitVec.ofNat 32 defaultFreq⟩

/-- INIT1 (R170). -/
def execInit1 (pin count bright : Word) (s : State) : Host.Outcome State Fault Refusal :=
  initDevice [defaultRecord pin count bright] s

/-- FINI's register writes and releases, in order (R171, 20_memory.md R90). -/
def State.release (s : State) : State :=
  let s1 := s.writeCs csReset
  let s2 := s1.writeCtl ctlClearFifos
  let s3 := s2.writeDmac 0#32
  let s4 := s3.writeClkctl 0#32
  ((s4.setMem []).setOwned false).setLife .finalized

/-- FINI (R171, R172). -/
def execFini (s : State) : Host.Outcome State Fault Refusal :=
  match s.life with
  | .active _ => .next (s.release.report .ok 0)
  | _ => .next (s.report .ok 0)

end Sys2Proof.Machine
end

