-- ==== Sys2Proof/Machine/Pixels.lean ====
section
/-! DEFINITION. SETPIXEL and SETBITMAP (spec/40_controller_commands.md R173 to R176). -/

namespace Sys2Proof.Machine

/-- SETPIXEL (R173): NotInitialized, then the channel, then the index. -/
def execSetpixel (ch : Chan) (index color : Word) (s : State) : Host.Outcome State Fault Refusal :=
  match s.life with
  | .active d =>
    match d.chan ch with
    | none => .next (s.report .indexError 0)
    | some k =>
      if index.toNat < k.cfg.count then
        .next ((s.setLife (.active (d.setPix ch (k.pix.set index.toNat color)))).report .ok 0)
      else .next (s.report .indexError 0)
  | _ => .fault .notInitialized

/-- SETBITMAP (R175): NotInitialized, then the channel, then the length. -/
def execSetbitmap (ch : Chan) (colors : List Word) (s : State) : Host.Outcome State Fault Refusal :=
  match s.life with
  | .active d =>
    match d.chan ch with
    | none => .next (s.report .indexError 0)
    | some k =>
      if colors.length = k.cfg.count then .next ((s.setLife (.active (d.setPix ch colors))).report .ok 0)
      else .next (s.report .lengthMismatchError 0)
  | _ => .fault .notInitialized

end Sys2Proof.Machine
end

