-- ==== Sys2Proof/Machine/Encoder.lean ====
section
/-! DEFINITION. The bitstream encoder of spec/41_bitstream_encoder.md: a pure function from a pixel buffer and its
configuration to the frame's words. A slot is a `Bool`, true for high. -/

namespace Sys2Proof.Machine

/-- `comp(c, L)`: a pixel is 0xWWRRGGBB (R221, R222). -/
def comp (c : Word) : Letter → Byte
  | .R => c.extractLsb' 16 8
  | .G => c.extractLsb' 8 8
  | .B => c.extractLsb' 0 8
  | .W => c.extractLsb' 24 8

/-- `scale(v, b) = (v * b) div 255` (R223). -/
def scale (v b : Byte) : Byte := BitVec.ofNat 8 (v.toNat * b.toNat / 255)

/-- `bitcode(d)`: three slots, high first (R224). -/
def bitcode : Bool → List Bool
  | false => [true, false, false]
  | true => [true, true, false]

/-- `bytecode(v)`: the bits most significant first (R225). -/
def bytecode (v : Byte) : List Bool :=
  [7, 6, 5, 4, 3, 2, 1, 0].flatMap (fun k => bitcode (v.getLsbD k))

/-- `pixbytes(c, cfg)`: the scaled components in the strip's order (R226). -/
def pixbytes (c : Word) (cfg : ChannelConfig) : List Byte :=
  (stripOrder cfg.stype).map (fun l => scale (comp c l) cfg.bright)

/-- `DATA(pix, cfg)` (R226). -/
def dataSlots (pix : List Word) (cfg : ChannelConfig) : List Bool :=
  pix.flatMap (fun c => (pixbytes c cfg).flatMap bytecode)

/-- `PAD`, the low slots that fill the last word (R228). -/
def padSlots (pix : List Word) (cfg : ChannelConfig) : Nat :=
  32 * frameWords cfg - (dataSlots pix cfg).length - resetSlots cfg.freq

/-- `SLOTS(pix, cfg)`: data, reset code, padding (R227, R228, R230). -/
def frameSlots (pix : List Word) (cfg : ChannelConfig) : List Bool :=
  dataSlots pix cfg ++ List.replicate (resetSlots cfg.freq) false ++ List.replicate (padSlots pix cfg) false

/-- The number whose binary digits are the list, first digit most significant. -/
def bitsValue : List Bool → Nat
  | bs => bs.foldl (fun acc b => 2 * acc + b.toNat) 0

/-- n words of 32 slots each, the first slot in bit 31 (R231). -/
def packWords : Nat → List Bool → List Word
  | 0, _ => []
  | n + 1, bs => BitVec.ofNat 32 (bitsValue (bs.take 32)) :: packWords n (bs.drop 32)

/-- `ENCODE(pix, cfg)` (R220, R231). -/
def encodeFrame (pix : List Word) (cfg : ChannelConfig) : List Word :=
  packWords (frameWords cfg) (frameSlots pix cfg)

end Sys2Proof.Machine
end

