-- ==== Sys2Proof/Machine/Render.lean ====
section
/-! DEFINITION. ARM (spec/42_dma_sequencer.md R260 to R267), and CLEAR, RENDER and WAIT (spec/40_controller_commands.md
R177 to R184). -/

namespace Sys2Proof.Machine

/-- A channel's data slot: its encoded frame, then zero words up to SLOT (42_dma_sequencer.md R263). -/
def slotWords (k : Channel) (slot : Nat) : List Word :=
  encodeFrame k.pix k.cfg ++ List.replicate (slot - k.words) 0#32

/-- A DMA-visible address as a word. -/
def addrWord (a : Nat) : Word := BitVec.ofNat 32 a

/-- The data control block of channel c (42_dma_sequencer.md R262, R265). -/
def Device.dataBlock (d : Device) (p : Config) (c : Chan) (k : Channel) (nextcb : Nat) : ControlBlock :=
  ControlBlock.data c (addrWord (d.slotAddr c)) (fifBus p c) (BitVec.ofNat 32 (4 * k.words)) (addrWord nextcb)

/-- The terminal control block (42_dma_sequencer.md R262, R266). -/
def Device.flagBlock (d : Device) : ControlBlock :=
  ControlBlock.flag (addrWord d.zeroAddr) (addrWord d.cflagAddr) 4#32 0#32

/-- The address of the block after channel 0's: CB1, or CBT with one channel (42_dma_sequencer.md R262). -/
def Device.afterCb0 (d : Device) : Nat := if d.ch1.isSome then d.cbAddr .c1 else d.cbtAddr

/-- ARM's writes to the region, in order: every frame, the data blocks, the terminal block, ZERO, CFLAG
(42_dma_sequencer.md R262 to R266). -/
def Device.armMem (d : Device) (p : Config) (m : Memory) : Memory :=
  let m1 := Memory.writeWords m (d.slotAddr .c0) (slotWords d.ch0 d.slot)
  let m2 :=
    match d.ch1 with
    | some k1 => Memory.writeWords m1 (d.slotAddr .c1) (slotWords k1 d.slot)
    | none => m1
  let m3 := Memory.writeWords m2 (d.cbAddr .c0) (d.dataBlock p .c0 d.ch0 d.afterCb0).words
  let m4 :=
    match d.ch1 with
    | some k1 => Memory.writeWords m3 (d.cbAddr .c1) (d.dataBlock p .c1 k1 d.cbtAddr).words
    | none => m3
  let m5 := Memory.writeWords m4 d.cbtAddr d.flagBlock.words
  let m6 := Memory.writeWord m5 d.zeroAddr 0#32
  Memory.writeWord m6 d.cflagAddr 1#32

/-- ARM (42_dma_sequencer.md R262, R267): the region, END and INT cleared, CONBLK_AD, then ACTIVE. The barrier is the
order of these writes inside one atomic step (20_memory.md R94, R95). -/
def State.arm (s : State) (d : Device) : State :=
  (((s.setMem (d.armMem s.config s.mem)).writeCs csEndInt).writeConblkAd d.rbase).writeCs csActive

/-- `RENDER_BODY` (R179, R180). -/
def State.renderBody (s : State) (d : Device) : State :=
  if s.complete d then (s.arm d).report .ok 0 else s.report .transmissionError 0

/-- RENDER (R179). -/
def execRender (s : State) : Host.Outcome State Fault Refusal :=
  match s.life with
  | .active d => .next (s.renderBody d)
  | _ => .fault .notInitialized

/-- CLEAR (R177, R178): the buffer is zeroed first, then the render is tried. -/
def execClear (ch : Chan) (s : State) : Host.Outcome State Fault Refusal :=
  match s.life with
  | .active d =>
    match d.chan ch with
    | none => .next (s.report .indexError 0)
    | some k =>
      let d1 := d.setPix ch (List.replicate k.cfg.count 0#32)
      .next ((s.setLife (.active d1)).renderBody d1)
  | _ => .fault .notInitialized

/-- How one test of WAIT ends it, or `none` when WAIT holds: completion and draining first, then ERROR, then
`transportStuck` (R182 to R184; ORIGIN by 60_exceptions.md R346). -/
def State.waitResult (s : State) (d : Device) : Option Result :=
  if s.complete d && s.drained d then some ⟨.ok, 0#16⟩
  else if s.dma.error then some ⟨.timeoutError, s.dma.errcause.setWidth 16⟩
  else if s.transportStuck d then some ⟨.timeoutError, 0#16⟩
  else none

/-- WAIT, one test of its loop (R182): it completes, or it holds and is tested again at the host's next turn. -/
def execWait (s : State) : Host.Outcome State Fault Refusal :=
  match s.life with
  | .active d =>
    match s.waitResult d with
    | some r => .next ((s.setWaiting false).setResult r)
    | none => .next (s.setWaiting true)
  | _ => .fault .notInitialized

end Sys2Proof.Machine
end

