-- ==== Sys2Proof/Machine/Sequencer.lean ====
section
/-! DEFINITION. The DMA sequencer's steps LOAD, XFER, NEXT and STALL (spec/42_dma_sequencer.md R275 to R284). The meaning of
the instruction CB is its LOAD: the block latched and checked; XFER and NEXT then run it. -/

namespace Sys2Proof.Machine

/-- The current-block registers after a LOAD read the six words (R277). -/
def State.latchBlock (s : State) (ti src dst len stride nextcb : Word) : State :=
  s.setDma
    { s.dma with
      ti := ti
      sourceAd := src
      destAd := dst
      txfrLen := len
      stride := stride
      nextConbk := nextcb }

/-- Row 3 of R278: the TI fields. -/
def tiOk (ti : TransferInfo) : Bool :=
  decide (ti.permap.toNat ≤ 2) && !(ti.destDreq && decide (ti.permap.toNat = 0))

/-- Row 4 of R278: TXFR_LEN, STRIDE, SOURCE_AD and DEST_AD. -/
def lengthsOk (b : ControlBlock) : Bool :=
  decide (b.txfrLen ≠ 0#32) && decide (b.txfrLen.toNat % 4 = 0) && decide (b.stride = 0#32) &&
    decide (b.sourceAd.toNat % 4 = 0) && decide (b.destAd.toNat % 4 = 0)

/-- The ERRCAUSE of a loaded block, or `none` when it is valid (R278 rows 3 and 4, in order). -/
def loadCause (b : ControlBlock) : Option (BitVec 3) :=
  if !tiOk b.ti then some 3#3 else if !lengthsOk b then some 4#3 else none

/-- `DPHASE <- Xfer` (R277). -/
def State.enterXfer (s : State) : State := s.setDma { s.dma with dphase := .xfer }

/-- CB: the LOAD of a block whose TI has no reserved bit set. The registers take the block; then it stops with cause 3 or 4,
or goes to Xfer (R277, R278). -/
def execCb (b : ControlBlock) (s : State) : Host.Outcome State Fault Refusal :=
  match loadCause b with
  | some c =>
    .next ((s.latchBlock b.ti.toWord b.sourceAd b.destAd b.txfrLen b.stride b.nextConbk).stop c)
  | none =>
    .next ((s.latchBlock b.ti.toWord b.sourceAd b.destAd b.txfrLen b.stride b.nextConbk).enterXfer)

/-- A LOAD of words that are no control block (a reserved TI bit): the registers hold the words read and the sequencer stops
with cause 3 (R277, R278). -/
def State.loadIllegal (s : State) : List Word → State
  | ti :: src :: dst :: len :: stride :: nextcb :: _ => (s.latchBlock ti src dst len stride nextcb).stop 3#3
  | _ => s

/-- The six words a LOAD reads, or the ERRCAUSE of rows 1 and 2 of R278. -/
def State.fetchBlock (s : State) : Except (BitVec 3) (List Word) :=
  if s.dma.conblkAd.toNat % 32 ≠ 0 then .error 1#3
  else if [0, 4, 8, 12, 16, 20].all (fun k => s.readable (s.dma.conblkAd.toNat + k)) then
    .ok ([0, 4, 8, 12, 16, 20].map (fun k => Memory.readWord s.mem (s.dma.conblkAd.toNat + k)))
  else .error 2#3

/-- The store of XFER: a push to a FIFO, or a word of the region (R279). -/
def State.deliver (s : State) (v : Word) : State :=
  if s.dma.destAd = s.config.fif0Bus then s.pushFifo .c0 v
  else if s.dma.destAd = s.config.fif1Bus then s.pushFifo .c1 v
  else s.setMem (Memory.writeWord s.mem s.dma.destAd.toNat v)

/-- The registers after one word: SOURCE_AD and DEST_AD step by 4 modulo 2^32 where TI says so, TXFR_LEN counts down
(R279). -/
def Dma.advance (d : Dma) : Dma :=
  { d with
    sourceAd := if (TransferInfo.ofWord d.ti).srcInc then d.sourceAd + 4#32 else d.sourceAd
    destAd := if (TransferInfo.ofWord d.ti).destInc then d.destAd + 4#32 else d.destAd
    txfrLen := d.txfrLen - 4#32 }

/-- XFER, where it is enabled (R279, R284). -/
def State.xfer (s : State) : State :=
  if !s.readable s.dma.sourceAd.toNat then s.stop 2#3
  else if !s.writable s.dma.destAd.toNat then s.stop 2#3
  else (s.deliver (Memory.readWord s.mem s.dma.sourceAd.toNat)).setDma s.dma.advance

/-- NEXT, where it is enabled (R281). -/
def State.nextBlock (s : State) : State :=
  if s.dma.nextConbk = 0#32 then
    s.setDma
      { s.dma with int := s.dma.int || s.info.inten, active := false, ended := true, dphase := .idle }
  else
    s.setDma { s.dma with int := s.dma.int || s.info.inten, conblkAd := s.dma.nextConbk, dphase := .load }

/-- STALL, where it is enabled (R283). -/
def State.stall (s : State) : State := s.setDma { s.dma with stalled := true }

end Sys2Proof.Machine
end

