-- ==== Sys2Proof/Machine/Dispatch.lean ====
section
/-! DEFINITION. One arm per constructor of Instr (spec/opcode_table.json), each a direct call of that instruction's meaning. -/

namespace Sys2Proof.Machine

def exec (i : Instr) (s : State) : Host.Outcome State Fault Refusal :=
  match i with
  | .init records => Sys2Proof.Machine.execInit records s
  | .init1 pin count bright => Sys2Proof.Machine.execInit1 pin count bright s
  | .fini => Sys2Proof.Machine.execFini s
  | .setpixel ch index color => Sys2Proof.Machine.execSetpixel ch index color s
  | .setbitmap ch colors => Sys2Proof.Machine.execSetbitmap ch colors s
  | .clear ch => Sys2Proof.Machine.execClear ch s
  | .render => Sys2Proof.Machine.execRender s
  | .wait => Sys2Proof.Machine.execWait s
  | .cb block => Sys2Proof.Machine.execCb block s

end Sys2Proof.Machine
end

