-- ==== Sys2Proof/Machine/Shifter.lean ====
section
/-! DEFINITION. The serializers' steps SHIFT and GAP (spec/43_pwm_serializer.md R303 to R306). -/

namespace Sys2Proof.Machine

/-- The 32 levels of a word, bit 31 first, each inverted when POLA is set (R305). -/
def wordLevels (w : Word) (pola : Bool) : List WireEvent :=
  (List.range 32).map (fun k => .lvl (w.getLsbD (31 - k) ^^ pola))

/-- SHIFT of one serializer: its oldest word leaves the FIFO (R305). -/
def Serializer.shift (x : Serializer) : Serializer :=
  match x.fifo with
  | [] => x
  | w :: rest => { x with fifo := rest, wire := x.wire ++ wordLevels w x.pola, lastGap := false }

/-- GAP of one serializer (R306). -/
def Serializer.recordGap (x : Serializer) : Serializer :=
  { x with wire := x.wire ++ [.gap], gapo := true, lastGap := true }

/-- SHIFT(c), where it is enabled (R305). -/
def State.shift (s : State) (c : Chan) : State := s.setSer c (s.ser c).shift

/-- GAP(c), where it is enabled (R306). -/
def State.recordGap (s : State) (c : Chan) : State := s.setSer c (s.ser c).recordGap

/-- A serializer's turn: SHIFT or GAP, whichever is enabled, else nothing (R302, R303; the two are never both enabled). -/
def State.serTurn (s : State) (c : Chan) : State :=
  if s.shiftEnabled c then s.shift c else if s.gapEnabled c then s.recordGap c else s

end Sys2Proof.Machine
end

