-- ==== Sys2Proof/Machine/Windows.lean ====
section
/-! DEFINITION. The register maps: the host's window HIF as the host reads it (spec/10_state.md R22 to R25), and the internal
windows PWM, CLK and DMA by offset, which no host access reaches (R31 to R41, R47, R48). -/

namespace Sys2Proof.Machine

/-- A host read of HIF: CMD and ARGQ read 0, a reserved offset reads 0 (R22 to R25, R48). -/
def hifRead (offset : Word) (s : State) : Word :=
  if offset = 0x08#32 then s.resultWord else if offset = 0x0C#32 then s.statusWord else 0#32

/-- A read of the PWM window; the FIFO registers read 0 (R31 to R35). -/
def pwmRead (offset : Nat) (s : State) : Word :=
  match offset with
  | 0x00 => s.ctlWord
  | 0x04 => s.staWord
  | 0x08 => s.dmacWord
  | 0x10 => rngWord
  | 0x20 => rngWord
  | _ => 0#32

/-- A write to the PWM window; RNG0 and RNG1 are hardwired, reserved offsets ignore the write (R31 to R35, R48). -/
def pwmWrite (offset : Nat) (v : Word) (s : State) : State :=
  match offset with
  | 0x00 => s.writeCtl v
  | 0x04 => s.writeSta v
  | 0x08 => s.writeDmac v
  | 0x18 => s.pushFifo .c0 v
  | 0x28 => s.pushFifo .c1 v
  | _ => s

/-- A read of the clock window (R36, R37). -/
def clkRead (offset : Nat) (s : State) : Word :=
  match offset with
  | 0x00 => s.clkctlWord
  | 0x04 => s.clkdivWord
  | _ => 0#32

/-- A write to the clock window (R36, R37). -/
def clkWrite (offset : Nat) (v : Word) (s : State) : State :=
  match offset with
  | 0x00 => s.writeClkctl v
  | 0x04 => s.writeClkdiv v
  | _ => s

/-- A read of the DMA window (R38 to R41). -/
def dmaRead (offset : Nat) (s : State) : Word :=
  match offset with
  | 0x00 => s.csWord
  | 0x04 => s.dma.conblkAd
  | 0x08 => s.dma.ti
  | 0x0C => s.dma.sourceAd
  | 0x10 => s.dma.destAd
  | 0x14 => s.dma.txfrLen
  | 0x18 => s.dma.stride
  | 0x1C => s.dma.nextConbk
  | 0x20 => s.debugWord
  | _ => 0#32

/-- A write to the DMA window; only CS and CONBLK_AD are writable (R38 to R41). -/
def dmaWrite (offset : Nat) (v : Word) (s : State) : State :=
  match offset with
  | 0x00 => s.writeCs v
  | 0x04 => s.writeConblkAd v
  | _ => s

end Sys2Proof.Machine
end

