-- ==== Sys2Proof/Machine/Fetch.lean ====
section
/-! DEFINITION. What the next turn is: an instruction to run, a step that runs none, or a refusal (spec/00_scope.md R8,
spec/40_controller_commands.md R150, R185, spec/42_dma_sequencer.md R275, R277, spec/43_pwm_serializer.md R303). Also where an
instruction is placed for the next turn to fetch it. -/

namespace Sys2Proof.Machine

/-- What a turn comes to. -/
inductive Fetch where
  /-- An instruction, and the state it runs in. -/
  | run (i : Instr) (s : State)
  /-- The turn's whole effect, with no instruction run. -/
  | done (s : State)
  /-- A refused CMD write (60_exceptions.md R351). -/
  | refuse (r : Refusal)
  deriving DecidableEq, Repr

/-- The refusal of a CMD write the decoder rejects (30_encoding.md R114, R115). -/
def refusalOf : DecodeError → Refusal
  | .argumentShape => .argumentShape
  | _ => .reservedEncoding

/-- A host write of w to CMD: refused while a WAIT holds; else decoded with ARGQ as its arguments, ARGQ emptied, and run
(R150, R185, 10_state.md R22, R23). -/
def State.issue (s : State) (w : Word) : Fetch :=
  if s.waiting then .refuse .concurrentCommand
  else
    match decode .command (w :: s.argq) with
    | .ok i => .run i (s.setArgq [])
    | .error e => .refuse (refusalOf e)

/-- One host access to HIF: a write to CMD issues a command, a write to ARGQ pushes, other writes are ignored, a read has no
effect but the value it returns (10_state.md R22 to R25, R48). -/
def State.access (s : State) : HostAccess → Fetch
  | .write offset v =>
    if offset = 0x00#32 then s.issue v
    else if offset = 0x04#32 then .done (s.setArgq (s.argq ++ [v]))
    else .done s
  | .read offset => .done (s.setRdata (hifRead offset s))

/-- The host's turn: its next access; while a WAIT holds the host's thread is inside it, and the turn is the WAIT's next test,
unless the pending access is a second thread's (40_controller_commands.md R182, R185). With nothing pending and no WAIT
the block waits (70_reset_and_hazards.md R381). -/
def State.hostTurn (s : State) : Fetch :=
  match s.env.hostq with
  | [] => if s.waiting then .run .wait s else .done s
  | e :: _ => if s.waiting && !e.secondThread then .run .wait s else s.dropHost.access e.access

/-- The sequencer's turn: LOAD, XFER or NEXT, whichever is enabled, else nothing (42_dma_sequencer.md R275, R277). -/
def State.dmaTurn (s : State) : Fetch :=
  if s.loadEnabled then
    match s.fetchBlock with
    | .error c => .done (s.stop c)
    | .ok ws =>
      match decode .block ws with
      | .ok i => .run i s
      | .error _ => .done (s.loadIllegal ws)
  else if s.xferEnabled then .done s.xfer
  else if s.nextEnabled then .done s.nextBlock
  else .done s

/-- STALL's turn (42_dma_sequencer.md R283). -/
def State.stallTurn (s : State) : State := if s.stallEnabled then s.stall else s

/-- The turn the scheduler chose (00_scope.md R8). -/
def State.fetch (s : State) : Fetch :=
  match s.turn with
  | .host => s.dropTurn.hostTurn
  | .dma => s.dropTurn.dmaTurn
  | .stall => .done s.dropTurn.stallTurn
  | .ser c => .done (s.dropTurn.serTurn c)

/-- Place a command for the host's next turn: ARGQ holds its arguments, a CMD write is pending, no WAIT holds, and the next
turn is the host's (30_encoding.md R124). -/
def State.placeCommand (s : State) : List Word → State
  | [] => s
  | w :: args =>
    ((s.setArgq args).setWaiting false).setEnv
      { s.env with hostq := ⟨.write 0x00#32 w, false⟩ :: s.env.hostq, plan := .host :: s.env.plan }

/-- A device whose region can hold a control block at its base, for `placeBlock` where there is none. -/
def spareDevice : Device where
  ch0 := ⟨⟨18, 1, 255#8, false, .RGB, 800000⟩, [0#32], 7⟩
  ch1 := none
  slot := 7
  rsize := 156
  rbase := 0x10000000#32

/-- The device whose region a placed block lies in: the present one where a LOAD can read its first words. -/
def State.placeDevice (s : State) : Device :=
  match s.life with
  | .active d => if d.rbase.toNat % 32 = 0 && decide (24 ≤ d.rsize) then d else spareDevice
  | _ => spareDevice

/-- Place a control block for the sequencer's next LOAD: it stands at the region's base, CONBLK_AD points at it, ACTIVE = 1,
DPHASE = Load, not stalled, and the next turn is the sequencer's (42_dma_sequencer.md R277). -/
def State.placeBlock (s : State) (ws : List Word) : State :=
  (((s.setLife (.active s.placeDevice)).setMem (Memory.writeWords s.mem s.placeDevice.rbase.toNat ws)).setDma
      { s.dma with
        active := true
        dphase := .load
        stalled := false
        conblkAd := s.placeDevice.rbase }).setEnv
    { s.env with plan := .dma :: s.env.plan }

/-- Place the instruction an opcode-table word stands for: a control block where the word is one and is no command, else a
command (log entry 6). -/
def State.placeTableWord (s : State) (nbits w : Nat) : State :=
  match decode .command (tableCommand nbits w), decode .block (tableBlock w) with
  | .error _, .ok _ => s.placeBlock (tableBlock w)
  | _, _ => s.placeCommand (tableCommand nbits w)

end Sys2Proof.Machine
end

