-- ==== Sys2Proof/Machine/Step.lean ====
section
/-! DEFINITION. One step of the block: the turn the scheduler chose, with the instruction it fetched run by `exec`
(spec/00_scope.md R8, spec/20_memory.md R94). -/

namespace Sys2Proof.Machine

/-- The outcome of a turn. -/
def Fetch.outcome : Fetch → Host.Outcome State Fault Refusal
  | .run i t => exec i t
  | .done t => .next t
  | .refuse r => .refused r

/-- One atomic step of one agent. -/
def step (s : State) : Host.Outcome State Fault Refusal := s.fetch.outcome

/-- The state with an opcode-table word's instruction where the next step fetches it (log entry 5). -/
def State.withFetchWord (s : State) (nbits w : Nat) : State := s.placeTableWord nbits w

end Sys2Proof.Machine
end

