-- ==== Sys2Proof/Machine/Strip.lean ====
section
/-! DEFINITION. The reference strip decoder of spec/43_pwm_serializer.md section 3 (R308 to R311, R314): the observation
function of an output stream. It is not state of the block and no step reads it. -/

namespace Sys2Proof.Machine

/-- `RESET_MIN_US` (00_scope.md section 4). -/
def resetMinUs : Nat := 50

/-- `RESET_MIN(f)`, the zero slots that latch (R309). -/
def resetMin (f : Nat) : Nat := ceilDiv (resetMinUs * 3 * f) 1000000

/-- `LOGICAL`: what the strip receives, physical level xor invert (R307, R308). -/
def logical (invert : Bool) (evs : List WireEvent) : List WireEvent :=
  evs.map (fun e =>
    match e with
    | .lvl b => .lvl (b ^^ invert)
    | .gap => .gap)

/-- A segment's levels, from its first high slot on, and whether a latch run follows it (R309). -/
structure Segment where
  levels : List Bool
  latched : Bool
  deriving DecidableEq, Repr

/-- A run of low slots and Gaps is a latch run when it holds a Gap or at least `lim` low slots (R309). -/
def latchRun (lim zeros : Nat) (gap : Bool) : Bool := gap || decide (lim ≤ zeros)

/-- A segment that came out empty is dropped (R309). -/
def emit (levels : List Bool) (latched : Bool) : List Segment :=
  if levels.isEmpty then [] else [⟨levels, latched⟩]

/-- The segments of a logical stream (R309). `seg` holds the current segment's slots up to the quiet run being read;
`zeros` and `gap` describe that run. A trailing segment that no latch run follows is listed as not latched. -/
def segmentsFrom (lim : Nat) : List Bool → Nat → Bool → List WireEvent → List Segment
  | seg, zeros, gap, [] =>
    if latchRun lim zeros gap then emit seg true else emit (if seg.isEmpty then [] else seg ++ List.replicate zeros false) false
  | seg, zeros, gap, .lvl true :: es =>
    if latchRun lim zeros gap then emit seg true ++ segmentsFrom lim [true] 0 false es
    else segmentsFrom lim (if seg.isEmpty then [true] else seg ++ List.replicate zeros false ++ [true]) 0 false es
  | seg, zeros, gap, .lvl false :: es => segmentsFrom lim seg (zeros + 1) gap es
  | seg, zeros, _, .gap :: es => segmentsFrom lim seg zeros true es

/-- The segments of a whole logical stream at frequency f. -/
def segments (f : Nat) (evs : List WireEvent) : List Segment := segmentsFrom (resetMin f) [] 0 false evs

/-- The bits of whole triplets; `none` is malformed (R310). -/
def tripletBits : List Bool → Option (List Bool)
  | [] => some []
  | true :: true :: false :: rest => (tripletBits rest).map (fun bs => true :: bs)
  | true :: false :: false :: rest => (tripletBits rest).map (fun bs => false :: bs)
  | _ => none

/-- `BITS(S)`: the last triplet's low tail restored, then triplet by triplet (R310). -/
def segmentBits (levels : List Bool) : Option (List Bool) :=
  tripletBits (levels ++ List.replicate ((3 - levels.length % 3) % 3) false)

/-- `byte(bits, n)`: eight bits, first most significant (R311). -/
def byteAt (bits : List Bool) (n : Nat) : Byte := BitVec.ofNat 8 (bitsValue ((bits.drop (8 * n)).take 8))

/-- One LED's components. -/
abbrev Led := List (Letter × Byte)

/-- `DECODE`: the whole pixels of a segment's bits (R311). -/
def decodePixels (t : StripType) (bits : List Bool) : List Led :=
  (List.range (bits.length / (8 * stripNcol t))).map (fun k =>
    (stripOrder t).zipIdx.map (fun x => (x.1, byteAt bits (k * stripNcol t + x.2))))

/-! ### The streams of different INITs (R308) -/

/-- The events of one INIT, with its configuration. -/
structure Section where
  cfg : ChannelConfig
  events : List WireEvent
  deriving DecidableEq, Repr

/-- A stream cut where each INIT began: from a mark to the next, the last to the stream's end. -/
def sectionsFrom (wire : List WireEvent) : List InitMark → List Section
  | [] => []
  | [m] => [⟨m.cfg, wire.drop m.start⟩]
  | m :: n :: ms => ⟨m.cfg, (wire.drop m.start).take (n.start - m.start)⟩ :: sectionsFrom wire (n :: ms)

/-- A serializer's events, INIT by INIT, oldest first. -/
def Serializer.sections (x : Serializer) : List Section := sectionsFrom x.wire x.marks

/-- `LOGICAL(s)`, taken for the events of one INIT with that INIT's CFG. -/
def Section.logical (x : Section) : List WireEvent := Sys2Proof.Machine.logical x.cfg.invert x.events

/-- What a strip shows, LED by LED from the pin; `none`, and every LED past the list, is unspecified (R311, R314). -/
abbrev StripView := List (Option Led)

/-- A strip's view after one more segment: only a latched segment changes it; a malformed one leaves every LED
unspecified; the LED after the last whole pixel of a broken pixel is unspecified; LEDs beyond keep what they showed (R310,
R311, R314). A frame that a stall cut and a Gap latched short is shown by the same rules, where R313 and
93_implementation_defined.md section 1.5 leave any value (DESIGN CHOICE, log entry 18). -/
def showSegment (t : StripType) (view : StripView) (g : Segment) : StripView :=
  if g.latched then
    match segmentBits g.levels with
    | none => []
    | some bits =>
      let px := decodePixels t bits
      let rest := view.drop px.length
      px.map some ++ (if bits.length % (8 * stripNcol t) = 0 then rest else none :: rest.tail)
  else view

/-- What the strip of a channel shows after the events `evs`, all emitted under the configuration `cfg`, from the view
`view` (R308, R314). -/
def showWire (cfg : ChannelConfig) (view : StripView) (evs : List WireEvent) : StripView :=
  (segments cfg.freq (logical cfg.invert evs)).foldl (showSegment cfg.stype) view

/-- What a strip that showed `before` shows after one INIT's events (R308, R314). -/
def Section.view (x : Section) (before : StripView) : StripView := showWire x.cfg before x.events

/-- What the strip on a pin shows after the events of a serializer's INITs, oldest first: each INIT on that pin decoded with
its own CFG, an INIT on another pin driving another strip; before any latched segment nothing is specified, and what a
strip shows lasts across INITs (R308, R314; log entry 17 for the pin). -/
def stripOn (pin : Int) (xs : List Section) : StripView :=
  xs.foldl (fun view x => if x.cfg.pin = pin then x.view view else view) []

/-- What the strip on the pin of a serializer's latest INIT shows (R314). -/
def Serializer.view (x : Serializer) : StripView :=
  match x.sections.getLast? with
  | some e => stripOn e.cfg.pin x.sections
  | none => []

end Sys2Proof.Machine
end

