-- ==== Sys2Proof/Safety.lean ====
section
/-! DEFINITION. The terms the claims use: what an instruction leaves unchanged, the invariants a step keeps, what a running
chain is, how much of a frame is still to be sent, and fair runs. -/

namespace Sys2Proof.Machine

/-! ### Frames -/

/-- Every register of the PWM, clock and DMA windows, both FIFOs and both output streams are as before. -/
structure KeepsHardware (s t : State) : Prop where
  ser : ∀ c, t.ser c = s.ser c
  dmac : t.dmac = s.dmac
  clk : t.clk = s.clk
  dma : t.dma = s.dma

/-- The launch's parameters, ARGQ, the WAIT marker and the pending host accesses and scheduler choices are as before. -/
structure KeepsPort (s t : State) : Prop where
  config : t.config = s.config
  hwHealthy : t.hwHealthy = s.hwHealthy
  argq : t.argq = s.argq
  waiting : t.waiting = s.waiting
  hostq : t.env.hostq = s.env.hostq
  rdata : t.env.rdata = s.env.rdata
  plan : t.env.plan = s.env.plan

/-- Every byte of memory reads as before. -/
def KeepsMemory (s t : State) : Prop := ∀ a, Memory.read t.mem a = Memory.read s.mem a

/-- The device (its channels, buffers and region) and OWNED are as before. -/
structure KeepsDevice (s t : State) : Prop where
  life : t.life = s.life
  owned : t.owned = s.owned

/-- Channel c's buffer is `pix`; everything else the device holds is as before (40_controller_commands.md R174). -/
structure OnlyPix (d e : Device) (c : Chan) (pix : List Word) : Prop where
  this : e.chan c = (d.chan c).map (fun k => { k with pix := pix })
  other : ∀ c', c' ≠ c → e.chan c' = d.chan c'
  slot : e.slot = d.slot
  rsize : e.rsize = d.rsize
  rbase : e.rbase = d.rbase

/-- The sequencer stopped with an error of the given cause and everything else of its window is as in `x`
(42_dma_sequencer.md R282). -/
def Dma.stoppedWith (x : Dma) (cause : BitVec 3) : Dma :=
  { x with error := true, errcause := cause, active := false, dphase := .idle }

/-! ### Device invariant (10_state.md R26 to R30, 20_memory.md R86 to R90) -/

/-- A configured channel: a positive pixel count, a supported frequency, a buffer of exactly that many words, and WORDS as
the encoder gives it (10_state.md R28, R29, 41_bitstream_encoder.md R229). -/
def Channel.wf (k : Channel) : Prop :=
  0 < k.cfg.count ∧ supportedFreqs.contains k.cfg.freq = true ∧ k.pix.length = k.cfg.count ∧ k.words = frameWords k.cfg

/-- The largest WORDS of the device. -/
def Device.maxWords (d : Device) : Nat :=
  match d.ch1 with
  | some k => max d.ch0.words k.words
  | none => d.ch0.words

/-- A device INIT can have committed: its channels, SLOT, RSIZE and a base that meets 20_memory.md R88. -/
structure Device.wf (p : Config) (d : Device) : Prop where
  ch0 : d.ch0.wf
  ch1 : ∀ k, d.ch1 = some k → k.wf ∧ k.cfg.freq = d.ch0.cfg.freq ∧ k.cfg.pin ≠ d.ch0.cfg.pin
  slot : d.slot = d.maxWords
  rsize : d.rsize = 0x80 + d.nch * d.slot * 4
  base : baseOk p d.rsize d.rbase = true

/-- What holds of LIFE, OWNED and the region in every state: while Active the device is well formed and owns the
peripheral, and only region bytes are listed; else there is no region, nothing is owned, nothing runs and the sequencer
is in its reset state (70_reset_and_hazards.md R384, 42_dma_sequencer.md R286). -/
def DeviceInv (s : State) : Prop :=
  Memory.wf s.mem ∧
    match s.life with
    | .active d =>
      s.owned = true ∧ d.wf s.config ∧
        ∀ c ∈ s.mem, d.rbase.toNat ≤ c.1 ∧ c.1 < d.rbase.toNat + d.rsize
    | _ =>
      s.owned = false ∧ s.mem = [] ∧ s.waiting = false ∧ s.dma = Dma.cleared ∧ s.dmac = false ∧ s.clk.enab = false ∧
        ∀ c, (s.ser c).fifo = [] ∧ (s.ser c).pwen = false

/-! ### Hardware invariants -/

/-- No FIFO holds more than FIFO_DEPTH words (10_state.md R43). -/
def FifoInv (s : State) : Prop := ∀ c, (s.ser c).fifo.length ≤ s.config.fifoDepth

/-- What holds of the DMA window in every state (10_state.md R38, R41, R42; 42_dma_sequencer.md R275 to R283;
60_exceptions.md R359): a phase exactly while ACTIVE; ERROR only while not ACTIVE, with a cause 1 to 4 exactly while
ERROR; STALLED only while ACTIVE on an unhealthy launch; in Xfer the loaded block was valid and its counters stay word
aligned. -/
structure DmaInv (s : State) : Prop where
  phase : s.dma.active = true ↔ s.dma.dphase ≠ .idle
  error : s.dma.error = true → s.dma.active = false
  cause : s.dma.error = true ↔ s.dma.errcause ≠ 0
  causeRange : s.dma.errcause.toNat ≤ 4
  stalled : s.dma.stalled = true → s.dma.active = true ∧ s.hwHealthy = false
  loaded : s.dma.dphase = .xfer →
    s.dma.ti &&& tiReserved = 0 ∧ tiOk s.info = true ∧ s.dma.stride = 0 ∧ s.dma.txfrLen.toNat % 4 = 0 ∧
      s.dma.sourceAd.toNat % 4 = 0 ∧ s.dma.destAd.toNat % 4 = 0

/-- No two Gaps stand in a row. -/
def noDoubleGap : List WireEvent → Prop
  | .gap :: .gap :: _ => False
  | _ :: es => noDoubleGap es
  | [] => True

/-- LASTGAP says whether the last event is a Gap, and no stream holds two Gaps in a row (10_state.md R44,
43_pwm_serializer.md R306). -/
def WireInv (s : State) : Prop :=
  ∀ c, ((s.ser c).lastGap = true ↔ (s.ser c).wire.getLast? = some .gap) ∧ noDoubleGap (s.ser c).wire

/-- A stream's marks: in order, inside the stream, the first at its start; a serializer no INIT has configured has sent nothing
and is disabled (43_pwm_serializer.md R308; log entry 17). -/
structure Serializer.Marked (x : Serializer) : Prop where
  ordered : x.marks.Pairwise (fun m n => m.start ≤ n.start)
  inside : ∀ m ∈ x.marks, m.start ≤ x.wire.length
  first : ∀ m, x.marks.head? = some m → m.start = 0
  unmarked : x.marks = [] → x.wire = [] ∧ x.pwen = false

/-- Every stream is marked INIT by INIT, and while Active a configured channel's latest mark carries its configuration and
POLA is its invert (43_pwm_serializer.md R307, R308). -/
def MarkInv (s : State) : Prop :=
  ∀ c, (s.ser c).Marked ∧
    ∀ d k, s.life = .active d → d.chan c = some k →
      (s.ser c).pola = k.cfg.invert ∧ ∃ m, (s.ser c).marks.getLast? = some m ∧ m.cfg = k.cfg

/-! ### A running chain (42_dma_sequencer.md section 4) -/

/-- n consecutive words of memory. -/
def wordsAt (m : Memory) (a n : Nat) : List Word := (List.range n).map (fun k => Memory.readWord m (a + 4 * k))

/-- The six words a LOAD reads at address a are those of block b. -/
def blockAt (m : Memory) (a : Nat) (b : ControlBlock) : Prop := wordsAt m a 6 = b.words.take 6

/-- The block after channel c's data block. -/
def Device.afterData (d : Device) : Chan → Nat
  | .c0 => d.afterCb0
  | .c1 => d.cbtAddr

/-- The region holds the chain ARM builds, with the word ZERO equal to 0 (42_dma_sequencer.md R262 to R266, R270). -/
structure Armed (p : Config) (d : Device) (m : Memory) : Prop where
  data : ∀ c k, d.chan c = some k → blockAt m (d.cbAddr c) (d.dataBlock p c k (d.afterData c))
  flag : blockAt m d.cbtAddr d.flagBlock
  zero : Memory.readWord m d.zeroAddr = 0

/-- The sequencer is about to load one of the chain's blocks. -/
def AtLoad (d : Device) (x : Dma) : Prop :=
  x.dphase = .load ∧
    ((∃ c k, d.chan c = some k ∧ x.conblkAd = addrWord (d.cbAddr c)) ∨ x.conblkAd = addrWord d.cbtAddr)

/-- The sequencer is in channel c's data block with n words still to move. -/
def InData (p : Config) (d : Device) (x : Dma) (c : Chan) (k : Channel) (n : Nat) : Prop :=
  x.dphase = .xfer ∧ d.chan c = some k ∧ n ≤ k.words ∧ x.conblkAd = addrWord (d.cbAddr c) ∧
    x.ti = (d.dataBlock p c k (d.afterData c)).ti.toWord ∧ x.stride = 0 ∧ x.destAd = fifBus p c ∧
    x.nextConbk = addrWord (d.afterData c) ∧ x.txfrLen = BitVec.ofNat 32 (4 * n) ∧
    x.sourceAd = addrWord (d.slotAddr c + 4 * (k.words - n))

/-- The sequencer is in the terminal block with n words (1 or 0) still to move. -/
def InFlag (d : Device) (x : Dma) (n : Nat) : Prop :=
  x.dphase = .xfer ∧ n ≤ 1 ∧ x.conblkAd = addrWord d.cbtAddr ∧ x.ti = d.flagBlock.ti.toWord ∧ x.stride = 0 ∧
    x.nextConbk = 0 ∧ x.txfrLen = BitVec.ofNat 32 (4 * n) ∧
    (n = 1 → x.sourceAd = addrWord d.zeroAddr ∧ x.destAd = addrWord d.cflagAddr)

/-- What holds in every state a launch reaches (42_dma_sequencer.md R268, R270, R286, R287): no error; while Active, every
configured serializer runs and data requests are enabled, and either the sequencer is idle with CFLAG = 0 or it is
somewhere on the armed chain, with CFLAG = 0 once the terminal block has moved its word; else the sequencer is idle. -/
def ChainInv (s : State) : Prop :=
  s.dma.error = false ∧
    match s.life with
    | .active d =>
      d.wf s.config ∧ s.clockRuns = true ∧ s.dmac = true ∧ (∀ c k, d.chan c = some k → (s.ser c).pwen = true) ∧
        if s.dma.active then
          Armed s.config d s.mem ∧
            (AtLoad d s.dma ∨ (∃ c k n, InData s.config d s.dma c k n) ∨
              ∃ n, InFlag d s.dma n ∧ (n = 0 → s.cflag d = 0))
        else s.dma.dphase = .idle ∧ s.cflag d = 0
    | _ => s.dma.active = false

/-! ### What is still to be sent -/

/-- The words of channel c's frame the sequencer has not pushed yet (42_dma_sequencer.md R288): all of its slot before its
block is loaded, the rest of its block while that runs, none after. -/
def State.unsent (s : State) (d : Device) (c : Chan) : List Word :=
  match d.chan c with
  | none => []
  | some k =>
    if s.dma.active then
      match s.dma.dphase with
      | .load => if s.dma.conblkAd.toNat ≤ d.cbAddr c then wordsAt s.mem (d.slotAddr c) k.words else []
      | .xfer =>
        if s.dma.conblkAd.toNat = d.cbAddr c then wordsAt s.mem s.dma.sourceAd.toNat (s.dma.txfrLen.toNat / 4)
        else if s.dma.conblkAd.toNat < d.cbAddr c then wordsAt s.mem (d.slotAddr c) k.words
        else []
      | .idle => []
    else []

/-- The levels of an output stream, Gaps left out. -/
def levelsOf (evs : List WireEvent) : List Bool :=
  evs.filterMap (fun e =>
    match e with
    | .lvl b => some b
    | .gap => none)

/-- Everything channel c has sent or is to send: its stream's levels, then its FIFO's words, then the words not yet
pushed. -/
def State.carried (s : State) (d : Device) (c : Chan) : List Bool :=
  levelsOf (s.ser c).wire ++
    levelsOf (((s.ser c).fifo ++ s.unsent d c).flatMap (fun w => wordLevels w (s.ser c).pola))

/-- The LOAD, XFER and NEXT steps left of the running chain (42_dma_sequencer.md R288). -/
def State.chainSteps (s : State) (d : Device) : Nat :=
  if s.dma.active then
    match s.dma.dphase with
    | .load =>
      if s.dma.conblkAd.toNat = d.cbtAddr then 3
      else
        (s.unsent d .c0).length + (s.unsent d .c1).length +
          (if s.dma.conblkAd.toNat = d.cbAddr .c0 then 2 * d.nch else 2) + 3
    | .xfer =>
      if s.dma.conblkAd.toNat = d.cbtAddr then s.dma.txfrLen.toNat / 4 + 1
      else
        (s.unsent d .c0).length + (s.unsent d .c1).length +
          (if s.dma.conblkAd.toNat = d.cbAddr .c0 then 2 * d.nch - 1 else 1) + 3
    | .idle => 0
  else 0

/-! ### Runs (70_reset_and_hazards.md R398) -/

/-- A run: each state's step answers the next state. -/
def IsRun (r : Nat → State) : Prop := ∀ n, step (r n) = .next (r (n + 1))

/-- A step that stays enabled is eventually taken: the turn that takes it comes. -/
def EventuallyTaken (r : Nat → State) (enabled : State → Bool) (t : Turn) : Prop :=
  ∀ n, (∀ m, n ≤ m → enabled (r m) = true) → ∃ m, n ≤ m ∧ (r m).turn = t

/-- Weak fairness to LOAD, XFER, NEXT, SHIFT and GAP; none to STALL or to the host. -/
structure WeaklyFair (r : Nat → State) : Prop where
  load : EventuallyTaken r State.loadEnabled .dma
  xfer : EventuallyTaken r State.xferEnabled .dma
  next : EventuallyTaken r State.nextEnabled .dma
  shift : ∀ c, EventuallyTaken r (fun s => s.shiftEnabled c) (.ser c)
  gap : ∀ c, EventuallyTaken r (fun s => s.gapEnabled c) (.ser c)

/-- A WAIT has held in every state of the run up to the m-th. -/
def HeldUpTo (r : Nat → State) (m : Nat) : Prop := ∀ j, j ≤ m → (r j).waiting = true

/-! ### The rules' own conditions, in numbers -/

/-- 30_encoding.md R114: the CMD words that are refused. -/
def ReservedWord (w : Word) : Prop :=
  w.toNat % 16 = 0 ∨ 9 ≤ w.toNat % 16 ∨ w.toNat / 32 ≠ 0 ∨
    (w.toNat / 16 % 2 = 1 ∧ w.toNat % 16 ≠ 4 ∧ w.toNat % 16 ≠ 5 ∧ w.toNat % 16 ≠ 6)

/-- 30_encoding.md R115: an argument list of n words has the shape the opcode of w requires. -/
def ShapeOk (w : Word) (n : Nat) : Prop :=
  (w.toNat % 16 = 1 ∧ n % 6 = 0) ∨ (w.toNat % 16 = 2 ∧ n = 3) ∨ (w.toNat % 16 = 3 ∧ n = 0) ∨
    (w.toNat % 16 = 4 ∧ n = 2) ∨ w.toNat % 16 = 5 ∨ (w.toNat % 16 = 6 ∧ n = 0) ∨ (w.toNat % 16 = 7 ∧ n = 0) ∨
      (w.toNat % 16 = 8 ∧ n = 0)

/-- The host is about to write w to CMD and no WAIT holds. -/
def AboutToIssue (s : State) (w : Word) : Prop :=
  s.turn = .host ∧ s.waiting = false ∧ ∃ b rest, s.env.hostq = ⟨.write 0x00#32 w, b⟩ :: rest

/-- The state a command issued from s runs in: the turn and the access used up, ARGQ emptied (10_state.md R23). -/
def State.issued (s : State) : State := s.dropTurn.dropHost.setArgq []

/-- `PIN_ROUTE(c)` (00_scope.md section 4). -/
def routeOf (p : Config) : Chan → List Nat
  | .c0 => p.pinRoute0
  | .c1 => p.pinRoute1

/-- A record INIT accepts for channel c (40_controller_commands.md R156, R158). -/
def ValidRecord (p : Config) (c : Chan) (r : ConfigRecord) : Prop :=
  r.count.toNat ≠ 0 ∧ r.bright.toNat ≤ 255 ∧ r.invw.toNat ≤ 1 ∧ r.stype.toNat ≤ 11 ∧
    (r.freq.toNat = 400000 ∨ r.freq.toNat = 800000) ∧
    ∃ g ∈ routeOf p c, r.pin.toInt = (g : Int)

/-- The divisor of a record's frequency is in range (40_controller_commands.md R161). -/
def ValidDivisor (p : Config) (r : ConfigRecord) : Prop :=
  2 ≤ (p.fSrc + 3 * r.freq.toNat / 2) / (3 * r.freq.toNat) ∧
    (p.fSrc + 3 * r.freq.toNat / 2) / (3 * r.freq.toNat) ≤ 4095

/-- The configurations INIT accepts (40_controller_commands.md R155, R156, R158 to R161). -/
def ValidConfig (p : Config) : List ConfigRecord → Prop
  | [r0] => ValidRecord p .c0 r0 ∧ ValidDivisor p r0
  | [r0, r1] =>
    ValidRecord p .c0 r0 ∧ ValidRecord p .c1 r1 ∧ r0.pin ≠ r1.pin ∧ r0.freq = r1.freq ∧ ValidDivisor p r0
  | _ => False

/-- No record's pin is in PCM_PINS (40_controller_commands.md R157). -/
def NoPcmPin (p : Config) (rs : List ConfigRecord) : Prop :=
  ∀ r ∈ rs, ∀ g ∈ p.pcmPins, r.pin.toInt ≠ (g : Int)

/-- A record's frame length in words, in numbers (41_bitstream_encoder.md R227, R229): strip codes 0 to 5 have three
components, 6 to 11 four; 165 f / 1000000 reset slots, rounded up. -/
def recordWords (r : ConfigRecord) : Nat :=
  (r.count.toNat * (if r.stype.toNat ≤ 5 then 3 else 4) * 24 + (165 * r.freq.toNat + 999999) / 1000000 + 31) / 32

/-- SLOT of a configuration: the largest frame (20_memory.md R87). -/
def configSlot : List ConfigRecord → Nat
  | [] => 0
  | r :: rs => max (recordWords r) (configSlot rs)

/-- RSIZE of a configuration (20_memory.md R87). -/
def configRsize (rs : List ConfigRecord) : Nat := 0x80 + rs.length * configSlot rs * 4

/-- The region base meets 20_memory.md R88. -/
def BaseConstraint (p : Config) (rsize : Nat) (base : Word) : Prop :=
  base.toNat % 32 = 0 ∧ base.toNat ≠ 0 ∧ base.toNat + rsize ≤ 2 ^ 32 ∧
    ¬(base.toNat ≤ p.fif0Bus.toNat ∧ p.fif0Bus.toNat < base.toNat + rsize) ∧
    ¬(base.toNat ≤ p.fif1Bus.toNat ∧ p.fif1Bus.toNat < base.toNat + rsize)

/-- A channel INIT committed from a record: the record's values, every pixel 0, the frame length (R117, R168). -/
structure FromRecord (r : ConfigRecord) (k : Channel) : Prop where
  pin : k.cfg.pin = r.pin.toInt
  count : k.cfg.count = r.count.toNat
  bright : k.cfg.bright.toNat = r.bright.toNat
  invert : k.cfg.invert = true ↔ r.invw.toNat = 1
  stype : stripTypeOf r.stype.toNat = some k.cfg.stype
  freq : k.cfg.freq = r.freq.toNat
  pix : k.pix = List.replicate r.count.toNat 0
  words : k.words = recordWords r

/-- Serializer c runs, in numbers (43_pwm_serializer.md R300, R301). -/
def Running (s : State) (c : Chan) : Prop := s.clk.enab = true ∧ 2 ≤ s.clk.divi.toNat ∧ (s.ser c).pwen = true

/-- The transport can never reach completion, in the words of 40_controller_commands.md R183. -/
inductive StuckTransport (s : State) (d : Device) : Prop where
  /-- (a): ACTIVE = 1 and STALLED. -/
  | stalled (active : s.dma.active = true) (stalled : s.dma.stalled = true)
  /-- (a): ACTIVE = 1, in Xfer with words to move, paced by a data request that is false, and DMAC.ENAB = 0 or the
  serializer does not run. -/
  | starved (c : Chan) (active : s.dma.active = true) (phase : s.dma.dphase = .xfer) (length : 0 < s.dma.txfrLen.toNat)
      (paced : s.dma.ti.getLsbD 6 = true) (line : s.dma.ti.toNat / 65536 % 32 = c.toNat + 1)
      (request : s.dmac = false ∨ s.config.fifoDepth ≤ (s.ser c).fifo.length) (idle : s.dmac = false ∨ ¬Running s c)
  /-- (b): ACTIVE = 0, ERROR = 0 and CFLAG ≠ 0. -/
  | flagged (active : s.dma.active = false) (error : s.dma.error = false) (flag : s.cflag d ≠ 0)
  /-- (c): complete holds and the FIFO of a configured channel that does not run holds words. -/
  | stranded (c : Chan) (k : Channel) (flag : s.cflag d = 0) (active : s.dma.active = false) (chan : d.chan c = some k)
      (fifo : (s.ser c).fifo ≠ []) (idle : ¬Running s c)

/-- A control block's six words are valid, in numbers (30_encoding.md R122). -/
def ValidBlockWords (ti src dst len stride : Word) : Prop :=
  ti &&& 0xFFE0FEAE#32 = 0 ∧ ti.toNat / 65536 % 32 ≤ 2 ∧ ¬(ti.getLsbD 6 = true ∧ ti.toNat / 65536 % 32 = 0) ∧
    len.toNat ≠ 0 ∧ len.toNat % 4 = 0 ∧ stride.toNat = 0 ∧ src.toNat % 4 = 0 ∧ dst.toNat % 4 = 0

end Sys2Proof.Machine
end

