-- ==== Sys2Proof/Certificates/Slice0/Obligations.lean ====
section
/-! DEFINITION. The statements about the model, each from the numbered rules of spec/. -/

open Sys2Proof Sys2Proof.Machine

/-! ### Encoding -/

/-- Decoding an instruction's words gives the instruction back, for every instruction and every operand value
(30_encoding.md R111 to R118, R120, R121, R124, R126). -/
def Obligations.DecodeOfEncodeIsIdentity : Prop :=
  ∀ i : Instr, decode i.cls (encode i) = .ok i

/-- A word list decodes to at most the command it encodes, and a control block is decoded from its first six words alone:
no bit a LOAD reads is dropped (30_encoding.md R111, R115, R120, R121). -/
def Obligations.DecodedWordsAreTheEncoding : Prop :=
  (∀ ws i, decode .command ws = .ok i → encode i = ws) ∧
    ∀ ws i, decode .block ws = .ok i → i.cls = .block ∧ (encode i).take 6 = ws.take 6

/-- A CMD write of a word whose OPC is 0x0 or 0x9 to 0xF, whose RSVD is not 0, or whose CH is 1 on a command without a
channel is refused with reason ReservedEncoding, and no other CMD write is (30_encoding.md R114). -/
def Obligations.ReservedCommandWordsAreRefused : Prop :=
  ∀ s w, AboutToIssue s w → (step s = .refused .reservedEncoding ↔ ReservedWord w)

/-- A CMD write that is not of a reserved word is refused with reason ArgumentShape exactly when the argument list ARGQ holds
does not have the shape its opcode requires (30_encoding.md R115). -/
def Obligations.WrongArgumentShapesAreRefused : Prop :=
  ∀ s w, AboutToIssue s w → (step s = .refused .argumentShape ↔ ¬ReservedWord w ∧ ¬ShapeOk w s.argq.length)

/-- Words written out from the encoding tables decode to the instructions they stand for: every opcode of 30_encoding.md
R124, SETPIXEL, SETBITMAP and CLEAR with CH clear and set, and the three TI words of R126. -/
def Obligations.WrittenOutWordsDecode : Prop :=
  decode .command [0x1, 18, 16, 255, 0, 2, 800000] = .ok (.init [⟨18, 16, 255, 0, 2, 800000⟩]) ∧
    decode .command [0x2, 18, 16, 255] = .ok (.init1 18 16 255) ∧
    decode .command [0x3] = .ok .fini ∧
    decode .command [0x4, 5, 0x80000001] = .ok (.setpixel .c0 5 0x80000001) ∧
    decode .command [0x14, 5, 0x80000001] = .ok (.setpixel .c1 5 0x80000001) ∧
    decode .command [0x5, 1, 2, 3] = .ok (.setbitmap .c0 [1, 2, 3]) ∧
    decode .command [0x15, 1, 2, 3] = .ok (.setbitmap .c1 [1, 2, 3]) ∧
    decode .command [0x6] = .ok (.clear .c0) ∧
    decode .command [0x16] = .ok (.clear .c1) ∧
    decode .command [0x7] = .ok .render ∧
    decode .command [0x8] = .ok .wait ∧
    decode .block [0x00010140, 0x10000080, 0xF0000000, 164, 0, 0x10000040, 0, 0] =
      .ok (.cb ⟨⟨false, false, true, true, 1⟩, 0x10000080, 0xF0000000, 164, 0, 0x10000040⟩) ∧
    decode .block [0x00020140, 0x100000B8, 0xF0000004, 44, 0, 0x10000040, 0, 0] =
      .ok (.cb ⟨⟨false, false, true, true, 2⟩, 0x100000B8, 0xF0000004, 44, 0, 0x10000040⟩) ∧
    decode .block [0x00000111, 0x10000060, 0x10000064, 4, 0, 0] =
      .ok (.cb ⟨⟨true, true, false, true, 0⟩, 0x10000060, 0x10000064, 4, 0, 0⟩)

/-! ### The step -/

/-- When the host's turn finds a CMD write pending and no WAIT holding, and the word with ARGQ as its arguments decodes to an
instruction, the step is that instruction's meaning in the state with the turn and the access used up and ARGQ emptied
(40_controller_commands.md R150; 10_state.md R22, R23). While a WAIT holds and the next access is not a second thread's, the
host's turn runs WAIT again: the model's choice, log entry 7 (DEDUCED from R182's "the host holds here"). -/
def Obligations.StepRunsTheIssuedCommand : Prop :=
  (∀ s w i, AboutToIssue s w → decode .command (w :: s.argq) = .ok i → step s = exec i s.issued) ∧
    ∀ s, s.turn = .host → s.waiting = true →
      (∀ e rest, s.env.hostq = e :: rest → e.secondThread = false) → step s = exec .wait s.dropTurn

/-- When the sequencer's turn finds LOAD enabled and the six words at CONBLK_AD in the region, and they decode to a control
block, the step is that block's meaning in the state with the turn used up (42_dma_sequencer.md R275, R277). That a block's
meaning is its LOAD, one step, with XFER and NEXT as later steps, is the model's choice, log entry 14 (DEDUCED). -/
def Obligations.StepRunsTheLoadedBlock : Prop :=
  ∀ s i, s.turn = .dma → s.dma.active = true → s.dma.dphase = .load → s.dma.stalled = false →
    s.dma.conblkAd.toNat % 32 = 0 → (∀ k < 6, s.readable (s.dma.conblkAd.toNat + 4 * k) = true) →
      decode .block (wordsAt s.mem s.dma.conblkAd.toNat 6) = .ok i → step s = exec i s.dropTurn

/-- A CMD write while a WAIT holds, which only a second thread can make, is refused with reason ConcurrentCommand
(40_controller_commands.md R185, 60_exceptions.md R351). -/
def Obligations.CommandDuringWaitIsRefused : Prop :=
  ∀ s w rest, s.turn = .host → s.waiting = true → s.env.hostq = ⟨.write 0x00#32 w, true⟩ :: rest →
    step s = .refused .concurrentCommand

/-- A host write to ARGQ appends the value; a host read returns RESULT, STATUS or 0 and changes nothing of the block
(10_state.md R22 to R25, R48). -/
def Obligations.HostPortAccesses : Prop :=
  ∀ s e rest, s.turn = .host → s.env.hostq = e :: rest → (s.waiting = false ∨ e.secondThread = true) →
    (∀ v, e.access = .write 0x04#32 v → step s = .next { s.dropTurn.dropHost with argq := s.argq ++ [v] }) ∧
      (∀ offset v, e.access = .write offset v → offset ≠ 0x00#32 → offset ≠ 0x04#32 →
        step s = .next s.dropTurn.dropHost) ∧
      ∀ offset, e.access = .read offset →
        ∃ t, step s = .next t ∧ KeepsHardware s t ∧ KeepsMemory s t ∧ KeepsDevice s t ∧ t.argq = s.argq ∧
          t.result = s.result ∧ t.waiting = s.waiting ∧
          (offset = 0x08#32 → t.env.rdata = s.resultWord) ∧ (offset = 0x0C#32 → t.env.rdata = s.statusWord) ∧
          (offset ≠ 0x08#32 → offset ≠ 0x0C#32 → t.env.rdata = 0)

/-! ### Host commands -/

/-- SETPIXEL, SETBITMAP, CLEAR, RENDER and WAIT fault NotInitialized while LIFE is not Active, and that is the only fault any
instruction raises (40_controller_commands.md R151, 60_exceptions.md R350). -/
def Obligations.DataCommandsFaultOutsideActive : Prop :=
  (∀ s, (∀ d, s.life ≠ .active d) →
      (∀ ch index color, exec (.setpixel ch index color) s = .fault .notInitialized) ∧
        (∀ ch colors, exec (.setbitmap ch colors) s = .fault .notInitialized) ∧
        (∀ ch, exec (.clear ch) s = .fault .notInitialized) ∧
        exec .render s = .fault .notInitialized ∧ exec .wait s = .fault .notInitialized) ∧
    ∀ i s r, exec i s = .fault r →
      (∀ d, s.life ≠ .active d) ∧
        match i with
        | .setpixel _ _ _ => True
        | .setbitmap _ _ => True
        | .clear _ => True
        | .render => True
        | .wait => True
        | _ => False

/-- Which result codes each command that completes can report, and the only refusal a meaning raises: PcmPin, by INIT and
INIT1 (60_exceptions.md R347). -/
def Obligations.CommandOutcomeMap : Prop :=
  (∀ s t rs, exec (.init rs) s = .next t →
      t.result.code ∈ [.ok, .configError, .hardwareBusyError, .resourceError]) ∧
    (∀ s t pin count bright, exec (.init1 pin count bright) s = .next t →
      t.result.code ∈ [.ok, .configError, .hardwareBusyError, .resourceError]) ∧
    (∀ s t, exec .fini s = .next t → t.result.code = .ok) ∧
    (∀ s t ch index color, exec (.setpixel ch index color) s = .next t → t.result.code ∈ [.ok, .indexError]) ∧
    (∀ s t ch colors, exec (.setbitmap ch colors) s = .next t →
      t.result.code ∈ [.ok, .indexError, .lengthMismatchError]) ∧
    (∀ s t ch, exec (.clear ch) s = .next t → t.result.code ∈ [.ok, .indexError, .transmissionError]) ∧
    (∀ s t, exec .render s = .next t → t.result.code ∈ [.ok, .transmissionError]) ∧
    (∀ s t, exec .wait s = .next t → t.waiting = false → t.result.code ∈ [.ok, .timeoutError]) ∧
    ∀ i s r, exec i s = .refused r →
      r = .pcmPin ∧
        match i with
        | .init _ => True
        | .init1 _ _ _ => True
        | _ => False

/-- A host command that reports an error has changed no state but RESULT (and, for a WAIT, its own hold; for an INIT, the draws
it used up); CLEAR alone may have zeroed its buffer (60_exceptions.md R356, 40_controller_commands.md R152, R167, R178). -/
def Obligations.ErrorsArePrecise : Prop :=
  ∀ i s t, i.cls = .command → exec i s = .next t → t.result.code ≠ .ok →
    KeepsHardware s t ∧ KeepsMemory s t ∧ t.config = s.config ∧ t.hwHealthy = s.hwHealthy ∧ t.argq = s.argq ∧
      t.env.hostq = s.env.hostq ∧ t.env.rdata = s.env.rdata ∧ t.env.plan = s.env.plan ∧ t.owned = s.owned ∧
      (t.life = s.life ∨
        ∃ ch d e k, i = .clear ch ∧ s.life = .active d ∧ t.life = .active e ∧ d.chan ch = some k ∧
          OnlyPix d e ch (List.replicate k.cfg.count 0))

/-- INIT with a PCM-only pin in any record is refused with reason PcmPin, whatever else is wrong with it
(40_controller_commands.md R157, R154). -/
def Obligations.InitWithPcmPinIsRefused : Prop :=
  ∀ (s : State) (rs : List ConfigRecord) (r : ConfigRecord) (g : Nat),
    r ∈ rs → g ∈ s.config.pcmPins → r.pin.toInt = (g : Int) → exec (.init rs) s = .refused .pcmPin

/-- INIT reports ConfigError, with ORIGIN 0 and nothing else changed, exactly for the record lists that fail a configuration
check: n not 1 or 2, a count of 0, brightness above 255, invert not 0 or 1, a strip type above 11, an unsupported frequency, a
pin not in PIN_ROUTE(j), a shared pin, two frequencies, or a divisor out of range; and it does so whatever OWNED is
(40_controller_commands.md R154 to R156, R158 to R161). -/
def Obligations.InitReportsConfigError : Prop :=
  ∀ s rs, NoPcmPin s.config rs →
    (¬ValidConfig s.config rs → exec (.init rs) s = .next { s with result := ⟨.configError, 0⟩ }) ∧
      ∀ t, ValidConfig s.config rs → exec (.init rs) s = .next t → t.result.code ≠ .configError

/-- INIT of a valid configuration reports HardwareBusyError when the peripheral is owned, by this instance (ORIGIN 0, nothing
drawn) or by another process (ORIGIN the environment's code); the device is as before (40_controller_commands.md R163, R164;
60_exceptions.md R346). -/
def Obligations.InitReportsHardwareBusy : Prop :=
  ∀ s rs, NoPcmPin s.config rs → ValidConfig s.config rs →
    (s.owned = true → exec (.init rs) s = .next { s with result := ⟨.hardwareBusyError, 0⟩ }) ∧
      (s.owned = false → s.initDraw.otherOwner = true →
        exec (.init rs) s = .next { s.dropDraw with result := ⟨.hardwareBusyError, s.initDraw.originCode⟩ })

/-- INIT of a valid configuration with a free peripheral reports ResourceError when RSIZE exceeds MAX_REGION_BYTES (ORIGIN 0) or
the allocation fails (ORIGIN the environment's code), and changes nothing else (40_controller_commands.md R165, R167;
60_exceptions.md R346). When both hold, ORIGIN is the environment's code, any value, in the model (log entry 8). -/
def Obligations.InitReportsResourceError : Prop :=
  ∀ s rs, NoPcmPin s.config rs → ValidConfig s.config rs → s.owned = false → s.initDraw.otherOwner = false →
    (s.config.maxRegionBytes < configRsize rs → s.initDraw.allocFails = false →
        exec (.init rs) s = .next { s.dropDraw with result := ⟨.resourceError, 0⟩ }) ∧
      (s.initDraw.allocFails = true →
        exec (.init rs) s = .next { s.dropDraw with result := ⟨.resourceError, s.initDraw.originCode⟩ })

/-- INIT succeeds on a valid configuration with a free peripheral and an allocation that fits and does not fail: it commits the
device state at the drawn base, zero-fills the region, and leaves the clock, the serializers and the sequencer as the rules
say; LASTGAP and the output streams keep their values (40_controller_commands.md R153, R168, R169; 70_reset_and_hazards.md
R383). It marks the stream of each configured channel with the channel's configuration, and no other's: the model's own
record, log entry 17 (DESIGN CHOICE). -/
def Obligations.InitCommitsTheDevice : Prop :=
  ∀ s rs, NoPcmPin s.config rs → ValidConfig s.config rs → s.owned = false → s.initDraw.otherOwner = false →
    s.initDraw.allocFails = false → configRsize rs ≤ s.config.maxRegionBytes →
    BaseConstraint s.config (configRsize rs) s.initDraw.rbase →
      ∃ t e, exec (.init rs) s = .next t ∧ t.life = .active e ∧ t.owned = true ∧ t.result = ⟨.ok, 0⟩ ∧
        e.nch = rs.length ∧ e.slot = configSlot rs ∧ e.rsize = configRsize rs ∧ e.rbase = s.initDraw.rbase ∧
        (∀ c r, rs[c.toNat]? = some r → ∃ k, e.chan c = some k ∧ FromRecord r k) ∧
        (∀ c, rs[c.toNat]? = none → e.chan c = none) ∧
        (∀ a, Memory.read t.mem a = 0) ∧
        t.clk.enab = true ∧
        (∀ r, rs[0]? = some r →
          t.clk.divi.toNat = (s.config.fSrc + 3 * r.freq.toNat / 2) / (3 * r.freq.toNat)) ∧
        t.dmac = true ∧ t.dma = Dma.powerOn ∧
        (∀ c, (t.ser c).fifo = [] ∧ (t.ser c).werr = false ∧ (t.ser c).gapo = false ∧
          (t.ser c).lastGap = (s.ser c).lastGap ∧ (t.ser c).wire = (s.ser c).wire) ∧
        (∀ c r, rs[c.toNat]? = some r → (t.ser c).pwen = true ∧ ((t.ser c).pola = true ↔ r.invw.toNat = 1)) ∧
        (∀ c, rs[c.toNat]? = none → (t.ser c).pwen = false ∧ (t.ser c).pola = false) ∧
        (∀ c k, e.chan c = some k → (t.ser c).marks = (s.ser c).marks ++ [⟨k.cfg, (s.ser c).wire.length⟩]) ∧
        (∀ c, e.chan c = none → (t.ser c).marks = (s.ser c).marks) ∧
        t.argq = s.argq ∧ t.waiting = s.waiting ∧ t.config = s.config ∧ t.hwHealthy = s.hwHealthy

/-- INIT1 is INIT of the one record with invert 0, strip type RGB and frequency 800000, in every state; where that
configuration is valid, the peripheral free and the allocation succeeds, it leaves one channel of that configuration with
every pixel 0 (40_controller_commands.md R170). -/
def Obligations.InitOneUsesTheDefaults : Prop :=
  ∀ s pin count bright,
    exec (.init1 pin count bright) s = exec (.init [⟨pin, count, bright, 0, 0, 800000⟩]) s ∧
      (NoPcmPin s.config [⟨pin, count, bright, 0, 0, 800000⟩] →
        ValidConfig s.config [⟨pin, count, bright, 0, 0, 800000⟩] → s.owned = false →
        s.initDraw.otherOwner = false → s.initDraw.allocFails = false →
        configRsize [⟨pin, count, bright, 0, 0, 800000⟩] ≤ s.config.maxRegionBytes →
        BaseConstraint s.config (configRsize [⟨pin, count, bright, 0, 0, 800000⟩]) s.initDraw.rbase →
          ∃ t e, exec (.init1 pin count bright) s = .next t ∧ t.life = .active e ∧ t.result = ⟨.ok, 0⟩ ∧ e.nch = 1 ∧
            e.ch0.cfg.pin = pin.toInt ∧ e.ch0.cfg.count = count.toNat ∧ e.ch0.cfg.bright.toNat = bright.toNat ∧
            e.ch0.cfg.invert = false ∧ e.ch0.cfg.stype = .RGB ∧ e.ch0.cfg.freq = 800000 ∧
            e.ch0.pix = List.replicate count.toNat 0)

/-- FINI while Active resets the sequencer, disables both serializers and empties their FIFOs, stops data requests and the
clock, frees the region and the device, and reports Ok; WERR, GAPO, LASTGAP, the output streams and DIVI keep their values.
While not Active it writes RESULT with Ok and ORIGIN 0 and changes nothing else (40_controller_commands.md R171, R172;
70_reset_and_hazards.md R384; 42_dma_sequencer.md R285). -/
def Obligations.FiniReleasesTheDevice : Prop :=
  (∀ s d, s.life = .active d →
      ∃ t, exec .fini s = .next t ∧ t.life = .finalized ∧ t.owned = false ∧ t.result = ⟨.ok, 0⟩ ∧
        t.dma = Dma.powerOn ∧ t.dmac = false ∧ t.clk = { s.clk with enab := false } ∧
        (∀ c, t.ser c = { s.ser c with pwen := false, pola := false, fifo := [] }) ∧
        (∀ a, t.readable a = false) ∧ t.mem = [] ∧ KeepsPort s t) ∧
    ∀ s, (∀ d, s.life ≠ .active d) → exec .fini s = .next { s with result := ⟨.ok, 0⟩ }

/-- SETPIXEL of a configured channel and an index below its count stores all 32 bits of the colour in that pixel, reports Ok,
and changes nothing else, in flight or not (40_controller_commands.md R173, R174). -/
def Obligations.SetpixelWritesOnePixel : Prop :=
  ∀ s d ch index color k, s.life = .active d → d.chan ch = some k → index.toNat < k.cfg.count →
    ∃ t e, exec (.setpixel ch index color) s = .next t ∧ t.life = .active e ∧ t.result = ⟨.ok, 0⟩ ∧
      OnlyPix d e ch (k.pix.set index.toNat color) ∧ t.owned = s.owned ∧ KeepsHardware s t ∧ KeepsMemory s t ∧
      KeepsPort s t

/-- SETPIXEL, SETBITMAP and CLEAR of a channel that is not configured, and SETPIXEL of an index not below the count, report
IndexError and change nothing else; SETBITMAP of a wrong length on a configured channel reports LengthMismatchError and
changes nothing else (40_controller_commands.md R173, R175 to R177; 60_exceptions.md R348). -/
def Obligations.BufferCommandErrors : Prop :=
  ∀ s d ch, s.life = .active d →
    (d.chan ch = none →
        (∀ index color, exec (.setpixel ch index color) s = .next { s with result := ⟨.indexError, 0⟩ }) ∧
          (∀ colors, exec (.setbitmap ch colors) s = .next { s with result := ⟨.indexError, 0⟩ }) ∧
          exec (.clear ch) s = .next { s with result := ⟨.indexError, 0⟩ }) ∧
      ∀ k, d.chan ch = some k →
        (∀ index color, k.cfg.count ≤ index.toNat →
            exec (.setpixel ch index color) s = .next { s with result := ⟨.indexError, 0⟩ }) ∧
          ∀ colors, colors.length ≠ k.cfg.count →
            exec (.setbitmap ch colors) s = .next { s with result := ⟨.lengthMismatchError, 0⟩ }

/-- SETBITMAP of a configured channel with as many colours as its count replaces the buffer, reports Ok, and changes nothing
else (40_controller_commands.md R175, R174). -/
def Obligations.SetbitmapReplacesTheBuffer : Prop :=
  ∀ s d ch colors k, s.life = .active d → d.chan ch = some k → colors.length = k.cfg.count →
    ∃ t e, exec (.setbitmap ch colors) s = .next t ∧ t.life = .active e ∧ t.result = ⟨.ok, 0⟩ ∧
      OnlyPix d e ch colors ∧ t.owned = s.owned ∧ KeepsHardware s t ∧ KeepsMemory s t ∧ KeepsPort s t

/-- CLEAR of a configured channel zeroes its buffer and then does what RENDER does in the state with the buffer zeroed: the
buffer is zero whatever the render reports (40_controller_commands.md R177, R178). -/
def Obligations.ClearZeroesThenRenders : Prop :=
  ∀ s d ch k, s.life = .active d → d.chan ch = some k →
    ∃ t e, exec (.clear ch) s = .next t ∧ t.life = .active e ∧ OnlyPix d e ch (List.replicate k.cfg.count 0) ∧
      exec .render { s with life := .active e } = .next t ∧
      (s.complete d = true → t.result = ⟨.ok, 0⟩) ∧ (s.complete d = false → t.result = ⟨.transmissionError, 0⟩)

/-- RENDER while complete is true writes every channel's encoded frame into its slot, and then the chain: CB0 at RBASE and, with
two channels, CB1 at RBASE + 0x20, each with TI 0x00010140 or 0x00020140, the slot, the FIFO register, 4 * WORDS and the next
block's address; CBT at RBASE + 0x40 with TI 0x00000111; the word ZERO at RBASE + 0x60, 0; and CFLAG at RBASE + 0x64, 1. These
make the chain armed, and every other byte reads as before. It clears END and INT, points CONBLK_AD at the
base and starts the sequencer; the serializers, the clock, the device and the buffers keep their values
(40_controller_commands.md R179, R181; 42_dma_sequencer.md R261 to R267, R270, R276). -/
def Obligations.RenderArmsTheChain : Prop :=
  ∀ s d, Memory.wf s.mem → d.wf s.config → s.life = .active d → s.dma.error = false → s.complete d = true →
    ∃ t, exec .render s = .next t ∧ t.result = ⟨.ok, 0⟩ ∧ Armed s.config d t.mem ∧
      (∀ c k, d.chan c = some k →
        wordsAt t.mem (d.slotAddr c) d.slot = encodeFrame k.pix k.cfg ++ List.replicate (d.slot - k.words) 0) ∧
      wordsAt t.mem d.rbase.toNat 8 =
        [0x00010140, d.rbase + 0x80, s.config.fif0Bus, BitVec.ofNat 32 (4 * d.ch0.words), 0,
          d.rbase + (if d.ch1.isSome then 0x20 else 0x40), 0, 0] ∧
      (∀ k, d.ch1 = some k →
        wordsAt t.mem (d.rbase.toNat + 0x20) 8 =
          [0x00020140, d.rbase + 0x80 + BitVec.ofNat 32 (4 * d.slot), s.config.fif1Bus, BitVec.ofNat 32 (4 * k.words), 0,
            d.rbase + 0x40, 0, 0]) ∧
      wordsAt t.mem (d.rbase.toNat + 0x40) 8 = [0x00000111, d.rbase + 0x60, d.rbase + 0x64, 4, 0, 0, 0, 0] ∧
      wordsAt t.mem (d.rbase.toNat + 0x60) 2 = [0, 1] ∧ t.cflag d = 1 ∧
      (∀ a, (a < d.rbase.toNat ∨ d.rbase.toNat + d.rsize ≤ a ∨ (d.rbase.toNat + 0x68 ≤ a ∧ a < d.rbase.toNat + 0x80) ∨
          (d.ch1 = none ∧ d.rbase.toNat + 0x20 ≤ a ∧ a < d.rbase.toNat + 0x40)) →
        Memory.read t.mem a = Memory.read s.mem a) ∧
      t.dma = { s.dma with active := true, ended := false, int := false, conblkAd := d.rbase, dphase := .load } ∧
      (∀ c, t.ser c = s.ser c) ∧ t.dmac = s.dmac ∧ t.clk = s.clk ∧ KeepsDevice s t ∧ KeepsPort s t

/-- RENDER, and the render inside CLEAR, report TransmissionError exactly when complete is false; RENDER then changes nothing
else, and CLEAR nothing but the buffer it zeroed (40_controller_commands.md R180). -/
def Obligations.RenderInFlightIsRejected : Prop :=
  ∀ s d, s.life = .active d →
    (s.complete d = false → exec .render s = .next { s with result := ⟨.transmissionError, 0⟩ }) ∧
      (∀ t, exec .render s = .next t → (t.result.code = .transmissionError ↔ s.complete d = false)) ∧
      ∀ ch k, d.chan ch = some k →
        (s.complete d = false →
            ∃ e, OnlyPix d e ch (List.replicate k.cfg.count 0) ∧
              exec (.clear ch) s = .next { s with life := .active e, result := ⟨.transmissionError, 0⟩ }) ∧
          ∀ t, exec (.clear ch) s = .next t → (t.result.code = .transmissionError ↔ s.complete d = false)

/-- WAIT returns Ok as soon as complete holds and every configured channel's FIFO is empty; it changes nothing but RESULT and
its own hold (40_controller_commands.md R182, R184). -/
def Obligations.WaitReturnsWhenDrained : Prop :=
  ∀ s d, s.life = .active d → s.cflag d = 0 → s.dma.active = false →
    (∀ c k, d.chan c = some k → (s.ser c).fifo = []) →
      exec .wait s = .next { s with result := ⟨.ok, 0⟩, waiting := false }

/-- While complete and drained do not both hold, WAIT reports TimeoutError when the sequencer stopped on an error, with ORIGIN the
cause. With ERROR = 0 it reports TimeoutError with ORIGIN 0 when the transport can never reach completion: R183 (a) by a stall
or by a transfer starved of its data request, R183 (b), or R183 (c). Otherwise it holds: RESULT and all else but its hold are
unchanged (40_controller_commands.md R182, R183; 60_exceptions.md R346, R353). -/
def Obligations.WaitTimesOutOrHolds : Prop :=
  ∀ s d, s.life = .active d → ¬(s.complete d = true ∧ s.drained d = true) →
    (s.dma.error = true →
        exec .wait s =
          .next { s with result := ⟨.timeoutError, s.dma.errcause.setWidth 16⟩, waiting := false }) ∧
      (s.dma.error = false → StuckTransport s d →
        exec .wait s = .next { s with result := ⟨.timeoutError, 0⟩, waiting := false }) ∧
      (s.dma.error = false → ¬StuckTransport s d → exec .wait s = .next { s with waiting := true })

/-! ### The DMA sequencer -/

/-- A valid control block (30_encoding.md R122), when run, is loaded: the current-block registers take its words, DPHASE becomes
Xfer, and nothing else changes (42_dma_sequencer.md R277, R278). That the meaning of a control block is its LOAD is the
model's choice, log entry 14 (DEDUCED); the effect of a LOAD is the rules'. -/
def Obligations.LoadOfAValidBlockEntersXfer : Prop :=
  ∀ s b, b.wellFormed = true →
    ∃ t, exec (.cb b) s = .next t ∧
      t.dma =
        { s.dma with
          ti := b.ti.toWord, sourceAd := b.sourceAd, destAd := b.destAd, txfrLen := b.txfrLen, stride := b.stride,
          nextConbk := b.nextConbk, dphase := .xfer } ∧
      (∀ c, t.ser c = s.ser c) ∧ t.dmac = s.dmac ∧ t.clk = s.clk ∧ t.result = s.result ∧ KeepsMemory s t ∧
      KeepsDevice s t ∧ KeepsPort s t

/-- A LOAD step tests its conditions in order and stops with the first that fails: cause 1 for a misaligned CONBLK_AD, 2 for a
word outside the region (the registers keep their old values), 3 for the TI word, 4 for the lengths and addresses (the
registers hold the block read); with none failing, exactly when the words are valid (30_encoding.md R122), DPHASE becomes
Xfer. Nothing but the DMA window and the turn changes (42_dma_sequencer.md R277, R278, R282, R284). -/
def Obligations.LoadChecksInOrder : Prop :=
  ∀ s ti src dst len stride nextcb, s.turn = .dma → s.dma.active = true → s.dma.dphase = .load →
    s.dma.stalled = false →
    (s.dma.conblkAd.toNat % 32 ≠ 0 → step s = .next { s.dropTurn with dma := s.dma.stoppedWith 1 }) ∧
      (s.dma.conblkAd.toNat % 32 = 0 → (∃ k < 6, s.readable (s.dma.conblkAd.toNat + 4 * k) = false) →
        step s = .next { s.dropTurn with dma := s.dma.stoppedWith 2 }) ∧
      (s.dma.conblkAd.toNat % 32 = 0 → (∀ k < 6, s.readable (s.dma.conblkAd.toNat + 4 * k) = true) →
        wordsAt s.mem s.dma.conblkAd.toNat 6 = [ti, src, dst, len, stride, nextcb] →
          ∃ x, x = { s.dma with ti := ti, sourceAd := src, destAd := dst, txfrLen := len, stride := stride,
                                nextConbk := nextcb } ∧
            ((ti &&& 0xFFE0FEAE#32 ≠ 0 ∨ 2 < ti.toNat / 65536 % 32 ∨
                (ti.getLsbD 6 = true ∧ ti.toNat / 65536 % 32 = 0)) →
              step s = .next { s.dropTurn with dma := x.stoppedWith 3 }) ∧
            (ti &&& 0xFFE0FEAE#32 = 0 → ti.toNat / 65536 % 32 ≤ 2 →
              ¬(ti.getLsbD 6 = true ∧ ti.toNat / 65536 % 32 = 0) →
              (len.toNat = 0 ∨ len.toNat % 4 ≠ 0 ∨ stride.toNat ≠ 0 ∨ src.toNat % 4 ≠ 0 ∨ dst.toNat % 4 ≠ 0) →
              step s = .next { s.dropTurn with dma := x.stoppedWith 4 }) ∧
            (ValidBlockWords ti src dst len stride →
              step s = .next { s.dropTurn with dma := { x with dphase := .xfer } }))

/-- XFER moves one word: a word of the region goes to a FIFO register (pushed, or dropped with WERR set when the FIFO is full) or
to a word of the region, of which no other byte changes; SOURCE_AD and DEST_AD step by 4 where TI says so and TXFR_LEN falls
by 4. A source outside the region, or a destination outside it that is no FIFO register, stops it with cause 2 and nothing
is written (42_dma_sequencer.md R279, R284; 10_state.md R35; 20_memory.md R84, R85). -/
def Obligations.XferMovesOneWord : Prop :=
  ∀ s, Memory.wf s.mem → s.turn = .dma → s.xferEnabled = true →
    ((s.readable s.dma.sourceAd.toNat = false ∨ s.writable s.dma.destAd.toNat = false) →
        step s = .next { s.dropTurn with dma := s.dma.stoppedWith 2 }) ∧
      (s.readable s.dma.sourceAd.toNat = true → s.writable s.dma.destAd.toNat = true →
        ∃ t, step s = .next t ∧
          t.dma =
            { s.dma with
              sourceAd := if s.dma.ti.getLsbD 8 then s.dma.sourceAd + 4 else s.dma.sourceAd
              destAd := if s.dma.ti.getLsbD 4 then s.dma.destAd + 4 else s.dma.destAd
              txfrLen := s.dma.txfrLen - 4 } ∧
          t.result = s.result ∧ t.waiting = s.waiting ∧ t.argq = s.argq ∧ t.dmac = s.dmac ∧ t.clk = s.clk ∧
          KeepsDevice s t ∧
          (∀ c, s.dma.destAd = fifBus s.config c → (c = .c1 → s.config.fif0Bus ≠ s.config.fif1Bus) →
            KeepsMemory s t ∧ (∀ c', c' ≠ c → t.ser c' = s.ser c') ∧
              ((s.ser c).fifo.length < s.config.fifoDepth →
                t.ser c =
                  { s.ser c with fifo := (s.ser c).fifo ++ [Memory.readWord s.mem s.dma.sourceAd.toNat] }) ∧
              (s.config.fifoDepth ≤ (s.ser c).fifo.length → t.ser c = { s.ser c with werr := true })) ∧
          (s.dma.destAd ≠ s.config.fif0Bus → s.dma.destAd ≠ s.config.fif1Bus →
            (∀ c, t.ser c = s.ser c) ∧
              Memory.readWord t.mem s.dma.destAd.toNat = Memory.readWord s.mem s.dma.sourceAd.toNat ∧
              ∀ a, (a < s.dma.destAd.toNat ∨ s.dma.destAd.toNat + 4 ≤ a) →
                Memory.read t.mem a = Memory.read s.mem a))

/-- NEXT sets INT when TI.INTEN is set, and either ends the chain (NEXTCONBK = 0: ACTIVE 0, END 1, Idle, CONBLK_AD kept) or goes
to load the next block; nothing else changes (42_dma_sequencer.md R281). -/
def Obligations.NextEndsOrFollowsTheChain : Prop :=
  ∀ s, s.turn = .dma → s.dma.active = true → s.dma.stalled = false → s.dma.dphase = .xfer → s.dma.txfrLen = 0 →
    (s.dma.nextConbk = 0 →
        step s =
          .next { s.dropTurn with
            dma := { s.dma with int := s.dma.int || s.dma.ti.getLsbD 0, active := false, ended := true,
                                dphase := .idle } }) ∧
      (s.dma.nextConbk ≠ 0 →
        step s =
          .next { s.dropTurn with
            dma := { s.dma with int := s.dma.int || s.dma.ti.getLsbD 0, conblkAd := s.dma.nextConbk,
                                dphase := .load } })

/-- STALL, on an unhealthy launch with the sequencer active, sets STALLED and nothing else; a stalled sequencer takes no step; a
healthy launch never stalls (42_dma_sequencer.md R275, R283). -/
def Obligations.StallOnlyWhenUnhealthy : Prop :=
  (∀ s, s.turn = .stall → s.dma.active = true → s.dma.stalled = false → s.hwHealthy = false →
      step s = .next { s.dropTurn with dma := { s.dma with stalled := true } }) ∧
    (∀ s, s.turn = .dma → s.dma.stalled = true → step s = .next s.dropTurn) ∧
    ∀ s t, s.hwHealthy = true → s.dma.stalled = false → step s = .next t → t.dma.stalled = false

/-- A block with DEST_DREQ moves no word while its data-request line is not asserted: the sequencer's turn changes nothing; and
a sequencer that is not active takes no step (42_dma_sequencer.md R275, R280; 10_state.md R49). -/
def Obligations.PacedTransferWaits : Prop :=
  (∀ s c, s.turn = .dma → s.dma.active = true → s.dma.dphase = .xfer → s.dma.txfrLen ≠ 0 →
      s.dma.ti.getLsbD 6 = true → s.dma.ti.toNat / 65536 % 32 = c.toNat + 1 →
      (s.dmac = false ∨ s.config.fifoDepth ≤ (s.ser c).fifo.length) → step s = .next s.dropTurn) ∧
    ∀ s, s.turn = .dma → s.dma.active = false → step s = .next s.dropTurn

/-! ### The serializers -/

/-- SHIFT of a running serializer takes its oldest word and appends its 32 levels, bit 31 first, each inverted when POLA is set;
LASTGAP becomes false; nothing else changes (43_pwm_serializer.md R303, R305). Of a configured channel, the word's levels join
the events of the latest INIT, and with that INIT's invert taken off they are the word's own bits; earlier INITs' events stay
apart as they were (43_pwm_serializer.md R307, R308; the cuts are made at the model's own marks, log entry 17, DESIGN
CHOICE). -/
def Obligations.ShiftEmitsOneWord : Prop :=
  ∀ s c w rest, s.turn = .ser c → s.clk.enab = true → 2 ≤ s.clk.divi.toNat → (s.ser c).pwen = true →
    (s.ser c).fifo = w :: rest →
      ∃ t, step s = .next t ∧ (t.ser c).fifo = rest ∧ (t.ser c).lastGap = false ∧
        (∃ ls : List Bool, ls.length = 32 ∧ (t.ser c).wire = (s.ser c).wire ++ ls.map .lvl ∧
          (∀ k, k < 32 → ls[k]? = some (w.getLsbD (31 - k) ^^ (s.ser c).pola)) ∧
          (MarkInv s → ∀ d ch, s.life = .active d → d.chan c = some ch →
            logical ch.cfg.invert (ls.map .lvl) = (List.range 32).map (fun k => .lvl (w.getLsbD (31 - k))) ∧
              ∃ before evs, (s.ser c).sections = before ++ [⟨ch.cfg, evs⟩] ∧
                (t.ser c).sections = before ++ [⟨ch.cfg, evs ++ ls.map .lvl⟩])) ∧
        (t.ser c).pwen = (s.ser c).pwen ∧ (t.ser c).pola = (s.ser c).pola ∧ (t.ser c).werr = (s.ser c).werr ∧
        (t.ser c).gapo = (s.ser c).gapo ∧ (t.ser c).marks = (s.ser c).marks ∧ (∀ c', c' ≠ c → t.ser c' = s.ser c') ∧ t.dma = s.dma ∧ t.dmac = s.dmac ∧
        t.clk = s.clk ∧ t.result = s.result ∧ t.argq = s.argq ∧ t.waiting = s.waiting ∧ t.config = s.config ∧
        t.hwHealthy = s.hwHealthy ∧ KeepsMemory s t ∧ KeepsDevice s t

/-- GAP of a running serializer with an empty FIFO, no Gap just recorded and the sequencer not in its data block appends one Gap
and sets GAPO and LASTGAP; nothing else changes (43_pwm_serializer.md R303, R306). On a healthy launch no Gap lies inside a
frame: where a step of a configured channel's serializer records one, none of the channel's frame is pushed yet, or all of it
is pushed and sent (43_pwm_serializer.md R313, "no Gap lies between them"). -/
def Obligations.GapRecordsOneIdle : Prop :=
  (∀ s c, s.turn = .ser c → s.clk.enab = true → 2 ≤ s.clk.divi.toNat → (s.ser c).pwen = true →
      (s.ser c).fifo = [] → (s.ser c).lastGap = false →
      ¬(s.dma.active = true ∧ s.dma.stalled = false ∧ s.dma.dphase = .xfer ∧
          s.dma.ti.toNat / 65536 % 32 = c.toNat + 1) →
        step s =
          .next (s.dropTurn.setSer c { s.ser c with wire := (s.ser c).wire ++ [.gap], gapo := true, lastGap := true })) ∧
    ∀ s t d c k, s.hwHealthy = true → DmaInv s → ChainInv s → s.life = .active d → d.chan c = some k →
      s.turn = .ser c → step s = .next t → (t.ser c).wire = (s.ser c).wire ++ [.gap] →
        (s.ser c).fifo = [] ∧ (t.ser c).fifo = [] ∧ t.unsent d c = s.unsent d c ∧
          (s.unsent d c = [] ∨ s.unsent d c = wordsAt s.mem (d.slotAddr c) k.words)

/-- A serializer takes no step while it does not run, nor with an empty FIFO just after a Gap or while the sequencer is in its
data block (43_pwm_serializer.md R302, R303). -/
def Obligations.SerializerRests : Prop :=
  ∀ s c, s.turn = .ser c →
    (s.clk.enab = false ∨ s.clk.divi.toNat < 2 ∨ (s.ser c).pwen = false ∨
      ((s.ser c).fifo = [] ∧ ((s.ser c).lastGap = true ∨
        (s.dma.active = true ∧ s.dma.stalled = false ∧ s.dma.dphase = .xfer ∧
          s.dma.ti.toNat / 65536 % 32 = c.toNat + 1)))) →
      step s = .next s.dropTurn

/-! ### Registers as read -/

/-- HIF.STATUS: INFLIGHT in bit 1, LIFE in bits 3:2, IRQ = DMA.CS.INT in bit 4, OWNED in bit 5, every other bit 0; and
HIF.RESULT: CODE in bits 7:0, ORIGIN in bits 31:16, bits 15:8 zero (10_state.md R24, R25). -/
def Obligations.HostRegistersAsRead : Prop :=
  ∀ s : State,
    s.statusWord.toNat =
        (match s.life with | .active d => (if s.complete d then 0 else 2) | _ => 0) +
          4 * (match s.life with | .uninitialized => 0 | .active _ => 1 | .finalized => 2) +
          (if s.dma.int then 16 else 0) + (if s.owned then 32 else 0) ∧
      s.resultWord.toNat = s.result.code.code + 65536 * s.result.origin.toNat ∧ s.result.code.code ≤ 7

/-- PWM.CTL, PWM.STA and PWM.DMAC as read, bit by bit: the hardwired MODE and USEF bits are 1, CLRF and the reserved bits 0, and
FULL and EMPT follow the FIFO (10_state.md R31 to R33). -/
def Obligations.PwmRegistersAsRead : Prop :=
  ∀ s : State,
    (pwmRead 0x00 s).toNat =
        (if s.ser0.pwen then 1 else 0) + 2 + (if s.ser0.pola then 16 else 0) + 32 +
          (if s.ser1.pwen then 256 else 0) + 512 + (if s.ser1.pola then 4096 else 0) + 8192 ∧
      (pwmRead 0x04 s).toNat =
        (if s.ser0.fifo.length = s.config.fifoDepth then 1 else 0) + (if s.ser0.fifo = [] then 2 else 0) +
          (if s.ser0.werr then 4 else 0) + (if s.ser0.gapo then 16 else 0) +
          (if s.ser1.fifo.length = s.config.fifoDepth then 256 else 0) + (if s.ser1.fifo = [] then 512 else 0) +
          (if s.ser1.werr then 1024 else 0) + (if s.ser1.gapo then 4096 else 0) ∧
      ((pwmRead 0x08 s).toNat = if s.dmac then 2 ^ 31 else 0) ∧ pwmRead 0x10 s = 32 ∧ pwmRead 0x20 s = 32 ∧
      ∀ offset, offset ∉ [0x00, 0x04, 0x08, 0x10, 0x20] → pwmRead offset s = 0

/-- The clock window and DMA.CS as read: BUSY equals ENAB, DIVI in bits 23:12; ACTIVE, END, INT, DREQ and ERROR in their bits,
where DREQ is the data request of the current block's PERMAP while DPHASE is not Idle (10_state.md R36 to R38, R49). -/
def Obligations.ClockAndDmaRegistersAsRead : Prop :=
  ∀ s : State,
    (clkRead 0x00 s).toNat = (if s.clk.enab then 16 + 128 else 0) ∧
      (clkRead 0x04 s).toNat = 4096 * s.clk.divi.toNat ∧
      (dmaRead 0x00 s).toNat =
        (if s.dma.active then 1 else 0) + (if s.dma.ended then 2 else 0) + (if s.dma.int then 4 else 0) +
          (if s.dma.dphase ≠ .idle ∧ s.dmac = true ∧
              ((s.dma.ti.toNat / 65536 % 32 = 1 ∧ s.ser0.fifo.length < s.config.fifoDepth) ∨
                (s.dma.ti.toNat / 65536 % 32 = 2 ∧ s.ser1.fifo.length < s.config.fifoDepth)) then 8 else 0) +
          (if s.dma.error then 256 else 0) ∧
      dmaRead 0x04 s = s.dma.conblkAd ∧ dmaRead 0x08 s = s.dma.ti ∧ dmaRead 0x0C s = s.dma.sourceAd ∧
      dmaRead 0x10 s = s.dma.destAd ∧ dmaRead 0x14 s = s.dma.txfrLen ∧ dmaRead 0x18 s = s.dma.stride ∧
      dmaRead 0x1C s = s.dma.nextConbk ∧ (dmaRead 0x20 s).toNat = s.dma.errcause.toNat ∧
      (∀ offset, offset ∉ [0x00, 0x04, 0x08, 0x0C, 0x10, 0x14, 0x18, 0x1C, 0x20] → dmaRead offset s = 0) ∧
      ∀ offset, offset ∉ [0x00, 0x04] → clkRead offset s = 0

/-- The windows' writes, each with all it changes. PWM.CTL: PWEN, POLA and CLRF, which empties a FIFO. PWM.STA: WERR and GAPO are
write-1-to-clear. PWM.DMAC: ENAB. FIF0 and FIF1: the word is pushed, or dropped and WERR set when the FIFO is full. CLKCTL:
ENAB. CLKDIV: DIVI, ignored while BUSY. CONBLK_AD: ignored while ACTIVE. DMA.CS without RESET: END and INT are
write-1-to-clear, a 0 in ACTIVE has no effect, a 1 starts the sequencer unless ACTIVE or ERROR is 1 and is then ignored. A
write of RESET alone puts the whole DMA window and the sequencer in their reset state. A write to a read-only, hardwired or
reserved offset is ignored (10_state.md R31 to R39, R48; 42_dma_sequencer.md R276, R285). -/
def Obligations.RegisterWriteRules : Prop :=
  ∀ (s : State) (v : Word),
    pwmWrite 0x00 v s =
        { s with
          ser0 := { s.ser0 with pwen := v.getLsbD 0, pola := v.getLsbD 4,
                                fifo := if v.getLsbD 6 then [] else s.ser0.fifo }
          ser1 := { s.ser1 with pwen := v.getLsbD 8, pola := v.getLsbD 12,
                                fifo := if v.getLsbD 14 then [] else s.ser1.fifo } } ∧
      pwmWrite 0x04 v s =
        { s with
          ser0 := { s.ser0 with werr := s.ser0.werr && !v.getLsbD 2, gapo := s.ser0.gapo && !v.getLsbD 4 }
          ser1 := { s.ser1 with werr := s.ser1.werr && !v.getLsbD 10, gapo := s.ser1.gapo && !v.getLsbD 12 } } ∧
      pwmWrite 0x08 v s = { s with dmac := v.getLsbD 31 } ∧
      (∀ c : Chan,
        ((s.ser c).fifo.length < s.config.fifoDepth →
            pwmWrite (0x18 + 16 * c.toNat) v s = s.setSer c { s.ser c with fifo := (s.ser c).fifo ++ [v] }) ∧
          (s.config.fifoDepth ≤ (s.ser c).fifo.length →
            pwmWrite (0x18 + 16 * c.toNat) v s = s.setSer c { s.ser c with werr := true })) ∧
      (∀ offset, offset ∉ [0x00, 0x04, 0x08, 0x18, 0x28] → pwmWrite offset v s = s) ∧
      clkWrite 0x00 v s = { s with clk := { s.clk with enab := v.getLsbD 4 } } ∧
      (s.clk.enab = true → clkWrite 0x04 v s = s) ∧
      (s.clk.enab = false →
        clkWrite 0x04 v s = { s with clk := { s.clk with divi := BitVec.ofNat 12 (v.toNat / 4096) } }) ∧
      (∀ offset, offset ∉ [0x00, 0x04] → clkWrite offset v s = s) ∧
      (s.dma.active = true → dmaWrite 0x04 v s = s) ∧
      (s.dma.active = false → dmaWrite 0x04 v s = { s with dma := { s.dma with conblkAd := v } }) ∧
      (v.toNat < 2 ^ 31 → (v.getLsbD 0 = false ∨ s.dma.active = true ∨ s.dma.error = true) →
        dmaWrite 0x00 v s =
          { s with
            dma := { s.dma with ended := s.dma.ended && !v.getLsbD 1, int := s.dma.int && !v.getLsbD 2 } }) ∧
      (v.toNat < 2 ^ 31 → v.getLsbD 0 = true → s.dma.active = false → s.dma.error = false →
        dmaWrite 0x00 v s =
          { s with
            dma := { s.dma with ended := s.dma.ended && !v.getLsbD 1, int := s.dma.int && !v.getLsbD 2,
                                active := true, dphase := .load } }) ∧
      dmaWrite 0x00 0x80000000#32 s = { s with dma := Dma.powerOn } ∧
      ∀ offset, offset ∉ [0x00, 0x04] → dmaWrite offset v s = s

/-! ### Reset -/

/-- Power-on: the command port, the device state, the PWM, clock and DMA windows, the FIFOs and the output streams hold the
values the spec gives (10_state.md R51 to R54, 70_reset_and_hazards.md R380). -/
def Obligations.PowerOnValues : Prop :=
  State.reset.argq = [] ∧ State.reset.resultWord = 0 ∧ State.reset.statusWord = 0 ∧
    State.reset.life = .uninitialized ∧ State.reset.owned = false ∧
    pwmRead 0x00 State.reset = 0x00002222#32 ∧ pwmRead 0x04 State.reset = 0x00000202#32 ∧
    pwmRead 0x08 State.reset = 0 ∧ pwmRead 0x10 State.reset = 32 ∧ pwmRead 0x20 State.reset = 32 ∧
    (∀ c, (State.reset.ser c).fifo = [] ∧ (State.reset.ser c).lastGap = false ∧ (State.reset.ser c).wire = []) ∧
    clkRead 0x00 State.reset = 0 ∧ clkRead 0x04 State.reset = 0 ∧
    (∀ offset, dmaRead offset State.reset = 0) ∧ State.reset.dma.dphase = .idle ∧ State.reset.dma.stalled = false

/-- The invariants hold at power-on; that no INIT has marked a stream is the model's own (log entry 17). -/
def Obligations.InvariantsHoldAtReset : Prop :=
  DeviceInv State.reset ∧ FifoInv State.reset ∧ DmaInv State.reset ∧ WireInv State.reset ∧ MarkInv State.reset ∧
    ChainInv State.reset

/-! ### The encoder and the strip -/

/-- scale(v, b) never exceeds v, is v at brightness 255, 0 at brightness 0 or for v = 0, and b for v = 255
(41_bitstream_encoder.md R223). -/
def Obligations.ScaleBounds : Prop :=
  ∀ v b : Byte,
    (scale v b).toNat = v.toNat * b.toNat / 255 ∧ (scale v b).toNat ≤ v.toNat ∧ scale v 255 = v ∧ scale v 0 = 0 ∧
      scale 0 b = 0 ∧ scale 255 b = b

/-- A frame has exactly WORDS words; its data slots are count * ncol * 24; its padding is at most 31 slots; and its slot list has
32 * WORDS slots (41_bitstream_encoder.md R220, R226, R228 to R230). -/
def Obligations.FrameLengths : Prop :=
  ∀ (pix : List Word) (cfg : ChannelConfig), pix.length = cfg.count →
    (encodeFrame pix cfg).length = frameWords cfg ∧
      (dataSlots pix cfg).length = cfg.count * stripNcol cfg.stype * 24 ∧
      (dataSlots pix cfg).length + resetSlots cfg.freq + padSlots pix cfg = 32 * frameWords cfg ∧
      padSlots pix cfg ≤ 31 ∧ (frameSlots pix cfg).length = 32 * frameWords cfg

/-- Slot number m of the frame is bit 31 - (m mod 32) of word m div 32 (41_bitstream_encoder.md R231, 20_memory.md R82). -/
def Obligations.SlotsFillWordsFromTheTop : Prop :=
  ∀ (pix : List Word) (cfg : ChannelConfig) (m : Nat), pix.length = cfg.count → m < 32 * frameWords cfg →
    ∃ w, (encodeFrame pix cfg)[m / 32]? = some w ∧ (frameSlots pix cfg)[m]? = some (w.getLsbD (31 - m % 32))

/-- A frame's data is a sequence of bit codes, each starting high; no run of low slots in it is longer than two; and the frame
ends with at least RESET_SLOTS low slots (41_bitstream_encoder.md R233). -/
def Obligations.NoLongLowRunInData : Prop :=
  ∀ (pix : List Word) (cfg : ChannelConfig),
    (∃ bits : List Bool, dataSlots pix cfg = bits.flatMap bitcode) ∧ (∀ b, (bitcode b).head? = some true) ∧
      (∀ i, (dataSlots pix cfg)[i]? = some false → (dataSlots pix cfg)[i + 1]? = some false →
        (dataSlots pix cfg)[i + 2]? ≠ some false) ∧
      ∃ n, resetSlots cfg.freq ≤ n ∧ frameSlots pix cfg = dataSlots pix cfg ++ List.replicate n false

/-- A buffer of zeros, or any buffer at brightness 0, encodes to ncol * 8 copies of 1, 0, 0 per pixel; a 3-colour strip's frame
does not depend on bits 31:24; and no frame depends on invert (41_bitstream_encoder.md R222, R232, R234). -/
def Obligations.DarkFramesAndIgnoredBits : Prop :=
  (∀ (pix : List Word) (cfg : ChannelConfig), (cfg.bright = 0 ∨ ∀ c ∈ pix, c = 0) →
      dataSlots pix cfg =
        (List.replicate (pix.length * stripNcol cfg.stype * 8) [true, false, false]).flatten) ∧
    (∀ (pix pix' : List Word) (cfg : ChannelConfig), stripNcol cfg.stype = 3 →
      pix.map (fun c => c.toNat % 2 ^ 24) = pix'.map (fun c => c.toNat % 2 ^ 24) →
      encodeFrame pix cfg = encodeFrame pix' cfg) ∧
    ∀ (pix : List Word) (cfg : ChannelConfig) (b : Bool),
      encodeFrame pix { cfg with invert := b } = encodeFrame pix cfg

/-- Round trip: the slots of a frame, put on the wire with the channel's polarity, decode to one latched segment holding every
pixel's components scaled by the brightness, in the strip's order; the strip then shows them LED by LED, and so does a
serializer whose latest INIT, of that configuration, sent those levels: LEDs beyond the frame keep what the earlier INITs on
that pin showed, and the strips on other pins are as they were (43_pwm_serializer.md R312, R308 to R311, R314). How a stream
is cut INIT by INIT, and that a strip is the one on a pin, is the model's choice, log entry 17 (DESIGN CHOICE, DEDUCED). -/
def Obligations.FrameDecodesToScaledPixels : Prop :=
  ∀ (pix : List Word) (cfg : ChannelConfig) (view : StripView), pix.length = cfg.count → 0 < cfg.count →
    (cfg.freq = 400000 ∨ cfg.freq = 800000) →
      (∃ levels bits,
        segments cfg.freq (logical cfg.invert ((frameSlots pix cfg).map (fun b => .lvl (b ^^ cfg.invert)))) =
            [⟨levels, true⟩] ∧
          segmentBits levels = some bits ∧
          decodePixels cfg.stype bits =
            pix.map (fun c => (stripOrder cfg.stype).map (fun l => (l, scale (comp c l) cfg.bright)))) ∧
        showWire cfg view ((frameSlots pix cfg).map (fun b => .lvl (b ^^ cfg.invert))) =
          pix.map (fun c => some ((stripOrder cfg.stype).map (fun l => (l, scale (comp c l) cfg.bright)))) ++
            view.drop pix.length ∧
        ∀ (x : Serializer) (before : List Section),
          x.sections = before ++ [⟨cfg, (frameSlots pix cfg).map (fun b => .lvl (b ^^ cfg.invert))⟩] →
            x.view =
                pix.map (fun c => some ((stripOrder cfg.stype).map (fun l => (l, scale (comp c l) cfg.bright)))) ++
                  (stripOn cfg.pin before).drop pix.length ∧
              ∀ pin, pin ≠ cfg.pin → stripOn pin x.sections = stripOn pin before

/-! ### Invariants every step keeps -/

/-- Every step keeps the device invariant: the memory's canonical form, listed bytes only inside the region, a well-formed and
owned device while Active, and nothing running or owned otherwise (10_state.md R26 to R30; 20_memory.md R86 to R90;
42_dma_sequencer.md R286). -/
def Obligations.StepKeepsTheDevice : Prop :=
  ∀ s t, DeviceInv s → step s = .next t → DeviceInv t

/-- Every step keeps the DMA window consistent: ACTIVE and DPHASE agree, ERROR and ERRCAUSE agree and exclude ACTIVE, STALLED
needs ACTIVE and an unhealthy launch, and a block in Xfer was valid and stays word aligned (10_state.md R41, R42;
42_dma_sequencer.md R278, R279, R282, R283; 60_exceptions.md R359). -/
def Obligations.StepKeepsTheDmaWindow : Prop :=
  ∀ s t, DmaInv s → step s = .next t → DmaInv t

/-- LASTGAP says whether the last event is a Gap, and no stream ever holds two Gaps in a row (10_state.md R44,
43_pwm_serializer.md R306). Every step also keeps the streams marked INIT by INIT, with each configured channel's latest mark
carrying its configuration and POLA its invert, and the events of the INITs joined are the stream, with none left out
(43_pwm_serializer.md R307, R308; the marks are the model's own record, log entry 17). -/
def Obligations.NoTwoGapsInARow : Prop :=
  (∀ s t, WireInv s → step s = .next t → WireInv t) ∧ (∀ s t, MarkInv s → step s = .next t → MarkInv t) ∧
    ∀ s c, MarkInv s → (s.ser c).sections.flatMap Section.events = (s.ser c).wire

/-- No step overfills a FIFO, and the output streams only grow (10_state.md R43, R45; 43_pwm_serializer.md R304). An INIT's events
keep its configuration and only grow, and once another INIT has followed they never change: what they decode to is settled
(43_pwm_serializer.md R308; the cuts are made at the model's own marks, log entry 17, DESIGN CHOICE). -/
def Obligations.FifosStayBoundedAndStreamsGrow : Prop :=
  ∀ s t, step s = .next t →
    (FifoInv s → FifoInv t) ∧ (∀ c, (s.ser c).wire <+: (t.ser c).wire) ∧
      (MarkInv s → ∀ c i x, (s.ser c).sections[i]? = some x →
        ∃ y, (t.ser c).sections[i]? = some y ∧ y.cfg = x.cfg ∧ x.events <+: y.events ∧
          (i + 1 < (s.ser c).sections.length → y = x))

/-- hwHealthy and the parameters are fixed for a whole run, and while the device stays Active no step changes a channel's
configuration, its frame length, SLOT, RSIZE or RBASE (10_state.md R28, R46; 40_controller_commands.md R163). -/
def Obligations.LaunchAndConfigurationAreFixed : Prop :=
  ∀ s t, step s = .next t →
    t.config = s.config ∧ t.hwHealthy = s.hwHealthy ∧
      ∀ d e, s.life = .active d → s.owned = true → t.life = .active e →
        e.slot = d.slot ∧ e.rsize = d.rsize ∧ e.rbase = d.rbase ∧ e.nch = d.nch ∧
          ∀ c k, d.chan c = some k → ∃ k', e.chan c = some k' ∧ k'.cfg = k.cfg ∧ k'.words = k.words

/-- While the device stays Active, ERROR with its cause and STALLED last: no step clears them (60_exceptions.md R357,
42_dma_sequencer.md R282, R283). -/
def Obligations.ErrorAndStallAreSticky : Prop :=
  ∀ s t d e, s.life = .active d → s.owned = true → step s = .next t → t.life = .active e →
    (s.dma.error = true → s.dma.active = false → t.dma.error = true ∧ t.dma.errcause = s.dma.errcause) ∧
      (s.dma.stalled = true → s.dma.active = true → t.dma.stalled = true ∧ t.dma.active = true)

/-- A chain built by ARM never stops on an error and never drops a word: every step keeps the sequencer without error, idle
with CFLAG = 0 or somewhere on the armed chain, with every configured serializer running, and sets no WERR
(42_dma_sequencer.md R268, R270, R280, R287; 60_exceptions.md R355). -/
def Obligations.ArmedChainNeverErrs : Prop :=
  ∀ s t, s.config.wf = true → DeviceInv s → ChainInv s → step s = .next t →
    ChainInv t ∧ ∀ c, (t.ser c).werr = true → (s.ser c).werr = true

/-- A turn of the sequencer or of a serializer on an armed chain neither loses, adds, reorders nor alters a level of what a
channel has sent, holds in its FIFO and has still to push. Gaps are left out here: where they may lie is GapRecordsOneIdle's
(43_pwm_serializer.md R313, its levels "exactly" and "in order"; 20_memory.md R97; 42_dma_sequencer.md R280). -/
def Obligations.FrameLevelsAreConserved : Prop :=
  ∀ s t d c, s.config.wf = true → DeviceInv s → ChainInv s → s.life = .active d → s.turn ≠ .host →
    step s = .next t → t.carried d c = s.carried d c

/-- A successful RENDER adds to what a configured channel is to send exactly the slots of its frame,
each inverted when POLA is set, after everything already sent or queued (43_pwm_serializer.md R313, R305;
42_dma_sequencer.md R263). Gaps are left out here, as in FrameLevelsAreConserved. -/
def Obligations.RenderAddsExactlyTheFrame : Prop :=
  ∀ s t d c k, DeviceInv s → ChainInv s → s.life = .active d → d.chan c = some k → s.complete d = true →
    exec .render s = .next t →
      t.carried d c = s.carried d c ++ (frameSlots k.pix k.cfg).map (fun b => b ^^ (s.ser c).pola)

/-- The step counts of a chain: RENDER leaves one LOAD and one NEXT per block, WORDS XFER steps per channel and one for the
terminal block; each LOAD, XFER or NEXT step lowers the count by one; no STALL, SHIFT or GAP step changes it; it is 0 exactly
when the chain has ended (42_dma_sequencer.md R288). -/
def Obligations.ChainStepCounts : Prop :=
  (∀ s t d, DeviceInv s → ChainInv s → s.life = .active d → s.complete d = true → exec .render s = .next t →
      t.chainSteps d = 2 * (d.nch + 1) + (d.ch0.words + (match d.ch1 with | some k => k.words | none => 0)) + 1) ∧
    (∀ s t d, s.config.wf = true → DeviceInv s → ChainInv s → s.life = .active d → s.turn = .dma →
      (s.loadEnabled = true ∨ s.xferEnabled = true ∨ s.nextEnabled = true) → step s = .next t →
        t.chainSteps d + 1 = s.chainSteps d) ∧
    (∀ s t d, s.life = .active d → (s.turn = .stall ∨ ∃ c, s.turn = .ser c) → step s = .next t →
      t.chainSteps d = s.chainSteps d) ∧
    ∀ s d, DmaInv s → ChainInv s → s.life = .active d → (s.chainSteps d = 0 ↔ s.dma.active = false)

/-- A WAIT on a healthy launch never holds without an agent able to move its frame on: while complete and drained do not both
hold, transportStuck is false and a LOAD, XFER, NEXT or SHIFT step is enabled (70_reset_and_hazards.md R398,
42_dma_sequencer.md R287). -/
def Obligations.HealthyWaitAlwaysProgresses : Prop :=
  ∀ s d, 1 ≤ s.config.fifoDepth → DmaInv s → ChainInv s → s.hwHealthy = true → s.life = .active d →
    ¬(s.complete d = true ∧ s.drained d = true) →
      s.transportStuck d = false ∧
        (s.loadEnabled = true ∨ s.xferEnabled = true ∨ s.nextEnabled = true ∨
          ∃ c k, d.chan c = some k ∧ s.shiftEnabled c = true)

/-- On a run that is weakly fair to LOAD, XFER, NEXT, SHIFT and GAP, on a healthy launch, a WAIT returns Ok: from some state
of the run on, a WAIT that still holds ends with Ok at its next test, and no test of it ever reports anything else. The
host's own turns are not promised, as the rule says (70_reset_and_hazards.md R398; 40_controller_commands.md R182 to R184;
42_dma_sequencer.md R287). That a step is the turn of one agent, chosen by a plan and then by a free value, is the model's
choice, log entry 3 (DESIGN CHOICE), and that a holding WAIT is run again at the host's turns is log entry 7 (DEDUCED). -/
def Obligations.FairHealthyWaitReturnsOk : Prop :=
  ∀ (r : Nat → State) (d : Device), IsRun r → WeaklyFair r → (r 0).config.wf = true → (r 0).hwHealthy = true →
    DeviceInv (r 0) → DmaInv (r 0) → ChainInv (r 0) → (r 0).life = .active d →
      (∃ n, ∀ m, n ≤ m → HeldUpTo r m →
        exec .wait (r m) = .next { r m with result := ⟨.ok, 0⟩, waiting := false }) ∧
        ∀ m t, HeldUpTo r m → exec .wait (r m) = .next t → t.waiting = false → t.result = ⟨.ok, 0⟩
end

