-- ==== Sys2Proof/Laws/Memory.lean ====
section
/-! SUPPORT. The laws of memory: read after write, bytes and words, and the canonical form kept by every operation
(20_memory.md R81, R84, R89). -/

namespace Sys2Proof.Machine

namespace Memory

@[simp] theorem read_nil (a : Nat) : read [] a = unlisted := rfl

theorem read_cons (k : Nat) (b : Byte) (m : Memory) (a : Nat) :
    read ((k, b) :: m) a = if k = a then b else read m a := rfl

/-- An address below every listed one is unlisted. -/
theorem read_eq_unlisted {m : Memory} {a : Nat} (h : ∀ c ∈ m, a < c.1) : read m a = unlisted := by
  induction m with
  | nil => rfl
  | cons c m ih =>
    obtain ⟨k, b⟩ := c
    have hk : a < k := h (k, b) (by simp)
    rw [read_cons, if_neg (by omega)]
    exact ih (fun c hc => h c (by simp [hc]))

theorem wf_nil : wf [] := by simp [wf]

theorem wf_cons {k : Nat} {b : Byte} {m : Memory} :
    wf ((k, b) :: m) ↔ (∀ c ∈ m, k < c.1) ∧ b ≠ unlisted ∧ wf m := by
  simp only [wf, List.pairwise_cons, List.mem_cons, forall_eq_or_imp]
  constructor
  · rintro ⟨⟨h1, h2⟩, h3, h4⟩; exact ⟨h1, h3, h2, h4⟩
  · rintro ⟨h1, h3, h2, h4⟩; exact ⟨⟨h1, h2⟩, h3, h4⟩

/-- Reading one byte after storing one. -/
theorem read_write {m : Memory} (hm : wf m) (a : Nat) (v : Byte) (x : Nat) :
    read (write m a v) x = if x = a then v else read m x := by
  induction m with
  | nil =>
    simp only [write]
    split
    · rename_i h; subst h; simp
    · simp only [read_cons, read_nil]; split <;> split <;> first | rfl | omega
  | cons c m ih =>
    obtain ⟨k, b⟩ := c
    obtain ⟨hk, hb, hw⟩ := wf_cons.mp hm
    simp only [write]
    split
    · rename_i hlt
      have hun : read ((k, b) :: m) a = unlisted := by
        apply read_eq_unlisted
        intro c hc
        rcases List.mem_cons.mp hc with rfl | hc
        · exact hlt
        · exact lt_trans hlt (hk c hc)
      split
      · rename_i hv
        split
        · rename_i hx; subst hx; rw [hun, hv]
        · rfl
      · rw [read_cons]
        split <;> split <;> first | rfl | omega
    · split
      · rename_i _ hak
        subst hak
        split
        · rename_i hv
          split
          · rename_i hx; subst hx; rw [hv]; exact read_eq_unlisted hk
          · rw [read_cons, if_neg (by omega)]
        · rw [read_cons, read_cons]
          split <;> split <;> first | rfl | omega
      · rw [read_cons, read_cons, ih hw]
        split <;> split <;> first | rfl | omega

/-- The addresses of a memory after a store. -/
theorem mem_write {m : Memory} {a : Nat} {v : Byte} {c : Host.Cell} (h : c ∈ write m a v) : c ∈ m ∨ c.1 = a := by
  induction m with
  | nil =>
    simp only [write] at h
    split at h
    · simp at h
    · simp only [List.mem_singleton] at h; exact .inr (by rw [h])
  | cons d m ih =>
    obtain ⟨k, b⟩ := d
    simp only [write] at h
    split at h
    · split at h
      · exact .inl h
      · rcases List.mem_cons.mp h with rfl | h
        · exact .inr rfl
        · exact .inl h
    · split at h
      · split at h
        · exact .inl (List.mem_cons_of_mem _ h)
        · rcases List.mem_cons.mp h with rfl | h
          · exact .inr rfl
          · exact .inl (List.mem_cons_of_mem _ h)
      · rcases List.mem_cons.mp h with rfl | h
        · exact .inl List.mem_cons_self
        · rcases ih h with h | h
          · exact .inl (List.mem_cons_of_mem _ h)
          · exact .inr h

/-- A store keeps the canonical form. -/
theorem wf_write {m : Memory} (hm : wf m) (a : Nat) (v : Byte) : wf (write m a v) := by
  induction m with
  | nil =>
    simp only [write]
    split
    · exact wf_nil
    · exact wf_cons.mpr ⟨by simp, by assumption, wf_nil⟩
  | cons c m ih =>
    obtain ⟨k, b⟩ := c
    obtain ⟨hk, hb, hw⟩ := wf_cons.mp hm
    simp only [write]
    split
    · rename_i hlt
      split
      · exact hm
      · refine wf_cons.mpr ⟨?_, by assumption, hm⟩
        intro c hc
        rcases List.mem_cons.mp hc with rfl | hc
        · exact hlt
        · exact lt_trans hlt (hk c hc)
    · split
      · rename_i _ hak
        subst hak
        split
        · exact hw
        · exact wf_cons.mpr ⟨hk, by assumption, hw⟩
      · refine wf_cons.mpr ⟨?_, hb, ih hw⟩
        intro c hc
        rcases mem_write hc with hc | hc
        · exact hk c hc
        · omega

theorem wf_writeWord {m : Memory} (hm : wf m) (a : Nat) (v : Word) : wf (writeWord m a v) := by
  unfold writeWord
  exact wf_write (wf_write (wf_write (wf_write hm _ _) _ _) _ _) _ _

theorem wf_writeWords {m : Memory} (hm : wf m) (a : Nat) (vs : List Word) : wf (writeWords m a vs) := by
  induction vs generalizing m a with
  | nil => exact hm
  | cons v vs ih => exact ih (wf_writeWord hm a v) (a + 4)

/-- The addresses of a memory after a word store. -/
theorem mem_writeWord {m : Memory} {a : Nat} {v : Word} {c : Host.Cell} (h : c ∈ writeWord m a v) :
    c ∈ m ∨ (a ≤ c.1 ∧ c.1 < a + 4) := by
  unfold writeWord at h
  rcases mem_write h with h | h
  · rcases mem_write h with h | h
    · rcases mem_write h with h | h
      · rcases mem_write h with h | h
        · exact .inl h
        · exact .inr (by omega)
      · exact .inr (by omega)
    · exact .inr (by omega)
  · exact .inr (by omega)

/-- The addresses of a memory after consecutive word stores. -/
theorem mem_writeWords {m : Memory} {a : Nat} {vs : List Word} {c : Host.Cell} (h : c ∈ writeWords m a vs) :
    c ∈ m ∨ (a ≤ c.1 ∧ c.1 < a + 4 * vs.length) := by
  induction vs generalizing m a with
  | nil => exact .inl h
  | cons v vs ih =>
    simp only [List.length_cons]
    rcases ih h with h | h
    · rcases mem_writeWord h with h | h
      · exact .inl h
      · exact .inr (by omega)
    · exact .inr (by omega)

/-- Reading one byte after a word store, outside the word. -/
theorem read_writeWord_of_outside {m : Memory} (hm : wf m) {a x : Nat} (v : Word) (h : x < a ∨ a + 4 ≤ x) :
    read (writeWord m a v) x = read m x := by
  unfold writeWord
  rw [read_write (wf_write (wf_write (wf_write hm _ _) _ _) _ _), if_neg (by omega),
    read_write (wf_write (wf_write hm _ _) _ _), if_neg (by omega), read_write (wf_write hm _ _), if_neg (by omega),
    read_write hm, if_neg (by omega)]

theorem append_bytes (v : Word) :
    v.extractLsb' 24 8 ++ v.extractLsb' 16 8 ++ v.extractLsb' 8 8 ++ v.extractLsb' 0 8 = v := by
  apply BitVec.eq_of_getLsbD_eq
  intro i hi
  simp only [BitVec.getLsbD_append, BitVec.getLsbD_extractLsb']
  by_cases h1 : i < 8
  · simp [h1]
  · by_cases h2 : i - 8 < 8
    · simp [h1, h2]; congr 1; omega
    · by_cases h3 : i - 8 - 8 < 8
      · simp [h1, h2, h3]; congr 1; omega
      · have : i - 8 - 8 - 8 < 8 := by omega
        simp [h1, h2, h3, this]; congr 1; omega

/-- `MemRead(a, 4)` after `MemWrite(a, 4, v)` (R81). -/
theorem readWord_writeWord_same {m : Memory} (hm : wf m) (a : Nat) (v : Word) : readWord (writeWord m a v) a = v := by
  have h1 := wf_write hm a (v.extractLsb' 0 8)
  have h2 := wf_write h1 (a + 1) (v.extractLsb' 8 8)
  have h3 := wf_write h2 (a + 2) (v.extractLsb' 16 8)
  have e0 : read (writeWord m a v) a = v.extractLsb' 0 8 := by
    unfold writeWord
    rw [read_write h3, if_neg (by omega), read_write h2, if_neg (by omega), read_write h1, if_neg (by omega),
      read_write hm, if_pos rfl]
  have e1 : read (writeWord m a v) (a + 1) = v.extractLsb' 8 8 := by
    unfold writeWord
    rw [read_write h3, if_neg (by omega), read_write h2, if_neg (by omega), read_write h1, if_pos rfl]
  have e2 : read (writeWord m a v) (a + 2) = v.extractLsb' 16 8 := by
    unfold writeWord
    rw [read_write h3, if_neg (by omega), read_write h2, if_pos rfl]
  have e3 : read (writeWord m a v) (a + 3) = v.extractLsb' 24 8 := by
    unfold writeWord
    rw [read_write h3, if_pos rfl]
  simp only [readWord, e0, e1, e2, e3]
  exact append_bytes v

/-- Words that agree byte by byte. -/
theorem readWord_congr {m m' : Memory} {a : Nat} (h : ∀ x, a ≤ x → x < a + 4 → read m x = read m' x) :
    readWord m a = readWord m' a := by
  simp only [readWord]
  rw [h a (by omega) (by omega), h (a + 1) (by omega) (by omega), h (a + 2) (by omega) (by omega),
    h (a + 3) (by omega) (by omega)]

/-- A word store leaves every word apart from it alone. -/
theorem readWord_writeWord_of_apart {m : Memory} (hm : wf m) {a b : Nat} (v : Word) (h : b + 4 ≤ a ∨ a + 4 ≤ b) :
    readWord (writeWord m a v) b = readWord m b :=
  readWord_congr (fun _ _ _ => read_writeWord_of_outside hm v (by omega))

/-- Consecutive word stores leave every byte outside them alone. -/
theorem read_writeWords_of_outside {m : Memory} (hm : wf m) {a x : Nat} (vs : List Word)
    (h : x < a ∨ a + 4 * vs.length ≤ x) : read (writeWords m a vs) x = read m x := by
  induction vs generalizing m a with
  | nil => rfl
  | cons v vs ih =>
    simp only [List.length_cons] at h
    rw [writeWords, ih (wf_writeWord hm a v) (by omega), read_writeWord_of_outside hm v (by omega)]

theorem readWord_writeWords_of_apart {m : Memory} (hm : wf m) {a b : Nat} (vs : List Word)
    (h : b + 4 ≤ a ∨ a + 4 * vs.length ≤ b) : readWord (writeWords m a vs) b = readWord m b :=
  readWord_congr (fun _ _ _ => read_writeWords_of_outside hm vs (by omega))

/-- The j-th of consecutive words reads back. -/
theorem readWord_writeWords {m : Memory} (hm : wf m) (a : Nat) (vs : List Word) (j : Nat) (hj : j < vs.length) :
    readWord (writeWords m a vs) (a + 4 * j) = vs[j] := by
  induction vs generalizing m a j with
  | nil => simp at hj
  | cons v vs ih =>
    rw [writeWords]
    cases j with
    | zero =>
      rw [readWord_writeWords_of_apart (wf_writeWord hm a v) vs (by omega)]
      exact readWord_writeWord_same hm a v
    | succ j =>
      have := ih (wf_writeWord hm a v) (a + 4) j (by simpa using hj)
      rw [show a + 4 * (j + 1) = a + 4 + 4 * j by ring, this]
      rfl

end Memory

end Sys2Proof.Machine
end

