-- ==== Sys2Proof/Laws/State.lean ====
section
/-! SUPPORT. One lemma per field per update of `State`, so that no later proof unfolds a record update. -/

namespace Sys2Proof.Machine

variable (s : State)

/-! `setArgq` -/

@[simp] theorem State.setArgq_config (x : List Word) : (s.setArgq x).config = s.config := rfl
@[simp] theorem State.setArgq_hwHealthy (x : List Word) : (s.setArgq x).hwHealthy = s.hwHealthy := rfl
@[simp] theorem State.setArgq_argq (x : List Word) : (s.setArgq x).argq = x := rfl
@[simp] theorem State.setArgq_result (x : List Word) : (s.setArgq x).result = s.result := rfl
@[simp] theorem State.setArgq_waiting (x : List Word) : (s.setArgq x).waiting = s.waiting := rfl
@[simp] theorem State.setArgq_life (x : List Word) : (s.setArgq x).life = s.life := rfl
@[simp] theorem State.setArgq_owned (x : List Word) : (s.setArgq x).owned = s.owned := rfl
@[simp] theorem State.setArgq_mem (x : List Word) : (s.setArgq x).mem = s.mem := rfl
@[simp] theorem State.setArgq_dmac (x : List Word) : (s.setArgq x).dmac = s.dmac := rfl
@[simp] theorem State.setArgq_clk (x : List Word) : (s.setArgq x).clk = s.clk := rfl
@[simp] theorem State.setArgq_dma (x : List Word) : (s.setArgq x).dma = s.dma := rfl
@[simp] theorem State.setArgq_env (x : List Word) : (s.setArgq x).env = s.env := rfl
@[simp] theorem State.setArgq_ser0 (x : List Word) : (s.setArgq x).ser0 = s.ser0 := rfl
@[simp] theorem State.setArgq_ser1 (x : List Word) : (s.setArgq x).ser1 = s.ser1 := rfl
@[simp] theorem State.setArgq_ser (x : List Word) (c : Chan) : (s.setArgq x).ser c = s.ser c := by cases c <;> rfl

/-! `setResult` -/

@[simp] theorem State.setResult_config (x : Result) : (s.setResult x).config = s.config := rfl
@[simp] theorem State.setResult_hwHealthy (x : Result) : (s.setResult x).hwHealthy = s.hwHealthy := rfl
@[simp] theorem State.setResult_argq (x : Result) : (s.setResult x).argq = s.argq := rfl
@[simp] theorem State.setResult_result (x : Result) : (s.setResult x).result = x := rfl
@[simp] theorem State.setResult_waiting (x : Result) : (s.setResult x).waiting = s.waiting := rfl
@[simp] theorem State.setResult_life (x : Result) : (s.setResult x).life = s.life := rfl
@[simp] theorem State.setResult_owned (x : Result) : (s.setResult x).owned = s.owned := rfl
@[simp] theorem State.setResult_mem (x : Result) : (s.setResult x).mem = s.mem := rfl
@[simp] theorem State.setResult_dmac (x : Result) : (s.setResult x).dmac = s.dmac := rfl
@[simp] theorem State.setResult_clk (x : Result) : (s.setResult x).clk = s.clk := rfl
@[simp] theorem State.setResult_dma (x : Result) : (s.setResult x).dma = s.dma := rfl
@[simp] theorem State.setResult_env (x : Result) : (s.setResult x).env = s.env := rfl
@[simp] theorem State.setResult_ser0 (x : Result) : (s.setResult x).ser0 = s.ser0 := rfl
@[simp] theorem State.setResult_ser1 (x : Result) : (s.setResult x).ser1 = s.ser1 := rfl
@[simp] theorem State.setResult_ser (x : Result) (c : Chan) : (s.setResult x).ser c = s.ser c := by cases c <;> rfl

/-! `setWaiting` -/

@[simp] theorem State.setWaiting_config (x : Bool) : (s.setWaiting x).config = s.config := rfl
@[simp] theorem State.setWaiting_hwHealthy (x : Bool) : (s.setWaiting x).hwHealthy = s.hwHealthy := rfl
@[simp] theorem State.setWaiting_argq (x : Bool) : (s.setWaiting x).argq = s.argq := rfl
@[simp] theorem State.setWaiting_result (x : Bool) : (s.setWaiting x).result = s.result := rfl
@[simp] theorem State.setWaiting_waiting (x : Bool) : (s.setWaiting x).waiting = x := rfl
@[simp] theorem State.setWaiting_life (x : Bool) : (s.setWaiting x).life = s.life := rfl
@[simp] theorem State.setWaiting_owned (x : Bool) : (s.setWaiting x).owned = s.owned := rfl
@[simp] theorem State.setWaiting_mem (x : Bool) : (s.setWaiting x).mem = s.mem := rfl
@[simp] theorem State.setWaiting_dmac (x : Bool) : (s.setWaiting x).dmac = s.dmac := rfl
@[simp] theorem State.setWaiting_clk (x : Bool) : (s.setWaiting x).clk = s.clk := rfl
@[simp] theorem State.setWaiting_dma (x : Bool) : (s.setWaiting x).dma = s.dma := rfl
@[simp] theorem State.setWaiting_env (x : Bool) : (s.setWaiting x).env = s.env := rfl
@[simp] theorem State.setWaiting_ser0 (x : Bool) : (s.setWaiting x).ser0 = s.ser0 := rfl
@[simp] theorem State.setWaiting_ser1 (x : Bool) : (s.setWaiting x).ser1 = s.ser1 := rfl
@[simp] theorem State.setWaiting_ser (x : Bool) (c : Chan) : (s.setWaiting x).ser c = s.ser c := by cases c <;> rfl

/-! `setLife` -/

@[simp] theorem State.setLife_config (x : Life) : (s.setLife x).config = s.config := rfl
@[simp] theorem State.setLife_hwHealthy (x : Life) : (s.setLife x).hwHealthy = s.hwHealthy := rfl
@[simp] theorem State.setLife_argq (x : Life) : (s.setLife x).argq = s.argq := rfl
@[simp] theorem State.setLife_result (x : Life) : (s.setLife x).result = s.result := rfl
@[simp] theorem State.setLife_waiting (x : Life) : (s.setLife x).waiting = s.waiting := rfl
@[simp] theorem State.setLife_life (x : Life) : (s.setLife x).life = x := rfl
@[simp] theorem State.setLife_owned (x : Life) : (s.setLife x).owned = s.owned := rfl
@[simp] theorem State.setLife_mem (x : Life) : (s.setLife x).mem = s.mem := rfl
@[simp] theorem State.setLife_dmac (x : Life) : (s.setLife x).dmac = s.dmac := rfl
@[simp] theorem State.setLife_clk (x : Life) : (s.setLife x).clk = s.clk := rfl
@[simp] theorem State.setLife_dma (x : Life) : (s.setLife x).dma = s.dma := rfl
@[simp] theorem State.setLife_env (x : Life) : (s.setLife x).env = s.env := rfl
@[simp] theorem State.setLife_ser0 (x : Life) : (s.setLife x).ser0 = s.ser0 := rfl
@[simp] theorem State.setLife_ser1 (x : Life) : (s.setLife x).ser1 = s.ser1 := rfl
@[simp] theorem State.setLife_ser (x : Life) (c : Chan) : (s.setLife x).ser c = s.ser c := by cases c <;> rfl

/-! `setOwned` -/

@[simp] theorem State.setOwned_config (x : Bool) : (s.setOwned x).config = s.config := rfl
@[simp] theorem State.setOwned_hwHealthy (x : Bool) : (s.setOwned x).hwHealthy = s.hwHealthy := rfl
@[simp] theorem State.setOwned_argq (x : Bool) : (s.setOwned x).argq = s.argq := rfl
@[simp] theorem State.setOwned_result (x : Bool) : (s.setOwned x).result = s.result := rfl
@[simp] theorem State.setOwned_waiting (x : Bool) : (s.setOwned x).waiting = s.waiting := rfl
@[simp] theorem State.setOwned_life (x : Bool) : (s.setOwned x).life = s.life := rfl
@[simp] theorem State.setOwned_owned (x : Bool) : (s.setOwned x).owned = x := rfl
@[simp] theorem State.setOwned_mem (x : Bool) : (s.setOwned x).mem = s.mem := rfl
@[simp] theorem State.setOwned_dmac (x : Bool) : (s.setOwned x).dmac = s.dmac := rfl
@[simp] theorem State.setOwned_clk (x : Bool) : (s.setOwned x).clk = s.clk := rfl
@[simp] theorem State.setOwned_dma (x : Bool) : (s.setOwned x).dma = s.dma := rfl
@[simp] theorem State.setOwned_env (x : Bool) : (s.setOwned x).env = s.env := rfl
@[simp] theorem State.setOwned_ser0 (x : Bool) : (s.setOwned x).ser0 = s.ser0 := rfl
@[simp] theorem State.setOwned_ser1 (x : Bool) : (s.setOwned x).ser1 = s.ser1 := rfl
@[simp] theorem State.setOwned_ser (x : Bool) (c : Chan) : (s.setOwned x).ser c = s.ser c := by cases c <;> rfl

/-! `setMem` -/

@[simp] theorem State.setMem_config (x : Memory) : (s.setMem x).config = s.config := rfl
@[simp] theorem State.setMem_hwHealthy (x : Memory) : (s.setMem x).hwHealthy = s.hwHealthy := rfl
@[simp] theorem State.setMem_argq (x : Memory) : (s.setMem x).argq = s.argq := rfl
@[simp] theorem State.setMem_result (x : Memory) : (s.setMem x).result = s.result := rfl
@[simp] theorem State.setMem_waiting (x : Memory) : (s.setMem x).waiting = s.waiting := rfl
@[simp] theorem State.setMem_life (x : Memory) : (s.setMem x).life = s.life := rfl
@[simp] theorem State.setMem_owned (x : Memory) : (s.setMem x).owned = s.owned := rfl
@[simp] theorem State.setMem_mem (x : Memory) : (s.setMem x).mem = x := rfl
@[simp] theorem State.setMem_dmac (x : Memory) : (s.setMem x).dmac = s.dmac := rfl
@[simp] theorem State.setMem_clk (x : Memory) : (s.setMem x).clk = s.clk := rfl
@[simp] theorem State.setMem_dma (x : Memory) : (s.setMem x).dma = s.dma := rfl
@[simp] theorem State.setMem_env (x : Memory) : (s.setMem x).env = s.env := rfl
@[simp] theorem State.setMem_ser0 (x : Memory) : (s.setMem x).ser0 = s.ser0 := rfl
@[simp] theorem State.setMem_ser1 (x : Memory) : (s.setMem x).ser1 = s.ser1 := rfl
@[simp] theorem State.setMem_ser (x : Memory) (c : Chan) : (s.setMem x).ser c = s.ser c := by cases c <;> rfl

/-! `setDmac` -/

@[simp] theorem State.setDmac_config (x : Bool) : (s.setDmac x).config = s.config := rfl
@[simp] theorem State.setDmac_hwHealthy (x : Bool) : (s.setDmac x).hwHealthy = s.hwHealthy := rfl
@[simp] theorem State.setDmac_argq (x : Bool) : (s.setDmac x).argq = s.argq := rfl
@[simp] theorem State.setDmac_result (x : Bool) : (s.setDmac x).result = s.result := rfl
@[simp] theorem State.setDmac_waiting (x : Bool) : (s.setDmac x).waiting = s.waiting := rfl
@[simp] theorem State.setDmac_life (x : Bool) : (s.setDmac x).life = s.life := rfl
@[simp] theorem State.setDmac_owned (x : Bool) : (s.setDmac x).owned = s.owned := rfl
@[simp] theorem State.setDmac_mem (x : Bool) : (s.setDmac x).mem = s.mem := rfl
@[simp] theorem State.setDmac_dmac (x : Bool) : (s.setDmac x).dmac = x := rfl
@[simp] theorem State.setDmac_clk (x : Bool) : (s.setDmac x).clk = s.clk := rfl
@[simp] theorem State.setDmac_dma (x : Bool) : (s.setDmac x).dma = s.dma := rfl
@[simp] theorem State.setDmac_env (x : Bool) : (s.setDmac x).env = s.env := rfl
@[simp] theorem State.setDmac_ser0 (x : Bool) : (s.setDmac x).ser0 = s.ser0 := rfl
@[simp] theorem State.setDmac_ser1 (x : Bool) : (s.setDmac x).ser1 = s.ser1 := rfl
@[simp] theorem State.setDmac_ser (x : Bool) (c : Chan) : (s.setDmac x).ser c = s.ser c := by cases c <;> rfl

/-! `setClk` -/

@[simp] theorem State.setClk_config (x : Clk) : (s.setClk x).config = s.config := rfl
@[simp] theorem State.setClk_hwHealthy (x : Clk) : (s.setClk x).hwHealthy = s.hwHealthy := rfl
@[simp] theorem State.setClk_argq (x : Clk) : (s.setClk x).argq = s.argq := rfl
@[simp] theorem State.setClk_result (x : Clk) : (s.setClk x).result = s.result := rfl
@[simp] theorem State.setClk_waiting (x : Clk) : (s.setClk x).waiting = s.waiting := rfl
@[simp] theorem State.setClk_life (x : Clk) : (s.setClk x).life = s.life := rfl
@[simp] theorem State.setClk_owned (x : Clk) : (s.setClk x).owned = s.owned := rfl
@[simp] theorem State.setClk_mem (x : Clk) : (s.setClk x).mem = s.mem := rfl
@[simp] theorem State.setClk_dmac (x : Clk) : (s.setClk x).dmac = s.dmac := rfl
@[simp] theorem State.setClk_clk (x : Clk) : (s.setClk x).clk = x := rfl
@[simp] theorem State.setClk_dma (x : Clk) : (s.setClk x).dma = s.dma := rfl
@[simp] theorem State.setClk_env (x : Clk) : (s.setClk x).env = s.env := rfl
@[simp] theorem State.setClk_ser0 (x : Clk) : (s.setClk x).ser0 = s.ser0 := rfl
@[simp] theorem State.setClk_ser1 (x : Clk) : (s.setClk x).ser1 = s.ser1 := rfl
@[simp] theorem State.setClk_ser (x : Clk) (c : Chan) : (s.setClk x).ser c = s.ser c := by cases c <;> rfl

/-! `setDma` -/

@[simp] theorem State.setDma_config (x : Dma) : (s.setDma x).config = s.config := rfl
@[simp] theorem State.setDma_hwHealthy (x : Dma) : (s.setDma x).hwHealthy = s.hwHealthy := rfl
@[simp] theorem State.setDma_argq (x : Dma) : (s.setDma x).argq = s.argq := rfl
@[simp] theorem State.setDma_result (x : Dma) : (s.setDma x).result = s.result := rfl
@[simp] theorem State.setDma_waiting (x : Dma) : (s.setDma x).waiting = s.waiting := rfl
@[simp] theorem State.setDma_life (x : Dma) : (s.setDma x).life = s.life := rfl
@[simp] theorem State.setDma_owned (x : Dma) : (s.setDma x).owned = s.owned := rfl
@[simp] theorem State.setDma_mem (x : Dma) : (s.setDma x).mem = s.mem := rfl
@[simp] theorem State.setDma_dmac (x : Dma) : (s.setDma x).dmac = s.dmac := rfl
@[simp] theorem State.setDma_clk (x : Dma) : (s.setDma x).clk = s.clk := rfl
@[simp] theorem State.setDma_dma (x : Dma) : (s.setDma x).dma = x := rfl
@[simp] theorem State.setDma_env (x : Dma) : (s.setDma x).env = s.env := rfl
@[simp] theorem State.setDma_ser0 (x : Dma) : (s.setDma x).ser0 = s.ser0 := rfl
@[simp] theorem State.setDma_ser1 (x : Dma) : (s.setDma x).ser1 = s.ser1 := rfl
@[simp] theorem State.setDma_ser (x : Dma) (c : Chan) : (s.setDma x).ser c = s.ser c := by cases c <;> rfl

/-! `setEnv` -/

@[simp] theorem State.setEnv_config (x : Env) : (s.setEnv x).config = s.config := rfl
@[simp] theorem State.setEnv_hwHealthy (x : Env) : (s.setEnv x).hwHealthy = s.hwHealthy := rfl
@[simp] theorem State.setEnv_argq (x : Env) : (s.setEnv x).argq = s.argq := rfl
@[simp] theorem State.setEnv_result (x : Env) : (s.setEnv x).result = s.result := rfl
@[simp] theorem State.setEnv_waiting (x : Env) : (s.setEnv x).waiting = s.waiting := rfl
@[simp] theorem State.setEnv_life (x : Env) : (s.setEnv x).life = s.life := rfl
@[simp] theorem State.setEnv_owned (x : Env) : (s.setEnv x).owned = s.owned := rfl
@[simp] theorem State.setEnv_mem (x : Env) : (s.setEnv x).mem = s.mem := rfl
@[simp] theorem State.setEnv_dmac (x : Env) : (s.setEnv x).dmac = s.dmac := rfl
@[simp] theorem State.setEnv_clk (x : Env) : (s.setEnv x).clk = s.clk := rfl
@[simp] theorem State.setEnv_dma (x : Env) : (s.setEnv x).dma = s.dma := rfl
@[simp] theorem State.setEnv_env (x : Env) : (s.setEnv x).env = x := rfl
@[simp] theorem State.setEnv_ser0 (x : Env) : (s.setEnv x).ser0 = s.ser0 := rfl
@[simp] theorem State.setEnv_ser1 (x : Env) : (s.setEnv x).ser1 = s.ser1 := rfl
@[simp] theorem State.setEnv_ser (x : Env) (c : Chan) : (s.setEnv x).ser c = s.ser c := by cases c <;> rfl

/-! `setSer` -/

@[simp] theorem State.setSer_config (c : Chan) (x : Serializer) : (s.setSer c x).config = s.config := by cases c <;> rfl
@[simp] theorem State.setSer_hwHealthy (c : Chan) (x : Serializer) : (s.setSer c x).hwHealthy = s.hwHealthy := by cases c <;> rfl
@[simp] theorem State.setSer_argq (c : Chan) (x : Serializer) : (s.setSer c x).argq = s.argq := by cases c <;> rfl
@[simp] theorem State.setSer_result (c : Chan) (x : Serializer) : (s.setSer c x).result = s.result := by cases c <;> rfl
@[simp] theorem State.setSer_waiting (c : Chan) (x : Serializer) : (s.setSer c x).waiting = s.waiting := by cases c <;> rfl
@[simp] theorem State.setSer_life (c : Chan) (x : Serializer) : (s.setSer c x).life = s.life := by cases c <;> rfl
@[simp] theorem State.setSer_owned (c : Chan) (x : Serializer) : (s.setSer c x).owned = s.owned := by cases c <;> rfl
@[simp] theorem State.setSer_mem (c : Chan) (x : Serializer) : (s.setSer c x).mem = s.mem := by cases c <;> rfl
@[simp] theorem State.setSer_dmac (c : Chan) (x : Serializer) : (s.setSer c x).dmac = s.dmac := by cases c <;> rfl
@[simp] theorem State.setSer_clk (c : Chan) (x : Serializer) : (s.setSer c x).clk = s.clk := by cases c <;> rfl
@[simp] theorem State.setSer_dma (c : Chan) (x : Serializer) : (s.setSer c x).dma = s.dma := by cases c <;> rfl
@[simp] theorem State.setSer_env (c : Chan) (x : Serializer) : (s.setSer c x).env = s.env := by cases c <;> rfl
@[simp] theorem State.setSer_ser_same (c : Chan) (x : Serializer) : (s.setSer c x).ser c = x := by cases c <;> rfl
@[simp] theorem State.setSer_ser_c0_c1 (x : Serializer) : (s.setSer .c0 x).ser .c1 = s.ser .c1 := rfl
@[simp] theorem State.setSer_ser_c1_c0 (x : Serializer) : (s.setSer .c1 x).ser .c0 = s.ser .c0 := rfl
theorem State.setSer_ser_ne {c e : Chan} (x : Serializer) (h : e ≠ c) : (s.setSer c x).ser e = s.ser e := by
  cases c <;> cases e <;> first | rfl | exact absurd rfl h
@[simp] theorem State.ser_c0 : s.ser .c0 = s.ser0 := rfl
@[simp] theorem State.ser_c1 : s.ser .c1 = s.ser1 := rfl
@[simp] theorem State.setSer_c0_ser0 (x : Serializer) : (s.setSer .c0 x).ser0 = x := rfl
@[simp] theorem State.setSer_c0_ser1 (x : Serializer) : (s.setSer .c0 x).ser1 = s.ser1 := rfl
@[simp] theorem State.setSer_c1_ser0 (x : Serializer) : (s.setSer .c1 x).ser0 = s.ser0 := rfl
@[simp] theorem State.setSer_c1_ser1 (x : Serializer) : (s.setSer .c1 x).ser1 = x := rfl

/-! The taking of turns, draws, host accesses and read data touches the inputs only. -/

@[simp] theorem State.dropTurn_config : (s.dropTurn).config = s.config := rfl
@[simp] theorem State.dropTurn_hwHealthy : (s.dropTurn).hwHealthy = s.hwHealthy := rfl
@[simp] theorem State.dropTurn_argq : (s.dropTurn).argq = s.argq := rfl
@[simp] theorem State.dropTurn_result : (s.dropTurn).result = s.result := rfl
@[simp] theorem State.dropTurn_waiting : (s.dropTurn).waiting = s.waiting := rfl
@[simp] theorem State.dropTurn_life : (s.dropTurn).life = s.life := rfl
@[simp] theorem State.dropTurn_owned : (s.dropTurn).owned = s.owned := rfl
@[simp] theorem State.dropTurn_mem : (s.dropTurn).mem = s.mem := rfl
@[simp] theorem State.dropTurn_dmac : (s.dropTurn).dmac = s.dmac := rfl
@[simp] theorem State.dropTurn_clk : (s.dropTurn).clk = s.clk := rfl
@[simp] theorem State.dropTurn_dma : (s.dropTurn).dma = s.dma := rfl
@[simp] theorem State.dropTurn_ser0 : (s.dropTurn).ser0 = s.ser0 := rfl
@[simp] theorem State.dropTurn_ser1 : (s.dropTurn).ser1 = s.ser1 := rfl
@[simp] theorem State.dropTurn_ser (c : Chan) : (s.dropTurn).ser c = s.ser c := by cases c <;> rfl

@[simp] theorem State.dropDraw_config : (s.dropDraw).config = s.config := rfl
@[simp] theorem State.dropDraw_hwHealthy : (s.dropDraw).hwHealthy = s.hwHealthy := rfl
@[simp] theorem State.dropDraw_argq : (s.dropDraw).argq = s.argq := rfl
@[simp] theorem State.dropDraw_result : (s.dropDraw).result = s.result := rfl
@[simp] theorem State.dropDraw_waiting : (s.dropDraw).waiting = s.waiting := rfl
@[simp] theorem State.dropDraw_life : (s.dropDraw).life = s.life := rfl
@[simp] theorem State.dropDraw_owned : (s.dropDraw).owned = s.owned := rfl
@[simp] theorem State.dropDraw_mem : (s.dropDraw).mem = s.mem := rfl
@[simp] theorem State.dropDraw_dmac : (s.dropDraw).dmac = s.dmac := rfl
@[simp] theorem State.dropDraw_clk : (s.dropDraw).clk = s.clk := rfl
@[simp] theorem State.dropDraw_dma : (s.dropDraw).dma = s.dma := rfl
@[simp] theorem State.dropDraw_ser0 : (s.dropDraw).ser0 = s.ser0 := rfl
@[simp] theorem State.dropDraw_ser1 : (s.dropDraw).ser1 = s.ser1 := rfl
@[simp] theorem State.dropDraw_ser (c : Chan) : (s.dropDraw).ser c = s.ser c := by cases c <;> rfl

@[simp] theorem State.dropHost_config : (s.dropHost).config = s.config := rfl
@[simp] theorem State.dropHost_hwHealthy : (s.dropHost).hwHealthy = s.hwHealthy := rfl
@[simp] theorem State.dropHost_argq : (s.dropHost).argq = s.argq := rfl
@[simp] theorem State.dropHost_result : (s.dropHost).result = s.result := rfl
@[simp] theorem State.dropHost_waiting : (s.dropHost).waiting = s.waiting := rfl
@[simp] theorem State.dropHost_life : (s.dropHost).life = s.life := rfl
@[simp] theorem State.dropHost_owned : (s.dropHost).owned = s.owned := rfl
@[simp] theorem State.dropHost_mem : (s.dropHost).mem = s.mem := rfl
@[simp] theorem State.dropHost_dmac : (s.dropHost).dmac = s.dmac := rfl
@[simp] theorem State.dropHost_clk : (s.dropHost).clk = s.clk := rfl
@[simp] theorem State.dropHost_dma : (s.dropHost).dma = s.dma := rfl
@[simp] theorem State.dropHost_ser0 : (s.dropHost).ser0 = s.ser0 := rfl
@[simp] theorem State.dropHost_ser1 : (s.dropHost).ser1 = s.ser1 := rfl
@[simp] theorem State.dropHost_ser (c : Chan) : (s.dropHost).ser c = s.ser c := by cases c <;> rfl

@[simp] theorem State.setRdata_config (v : Word) : (s.setRdata v).config = s.config := rfl
@[simp] theorem State.setRdata_hwHealthy (v : Word) : (s.setRdata v).hwHealthy = s.hwHealthy := rfl
@[simp] theorem State.setRdata_argq (v : Word) : (s.setRdata v).argq = s.argq := rfl
@[simp] theorem State.setRdata_result (v : Word) : (s.setRdata v).result = s.result := rfl
@[simp] theorem State.setRdata_waiting (v : Word) : (s.setRdata v).waiting = s.waiting := rfl
@[simp] theorem State.setRdata_life (v : Word) : (s.setRdata v).life = s.life := rfl
@[simp] theorem State.setRdata_owned (v : Word) : (s.setRdata v).owned = s.owned := rfl
@[simp] theorem State.setRdata_mem (v : Word) : (s.setRdata v).mem = s.mem := rfl
@[simp] theorem State.setRdata_dmac (v : Word) : (s.setRdata v).dmac = s.dmac := rfl
@[simp] theorem State.setRdata_clk (v : Word) : (s.setRdata v).clk = s.clk := rfl
@[simp] theorem State.setRdata_dma (v : Word) : (s.setRdata v).dma = s.dma := rfl
@[simp] theorem State.setRdata_ser0 (v : Word) : (s.setRdata v).ser0 = s.ser0 := rfl
@[simp] theorem State.setRdata_ser1 (v : Word) : (s.setRdata v).ser1 = s.ser1 := rfl
@[simp] theorem State.setRdata_ser (v : Word) (c : Chan) : (s.setRdata v).ser c = s.ser c := by cases c <;> rfl

end Sys2Proof.Machine
end

