-- ==== Sys2Proof/Laws/Ops.lean ====
section
/-! SUPPORT. One lemma per shared operation: the state it answers as an update of the fields it writes, so that a proof cites
the lemma and never unfolds the operation. -/

namespace Sys2Proof.Machine

/-! ### Single register writes -/

theorem State.report_eq (s : State) (code : ResultCode) (origin : BitVec 16) :
    s.report code origin = { s with result := ⟨code, origin⟩ } := rfl

theorem State.setWaiting_eq (s : State) (x : Bool) : s.setWaiting x = { s with waiting := x } := rfl

theorem State.setResult_eq (s : State) (x : Result) : s.setResult x = { s with result := x } := rfl

theorem State.setLife_eq (s : State) (x : Life) : s.setLife x = { s with life := x } := rfl

theorem State.setDma_eq (s : State) (x : Dma) : s.setDma x = { s with dma := x } := rfl

theorem State.setMem_eq (s : State) (x : Memory) : s.setMem x = { s with mem := x } := rfl

theorem State.setArgq_eq (s : State) (x : List Word) : s.setArgq x = { s with argq := x } := rfl

/-- Two states whose fields agree, with the serializers compared by channel. -/
theorem State.ext_ser {s t : State} (hc : s.config = t.config) (hh : s.hwHealthy = t.hwHealthy) (ha : s.argq = t.argq)
    (hr : s.result = t.result) (hw : s.waiting = t.waiting) (hl : s.life = t.life) (ho : s.owned = t.owned)
    (hm : s.mem = t.mem) (hs : ∀ c, s.ser c = t.ser c) (hd : s.dmac = t.dmac) (hk : s.clk = t.clk)
    (hx : s.dma = t.dma) (he : s.env = t.env) : s = t :=
  State.ext hc hh ha hr hw hl ho hm (hs .c0) (hs .c1) hd hk hx he

/-- A write to PWM.CTL changes the serializers only (10_state.md R31). -/
theorem State.writeCtl_eq (s : State) (v : Word) :
    s.writeCtl v = { s with ser0 := s.ser0.writeCtl 0 v, ser1 := s.ser1.writeCtl 8 v } := rfl

/-- The bit of a window word that belongs to serializer c: its byte starts at bit 8c (10_state.md R31, R32). -/
theorem State.writeCtl_ser (s : State) (v : Word) (c : Chan) :
    (s.writeCtl v).ser c = (s.ser c).writeCtl (8 * c.toNat) v := by cases c <;> rfl

/-- A write to PWM.STA changes the serializers only (10_state.md R32). -/
theorem State.writeSta_eq (s : State) (v : Word) :
    s.writeSta v = { s with ser0 := s.ser0.writeSta 0 v, ser1 := s.ser1.writeSta 8 v } := rfl

theorem State.writeSta_ser (s : State) (v : Word) (c : Chan) :
    (s.writeSta v).ser c = (s.ser c).writeSta (8 * c.toNat) v := by cases c <;> rfl

theorem State.writeDmac_eq (s : State) (v : Word) : s.writeDmac v = { s with dmac := v.getLsbD 31 } := rfl

theorem State.writeClkctl_eq (s : State) (v : Word) :
    s.writeClkctl v = { s with clk := { s.clk with enab := v.getLsbD 4 } } := rfl

/-- A write to CLKDIV while BUSY is ignored (10_state.md R37). -/
theorem State.writeClkdiv_eq (s : State) (v : Word) :
    s.writeClkdiv v =
      { s with clk := if s.clk.enab then s.clk else { s.clk with divi := v.extractLsb' 12 12 } } := by
  unfold State.writeClkdiv
  split
  · simp
  · simp; rfl

theorem State.writeCs_eq (s : State) (v : Word) : s.writeCs v = { s with dma := s.dma.writeCs v } := rfl

/-- A write to CONBLK_AD while ACTIVE is ignored (10_state.md R39). -/
theorem State.writeConblkAd_eq (s : State) (v : Word) :
    s.writeConblkAd v = { s with dma := if s.dma.active then s.dma else { s.dma with conblkAd := v } } := by
  unfold State.writeConblkAd
  split
  · simp
  · simp; rfl

/-- `stop(c)` changes the DMA window only (42_dma_sequencer.md R282). -/
theorem State.stop_eq (s : State) (cause : BitVec 3) : s.stop cause = { s with dma := s.dma.stoppedWith cause } := rfl

/-- What a write to a FIFO register does (10_state.md R35). -/
theorem State.pushFifo_cases (s : State) (c : Chan) (v : Word) :
    ((s.ser c).fifo.length < s.config.fifoDepth ∧
        s.pushFifo c v = s.setSer c { s.ser c with fifo := (s.ser c).fifo ++ [v] }) ∨
      (s.config.fifoDepth ≤ (s.ser c).fifo.length ∧ s.pushFifo c v = s.setSer c { s.ser c with werr := true }) := by
  unfold State.pushFifo
  split
  · exact .inl ⟨by assumption, rfl⟩
  · exact .inr ⟨by omega, rfl⟩

/-! ### DMA.CS (10_state.md R38, 42_dma_sequencer.md R276, R285) -/

@[simp] theorem Dma.writeCs_reset (x : Dma) : x.writeCs csReset = Dma.cleared := rfl

/-- ARM's write of END and INT (42_dma_sequencer.md R262). -/
theorem Dma.writeCs_endInt (x : Dma) : x.writeCs csEndInt = { x with ended := false, int := false } := by
  obtain ⟨a, b, c, d, e, f, g, h, i, j, k, l, m, n⟩ := x
  cases b <;> cases c <;> rfl

/-- ARM's write of ACTIVE, on a sequencer that is neither active nor stopped (42_dma_sequencer.md R276). -/
theorem Dma.writeCs_active (x : Dma) (h : x.active = false) (he : x.error = false) :
    x.writeCs csActive = { x with active := true, dphase := .load } := by
  obtain ⟨a, b, c, d, e, f, g, i, j, k, l, m, n, o⟩ := x
  cases h
  cases he
  cases b <;> cases c <;> rfl

/-- The write of ACTIVE with ERROR set starts nothing (42_dma_sequencer.md R276). -/
theorem Dma.writeCs_active_error (x : Dma) (he : x.error = true) : x.writeCs csActive = x := by
  obtain ⟨a, b, c, d, e, f, g, i, j, k, l, m, n, o⟩ := x
  cases he
  cases a <;> cases b <;> cases c <;> rfl

/-! ### The device -/

@[simp] theorem Device.setPix_slot (d : Device) (c : Chan) (p : List Word) : (d.setPix c p).slot = d.slot := by
  cases c <;> rfl
@[simp] theorem Device.setPix_rsize (d : Device) (c : Chan) (p : List Word) : (d.setPix c p).rsize = d.rsize := by
  cases c <;> rfl
@[simp] theorem Device.setPix_rbase (d : Device) (c : Chan) (p : List Word) : (d.setPix c p).rbase = d.rbase := by
  cases c <;> rfl
@[simp] theorem Device.setPix_nch (d : Device) (c : Chan) (p : List Word) : (d.setPix c p).nch = d.nch := by
  cases c
  · rfl
  · simp [Device.nch, Device.setPix]
theorem Device.setPix_chan (d : Device) (c e : Chan) (p : List Word) :
    (d.setPix c p).chan e = if e = c then (d.chan c).map (fun k => { k with pix := p }) else d.chan e := by
  cases c <;> cases e <;> rfl

/-- A channel of the written device has the configuration and frame length it had. -/
theorem Device.setPix_chan_some {d : Device} {c e : Chan} {p : List Word} {k : Channel}
    (h : (d.setPix c p).chan e = some k) : ∃ k0, d.chan e = some k0 ∧ k0.cfg = k.cfg ∧ k0.words = k.words := by
  rw [Device.setPix_chan] at h
  split at h
  · rename_i he
    subst he
    obtain ⟨k0, h0, rfl⟩ := Option.map_eq_some_iff.mp h
    exact ⟨k0, h0, rfl, rfl⟩
  · exact ⟨k, h, rfl, rfl⟩

/-- Completion depends on memory, ACTIVE and the region's base alone (42_dma_sequencer.md R268). -/
theorem State.complete_congr {s t : State} {d e : Device} (hm : t.mem = s.mem) (ha : t.dma.active = s.dma.active)
    (hb : e.rbase = d.rbase) : t.complete e = s.complete d := by
  unfold State.complete State.cflag Device.cflagAddr
  rw [hm, ha, hb]

/-- Completion says CFLAG = 0 and ACTIVE = 0 (42_dma_sequencer.md R268). -/
theorem State.complete_iff (s : State) (d : Device) :
    s.complete d = true ↔ s.cflag d = 0 ∧ s.dma.active = false := by
  simp [State.complete]

/-! ### The microsequences -/

/-- A serializer after `PWM.CTL <- CLRF0 | CLRF1`: disabled, not inverted, empty (10_state.md R31). -/
theorem Serializer.writeCtl_clear (x : Serializer) (c : Chan) :
    x.writeCtl (8 * c.toNat) ctlClearFifos = { x with pwen := false, pola := false, fifo := [] } := by
  cases c <;> rfl

/-- A serializer after `PWM.STA <- WERR0 | GAPO0 | WERR1 | GAPO1` (10_state.md R32). -/
theorem Serializer.writeSta_clear (x : Serializer) (c : Chan) :
    x.writeSta (8 * c.toNat) staClearAll = { x with werr := false, gapo := false } := by
  obtain ⟨a, b, w, g, f, l, e, m⟩ := x
  cases c <;> cases w <;> cases g <;> rfl

/-- The serializer of channel c after INIT's register writes (40_controller_commands.md R169). -/
def InitPlan.serializer (q : InitPlan) (c : Chan) (x : Serializer) : Serializer :=
  match c, q.cfg1 with
  | .c0, _ => { x with pwen := true, pola := q.cfg0.invert, werr := false, gapo := false, fifo := [],
                       marks := x.marks ++ [⟨q.cfg0, x.wire.length⟩] }
  | .c1, some k1 => { x with pwen := true, pola := k1.invert, werr := false, gapo := false, fifo := [],
                             marks := x.marks ++ [⟨k1, x.wire.length⟩] }
  | .c1, none => { x with pwen := false, pola := false, werr := false, gapo := false, fifo := [] }

theorem State.writePwen_ser (s : State) (c : Chan) (b : Bool) (e : Chan) :
    (s.writePwen c b).ser e = if e = c then { s.ser e with pwen := b } else s.ser e := by
  cases c <;> cases e <;> rfl

theorem State.writePola_ser (s : State) (c : Chan) (b : Bool) (e : Chan) :
    (s.writePola c b).ser e = if e = c then { s.ser e with pola := b } else s.ser e := by
  cases c <;> cases e <;> rfl

theorem State.markInit_ser (s : State) (c : Chan) (k : ChannelConfig) (e : Chan) :
    (s.markInit c k).ser e =
      if e = c then { s.ser e with marks := (s.ser e).marks ++ [⟨k, (s.ser e).wire.length⟩] } else s.ser e := by
  cases c <;> cases e <;> rfl

/-- A channel's enable, polarity and mark (40_controller_commands.md R169). -/
theorem State.enableSer_c0_eq (s : State) (k : ChannelConfig) :
    s.enableSer .c0 k =
      { s with
        ser0 := { s.ser0 with pwen := true, pola := k.invert, marks := s.ser0.marks ++ [⟨k, s.ser0.wire.length⟩] } } :=
  rfl

theorem State.enableSer_c1_eq (s : State) (k : ChannelConfig) :
    s.enableSer .c1 k =
      { s with
        ser1 := { s.ser1 with pwen := true, pola := k.invert, marks := s.ser1.marks ++ [⟨k, s.ser1.wire.length⟩] } } :=
  rfl

/-- INIT's register writes (40_controller_commands.md R169, 70_reset_and_hazards.md R383). -/
theorem State.programHardware_eq (s : State) (q : InitPlan) :
    s.programHardware q =
      { s with
        ser0 := q.serializer .c0 s.ser0
        ser1 := q.serializer .c1 s.ser1
        dmac := true
        clk := ⟨true, (BitVec.ofNat 32 q.divi <<< 12).extractLsb' 12 12⟩
        dma := Dma.cleared } := by
  have e0 : (0#32).getLsbD 4 = false := rfl
  have e1 : clkEnab.getLsbD 4 = true := rfl
  have e2 : dmacEnab.getLsbD 31 = true := rfl
  have c0 := fun x : Serializer => Serializer.writeCtl_clear x .c0
  have c1 := fun x : Serializer => Serializer.writeCtl_clear x .c1
  have t0 := fun x : Serializer => Serializer.writeSta_clear x .c0
  have t1 := fun x : Serializer => Serializer.writeSta_clear x .c1
  simp only [Chan.toNat, Nat.mul_zero, Nat.mul_one] at c0 c1 t0 t1
  unfold State.programHardware
  cases h : q.cfg1 <;>
    simp only [State.writeClkctl_eq, State.writeClkdiv_eq, State.writeCtl_eq, State.writeSta_eq, State.writeDmac_eq,
      State.writeCs_eq, State.enableSer_c0_eq, State.enableSer_c1_eq, Dma.writeCs_reset, e0, e1, e2, c0, c1, t0, t1, h,
      InitPlan.serializer, Bool.false_eq_true, if_false]

/-- INIT's commit and register writes together (40_controller_commands.md R168, R169). -/
theorem State.commit_programHardware_eq (s : State) (q : InitPlan) (base : Word) :
    (s.commit q base).programHardware q =
      { s with
        life := .active (q.device base)
        owned := true
        mem := []
        ser0 := q.serializer .c0 s.ser0
        ser1 := q.serializer .c1 s.ser1
        dmac := true
        clk := ⟨true, (BitVec.ofNat 32 q.divi <<< 12).extractLsb' 12 12⟩
        dma := Dma.cleared } := by
  rw [State.programHardware_eq]
  rfl

/-- FINI's register writes and releases (40_controller_commands.md R171, 70_reset_and_hazards.md R384). -/
theorem State.release_eq (s : State) :
    s.release =
      { s with
        life := .finalized
        owned := false
        mem := []
        ser0 := { s.ser0 with pwen := false, pola := false, fifo := [] }
        ser1 := { s.ser1 with pwen := false, pola := false, fifo := [] }
        dmac := false
        clk := { s.clk with enab := false }
        dma := Dma.cleared } := by
  have e0 : (0#32).getLsbD 4 = false := rfl
  have e1 : (0#32).getLsbD 31 = false := rfl
  have c0 := fun x : Serializer => Serializer.writeCtl_clear x .c0
  have c1 := fun x : Serializer => Serializer.writeCtl_clear x .c1
  simp only [Chan.toNat, Nat.mul_zero, Nat.mul_one] at c0 c1
  unfold State.release
  simp only [State.writeClkctl_eq, State.writeCtl_eq, State.writeDmac_eq, State.writeCs_eq, Dma.writeCs_reset, e0, e1, c0,
    c1, State.setMem_eq, State.setOwned, State.setLife_eq]

/-- ARM, on a sequencer that is neither active nor stopped (42_dma_sequencer.md R262, R267). -/
theorem State.arm_eq (s : State) (d : Device) (h : s.dma.active = false) (he : s.dma.error = false) :
    s.arm d =
      { s with
        mem := d.armMem s.config s.mem
        dma :=
          { s.dma with active := true, ended := false, int := false, conblkAd := d.rbase, dphase := .load } } := by
  unfold State.arm
  rw [State.writeCs_eq, State.writeConblkAd_eq, State.writeCs_eq, State.setMem_eq]
  simp only [Dma.writeCs_endInt, h, Bool.false_eq_true, if_false]
  rw [Dma.writeCs_active _ (by rfl) (by exact he)]

/-- A write of 1 to ACTIVE keeps ERROR, ERRCAUSE and STALLED (42_dma_sequencer.md R276). -/
theorem Dma.writeCs_active_frame (x : Dma) :
    (x.writeCs csActive).error = x.error ∧ (x.writeCs csActive).errcause = x.errcause ∧
      (x.writeCs csActive).stalled = x.stalled := by
  cases he : x.error
  · cases ha : x.active
    · rw [Dma.writeCs_active x ha he]; exact ⟨he, rfl, rfl⟩
    · have h31 : csActive.getLsbD 31 = false := rfl
      have h0 : csActive.getLsbD 0 = true := rfl
      simp only [Dma.writeCs, Dma.start, h31, h0, ha, he, Bool.false_eq_true, if_false, if_true, Bool.true_or,
        and_self]
  · rw [Dma.writeCs_active_error x he]; exact ⟨he, rfl, rfl⟩

/-- ARM changes memory and the DMA window only, and keeps the sequencer's error (42_dma_sequencer.md R262, R276). -/
theorem State.arm_frame (s : State) (d : Device) :
    ∃ x : Dma, s.arm d = { s with mem := d.armMem s.config s.mem, dma := x } ∧ x.error = s.dma.error ∧
      x.errcause = s.dma.errcause ∧ x.stalled = s.dma.stalled := by
  have h : ∀ y : Dma, y.error = s.dma.error → y.errcause = s.dma.errcause → y.stalled = s.dma.stalled →
      ∃ x : Dma, ({ s with mem := d.armMem s.config s.mem, dma := y.writeCs csActive } : State) =
          { s with mem := d.armMem s.config s.mem, dma := x } ∧
        x.error = s.dma.error ∧ x.errcause = s.dma.errcause ∧ x.stalled = s.dma.stalled := by
    intro y h1 h2 h3
    obtain ⟨g1, g2, g3⟩ := Dma.writeCs_active_frame y
    exact ⟨y.writeCs csActive, rfl, g1.trans h1, g2.trans h2, g3.trans h3⟩
  unfold State.arm
  simp only [State.writeCs_eq, State.writeConblkAd_eq, State.setMem_eq, Dma.writeCs_endInt]
  apply h <;> split <;> rfl

/-! ARM, field by field. -/

@[simp] theorem State.arm_config (s : State) (d : Device) : (s.arm d).config = s.config := by
  obtain ⟨x, e, -⟩ := State.arm_frame s d
  rw [e]
@[simp] theorem State.arm_hwHealthy (s : State) (d : Device) : (s.arm d).hwHealthy = s.hwHealthy := by
  obtain ⟨x, e, -⟩ := State.arm_frame s d
  rw [e]
@[simp] theorem State.arm_argq (s : State) (d : Device) : (s.arm d).argq = s.argq := by
  obtain ⟨x, e, -⟩ := State.arm_frame s d
  rw [e]
@[simp] theorem State.arm_result (s : State) (d : Device) : (s.arm d).result = s.result := by
  obtain ⟨x, e, -⟩ := State.arm_frame s d
  rw [e]
@[simp] theorem State.arm_waiting (s : State) (d : Device) : (s.arm d).waiting = s.waiting := by
  obtain ⟨x, e, -⟩ := State.arm_frame s d
  rw [e]
@[simp] theorem State.arm_life (s : State) (d : Device) : (s.arm d).life = s.life := by
  obtain ⟨x, e, -⟩ := State.arm_frame s d
  rw [e]
@[simp] theorem State.arm_owned (s : State) (d : Device) : (s.arm d).owned = s.owned := by
  obtain ⟨x, e, -⟩ := State.arm_frame s d
  rw [e]
@[simp] theorem State.arm_dmac (s : State) (d : Device) : (s.arm d).dmac = s.dmac := by
  obtain ⟨x, e, -⟩ := State.arm_frame s d
  rw [e]
@[simp] theorem State.arm_clk (s : State) (d : Device) : (s.arm d).clk = s.clk := by
  obtain ⟨x, e, -⟩ := State.arm_frame s d
  rw [e]
@[simp] theorem State.arm_env (s : State) (d : Device) : (s.arm d).env = s.env := by
  obtain ⟨x, e, -⟩ := State.arm_frame s d
  rw [e]
@[simp] theorem State.arm_mem (s : State) (d : Device) : (s.arm d).mem = d.armMem s.config s.mem := by
  obtain ⟨x, e, -⟩ := State.arm_frame s d
  rw [e]
@[simp] theorem State.arm_ser (s : State) (d : Device) (c : Chan) : (s.arm d).ser c = s.ser c := by
  obtain ⟨x, e, -⟩ := State.arm_frame s d
  rw [e]
  cases c <;> simp only [State.ser]
@[simp] theorem State.arm_dma_error (s : State) (d : Device) : (s.arm d).dma.error = s.dma.error := by
  obtain ⟨x, e, h, -⟩ := State.arm_frame s d
  rw [e]
  exact h
@[simp] theorem State.arm_dma_errcause (s : State) (d : Device) : (s.arm d).dma.errcause = s.dma.errcause := by
  obtain ⟨x, e, -, h, -⟩ := State.arm_frame s d
  rw [e]
  exact h
@[simp] theorem State.arm_dma_stalled (s : State) (d : Device) : (s.arm d).dma.stalled = s.dma.stalled := by
  obtain ⟨x, e, -, -, h⟩ := State.arm_frame s d
  rw [e]
  exact h

/-! ### The sequencer's own operations -/

theorem State.latchBlock_eq (s : State) (ti src dst len stride nextcb : Word) :
    s.latchBlock ti src dst len stride nextcb =
      { s with
        dma :=
          { s.dma with
            ti := ti, sourceAd := src, destAd := dst, txfrLen := len, stride := stride, nextConbk := nextcb } } := rfl

/-- Where XFER's word goes: to a FIFO, or to memory (42_dma_sequencer.md R279). -/
theorem State.deliver_cases (s : State) (v : Word) :
    (∃ c, s.dma.destAd = fifBus s.config c ∧ s.deliver v = s.pushFifo c v) ∨
      (s.dma.destAd ≠ s.config.fif0Bus ∧ s.dma.destAd ≠ s.config.fif1Bus ∧
        s.deliver v = { s with mem := Memory.writeWord s.mem s.dma.destAd.toNat v }) := by
  unfold State.deliver
  split
  · rename_i h; exact .inl ⟨.c0, h, rfl⟩
  · split
    · rename_i h; exact .inl ⟨.c1, h, rfl⟩
    · rename_i h0 h1; exact .inr ⟨h0, h1, rfl⟩

/-- XFER, where it is enabled (42_dma_sequencer.md R279, R284). -/
theorem State.xfer_cases (s : State) :
    ((s.readable s.dma.sourceAd.toNat = false ∨ s.writable s.dma.destAd.toNat = false) ∧ s.xfer = s.stop 2) ∨
      (s.readable s.dma.sourceAd.toNat = true ∧ s.writable s.dma.destAd.toNat = true ∧
        s.xfer = (s.deliver (Memory.readWord s.mem s.dma.sourceAd.toNat)).setDma s.dma.advance) := by
  unfold State.xfer
  split
  · rename_i h; exact .inl ⟨.inl (by simpa using h), rfl⟩
  · split
    · rename_i h; exact .inl ⟨.inr (by simpa using h), rfl⟩
    · rename_i h0 h1; exact .inr ⟨by simpa using h0, by simpa using h1, rfl⟩

/-- LOAD's checks of a block, as a command of the sequencer (42_dma_sequencer.md R277, R278). -/
theorem execCb_cases (b : ControlBlock) (s : State) :
    (b.wellFormed = true ∧
        execCb b s =
          .next
            { s with
              dma :=
                { s.dma with
                  ti := b.ti.toWord, sourceAd := b.sourceAd, destAd := b.destAd, txfrLen := b.txfrLen, stride := b.stride,
                  nextConbk := b.nextConbk, dphase := .xfer } }) ∨
      (b.wellFormed = false ∧ ∃ cause, (cause = 3#3 ∨ cause = 4#3) ∧
        execCb b s =
          .next ((s.latchBlock b.ti.toWord b.sourceAd b.destAd b.txfrLen b.stride b.nextConbk).stop cause)) := by
  have hw : b.wellFormed = (tiOk b.ti && lengthsOk b) := by
    simp only [ControlBlock.wellFormed, TransferInfo.wellFormed, tiOk, lengthsOk, Bool.and_assoc]
    rfl
  unfold execCb loadCause
  cases h1 : tiOk b.ti
  · exact .inr ⟨by simp [hw, h1], 3#3, .inl rfl, rfl⟩
  · cases h2 : lengthsOk b
    · exact .inr ⟨by simp [hw, h1, h2], 4#3, .inr rfl, rfl⟩
    · exact .inl ⟨by simp [hw, h1, h2], rfl⟩

/-! ### The serializers -/

/-- A serializer's turn: SHIFT, GAP or nothing (43_pwm_serializer.md R302, R303, R305, R306). -/
theorem State.serTurn_cases (s : State) (c : Chan) :
    (∃ w rest, s.runs c = true ∧ (s.ser c).fifo = w :: rest ∧
        s.serTurn c =
          s.setSer c
            { s.ser c with fifo := rest, wire := (s.ser c).wire ++ wordLevels w (s.ser c).pola, lastGap := false }) ∨
      (s.runs c = true ∧ (s.ser c).fifo = [] ∧ (s.ser c).lastGap = false ∧ s.feeding c = false ∧
        s.serTurn c =
          s.setSer c { s.ser c with wire := (s.ser c).wire ++ [.gap], gapo := true, lastGap := true }) ∨
      (s.shiftEnabled c = false ∧ s.gapEnabled c = false ∧ s.serTurn c = s) := by
  unfold State.serTurn
  split
  · rename_i h
    simp only [State.shiftEnabled, Bool.and_eq_true, Bool.not_eq_true', List.isEmpty_eq_false_iff] at h
    obtain ⟨w, rest, hf⟩ := List.exists_cons_of_ne_nil h.2
    refine .inl ⟨w, rest, h.1, hf, ?_⟩
    simp only [State.shift, Serializer.shift, hf]
  · rename_i h0
    split
    · rename_i h
      simp only [State.gapEnabled, Bool.and_eq_true, Bool.not_eq_true', List.isEmpty_iff] at h
      exact .inr (.inl ⟨h.1.1.1, h.1.1.2, h.1.2, h.2, rfl⟩)
    · rename_i h
      exact .inr (.inr ⟨by simpa using h0, by simpa using h, rfl⟩)

end Sys2Proof.Machine
end

