-- ==== Sys2Proof/Laws/Chain.lean ====
section
/-! SUPPORT. What ARM leaves in the region, word by word (42_dma_sequencer.md R261 to R266), and the address arithmetic of a
well-formed device (20_memory.md R86 to R88). -/

namespace Sys2Proof.Machine

/-! ### Runs of words -/

namespace Memory

theorem wordsAt_length (m : Memory) (a n : Nat) : (wordsAt m a n).length = n := by simp [wordsAt]

theorem wordsAt_congr {m m' : Memory} {a n : Nat} (h : ∀ x, a ≤ x → x < a + 4 * n → read m x = read m' x) :
    wordsAt m a n = wordsAt m' a n := by
  unfold wordsAt
  apply List.map_congr_left
  intro k hk
  have hk := List.mem_range.mp hk
  exact readWord_congr (fun x h1 h2 => h x (by omega) (by omega))

theorem wordsAt_writeWords_same {m : Memory} (hm : wf m) (a : Nat) (vs : List Word) :
    wordsAt (writeWords m a vs) a vs.length = vs := by
  apply List.ext_getElem
  · exact wordsAt_length _ _ _
  · intro j h1 h2
    simp only [wordsAt, List.getElem_map, List.getElem_range]
    exact readWord_writeWords hm a vs j h2

theorem wordsAt_writeWords_of_apart {m : Memory} (hm : wf m) {a b n : Nat} (vs : List Word)
    (h : b + 4 * n ≤ a ∨ a + 4 * vs.length ≤ b) : wordsAt (writeWords m a vs) b n = wordsAt m b n :=
  wordsAt_congr (fun _ _ _ => read_writeWords_of_outside hm vs (by omega))

theorem wordsAt_writeWord_of_apart {m : Memory} (hm : wf m) {a b n : Nat} (v : Word)
    (h : b + 4 * n ≤ a ∨ a + 4 ≤ b) : wordsAt (writeWord m a v) b n = wordsAt m b n :=
  wordsAt_congr (fun _ _ _ => read_writeWord_of_outside hm v (by omega))

/-- The first words of a run. -/
theorem wordsAt_take (m : Memory) (a : Nat) {j n : Nat} (h : j ≤ n) : wordsAt m a j = (wordsAt m a n).take j := by
  apply List.ext_getElem
  · simp [wordsAt_length, h]
  · intro k h1 h2
    simp [wordsAt]

/-- A run of words, one word at a time. -/
theorem wordsAt_succ (m : Memory) (a n : Nat) : wordsAt m a (n + 1) = readWord m a :: wordsAt m (a + 4) n := by
  simp only [wordsAt, List.range_succ_eq_map, List.map_cons, List.map_map, Nat.mul_zero, Nat.add_zero]
  congr 1
  apply List.map_congr_left
  intro k _
  simp only [Function.comp]
  congr 1
  omega

theorem wordsAt_zero (m : Memory) (a : Nat) : wordsAt m a 0 = [] := rfl

end Memory

/-! ### A well-formed device -/

theorem packWords_length (n : Nat) (bs : List Bool) : (packWords n bs).length = n := by
  induction n generalizing bs with
  | zero => rfl
  | succ n ih => simp [packWords, ih]

theorem encodeFrame_length (pix : List Word) (cfg : ChannelConfig) : (encodeFrame pix cfg).length = frameWords cfg :=
  packWords_length _ _

namespace Device

variable {p : Config} {d : Device}

theorem chan_wf (h : d.wf p) {c : Chan} {k : Channel} (hk : d.chan c = some k) : k.wf := by
  cases c
  · cases hk; exact h.ch0
  · exact (h.ch1 k hk).1

theorem words_le_slot (h : d.wf p) {c : Chan} {k : Channel} (hk : d.chan c = some k) : k.words ≤ d.slot := by
  rw [h.slot]
  unfold Device.maxWords
  cases c
  · cases hk
    split
    · exact Nat.le_max_left _ _
    · exact Nat.le_refl _
  · have hk : d.ch1 = some k := hk
    rw [hk]
    exact Nat.le_max_right _ _

/-- Every frame has words (41_bitstream_encoder.md R229). -/
theorem words_pos (h : d.wf p) {c : Chan} {k : Channel} (hk : d.chan c = some k) : 0 < k.words := by
  obtain ⟨hc, hf, -, hw⟩ := chan_wf h hk
  rw [hw]
  have hn : 3 ≤ stripNcol k.cfg.stype := by cases k.cfg.stype <;> decide
  have h1 : 3 ≤ k.cfg.count * stripNcol k.cfg.stype := Nat.le_trans hn (Nat.le_mul_of_pos_left _ hc)
  unfold frameWords ceilDiv
  omega

/-- The base is aligned, not 0, and the region lies inside the 32-bit space (20_memory.md R88). -/
theorem base_facts (h : d.wf p) :
    d.rbase.toNat % 32 = 0 ∧ d.rbase ≠ 0 ∧ d.rbase.toNat + d.rsize ≤ 2 ^ 32 ∧
      (p.fif0Bus.toNat < d.rbase.toNat ∨ d.rbase.toNat + d.rsize ≤ p.fif0Bus.toNat) ∧
      (p.fif1Bus.toNat < d.rbase.toNat ∨ d.rbase.toNat + d.rsize ≤ p.fif1Bus.toNat) := by
  have hb := h.base
  simp only [baseOk, Bool.and_eq_true, decide_eq_true_eq, Bool.not_eq_true', Bool.and_eq_false_iff,
    decide_eq_false_iff_not, Nat.not_le, Nat.not_lt, and_assoc] at hb
  exact hb

theorem slotAddr_bound (h : d.wf p) {c : Chan} {k : Channel} (hk : d.chan c = some k) :
    d.rbase.toNat + 0x80 ≤ d.slotAddr c ∧ d.slotAddr c + 4 * d.slot ≤ d.rbase.toNat + d.rsize ∧
      (c = .c0 → d.slotAddr c = d.rbase.toNat + 0x80) := by
  rw [h.rsize]
  unfold Device.slotAddr Device.nch
  cases c
  · simp only [Chan.toNat]
    split <;> omega
  · have hk : d.ch1 = some k := hk
    simp only [hk, Chan.toNat]
    simp only [Option.isSome_some, if_true]
    refine ⟨by omega, by omega, fun h => by cases h⟩

/-- The region reaches past its fixed part (20_memory.md R87). -/
theorem rsize_ge (h : d.wf p) : 0x80 ≤ d.rsize := by
  rw [h.rsize]
  omega

end Device

theorem slotWords_length {p : Config} {d : Device} (h : d.wf p) {c : Chan} {k : Channel} (hk : d.chan c = some k) :
    (slotWords k d.slot).length = d.slot := by
  have h1 := Device.words_le_slot h hk
  have h2 := (Device.chan_wf h hk).2.2.2
  simp only [slotWords, List.length_append, List.length_replicate, encodeFrame_length, ← h2]
  omega

theorem controlBlock_words_length (b : ControlBlock) : b.words.length = 8 := rfl

/-! ### The chain in numbers -/

/-- An address of the region as a word: RBASE and an offset, modulo 2^32 (42_dma_sequencer.md R261). -/
theorem addrWord_base (d : Device) (n : Nat) : addrWord (d.rbase.toNat + n) = d.rbase + BitVec.ofNat 32 n := by
  apply BitVec.eq_of_toNat_eq
  simp [addrWord]

theorem slotAddr_c1 (d : Device) :
    addrWord (d.slotAddr .c1) = d.rbase + 0x80#32 + BitVec.ofNat 32 (4 * d.slot) := by
  apply BitVec.eq_of_toNat_eq
  simp [addrWord, Device.slotAddr, Chan.toNat, Nat.mul_comm]

theorem slotAddr_c0 (d : Device) : addrWord (d.slotAddr .c0) = d.rbase + 0x80#32 := by
  apply BitVec.eq_of_toNat_eq
  simp [addrWord, Device.slotAddr, Chan.toNat]

theorem addrWord_toNat {a : Nat} (h : a < 2 ^ 32) : (addrWord a).toNat = a := by
  unfold addrWord
  rw [BitVec.toNat_ofNat]
  exact Nat.mod_eq_of_lt h

theorem cbAddr_toNat {p : Config} {d : Device} (h : d.wf p) (c : Chan) : (addrWord (d.cbAddr c)).toNat = d.cbAddr c := by
  have h1 := (Device.base_facts h).2.2.1
  have h2 := Device.rsize_ge h
  exact addrWord_toNat (by cases c <;> simp only [Device.cbAddr] <;> omega)

theorem cbtAddr_toNat {p : Config} {d : Device} (h : d.wf p) : (addrWord d.cbtAddr).toNat = d.cbtAddr := by
  have h1 := (Device.base_facts h).2.2.1
  have h2 := Device.rsize_ge h
  exact addrWord_toNat (by unfold Device.cbtAddr; omega)

/-- CB0 and CB1 in numbers (30_encoding.md R126, 42_dma_sequencer.md R265). -/
theorem dataBlock_words (d : Device) (p : Config) (c : Chan) (k : Channel) (n : Nat) :
    (d.dataBlock p c k n).words =
      [BitVec.ofNat 32 (0x140 + 65536 * (c.toNat + 1)), addrWord (d.slotAddr c), fifBus p c,
        BitVec.ofNat 32 (4 * k.words), 0, addrWord n, 0, 0] := by
  have h : (d.dataBlock p c k n).ti.toWord = BitVec.ofNat 32 (0x140 + 65536 * (c.toNat + 1)) := by
    show TransferInfo.toWord ⟨false, false, true, true, BitVec.ofNat 5 (c.toNat + 1)⟩ = _
    cases c <;> decide
  rw [← h]
  rfl

/-- CBT in numbers (30_encoding.md R126, 42_dma_sequencer.md R266). -/
theorem flagBlock_words (d : Device) :
    d.flagBlock.words = [0x00000111, addrWord d.zeroAddr, addrWord d.cflagAddr, 4, 0, 0, 0, 0] := by
  have h : d.flagBlock.ti.toWord = 0x00000111 := by
    show TransferInfo.toWord ⟨true, true, false, true, 0⟩ = _
    decide
  rw [← h]
  rfl
/-! ### What ARM leaves in the region -/

section

variable {p : Config} {d : Device} {m : Memory}

/-- The second data slot, where there is one. -/
def armSlot1 (d : Device) (m : Memory) : Memory :=
  match d.ch1 with
  | some k1 => Memory.writeWords m (d.slotAddr .c1) (slotWords k1 d.slot)
  | none => m

/-- The second data block, where there is one. -/
def armBlock1 (d : Device) (p : Config) (m : Memory) : Memory :=
  match d.ch1 with
  | some k1 => Memory.writeWords m (d.cbAddr .c1) (d.dataBlock p .c1 k1 d.cbtAddr).words
  | none => m

/-- ARM's region writes in order (42_dma_sequencer.md R262). -/
theorem armMem_eq (d : Device) (p : Config) (m : Memory) :
    d.armMem p m =
      Memory.writeWord
        (Memory.writeWord
          (Memory.writeWords
            (armBlock1 d p
              (Memory.writeWords (armSlot1 d (Memory.writeWords m (d.slotAddr .c0) (slotWords d.ch0 d.slot)))
                (d.cbAddr .c0) (d.dataBlock p .c0 d.ch0 d.afterCb0).words))
            d.cbtAddr d.flagBlock.words)
          d.zeroAddr 0#32)
        d.cflagAddr 1#32 := by
  unfold Device.armMem armSlot1 armBlock1
  cases d.ch1 <;> rfl

theorem armSlot1_wf (hm : Memory.wf m) : Memory.wf (armSlot1 d m) := by
  unfold armSlot1
  split
  · exact Memory.wf_writeWords hm _ _
  · exact hm

theorem armBlock1_wf (hm : Memory.wf m) : Memory.wf (armBlock1 d p m) := by
  unfold armBlock1
  split
  · exact Memory.wf_writeWords hm _ _
  · exact hm

/-- ARM keeps the canonical form. -/
theorem armMem_wf (hm : Memory.wf m) : Memory.wf (d.armMem p m) := by
  rw [armMem_eq]
  exact Memory.wf_writeWord (Memory.wf_writeWord (Memory.wf_writeWords (armBlock1_wf (Memory.wf_writeWords (armSlot1_wf
    (Memory.wf_writeWords hm _ _)) _ _)) _ _) _ _) _ _

theorem armSlot1_apart (h : d.wf p) (hm : Memory.wf m) {x : Nat}
    (hx : x < d.rbase.toNat + 0x80 + 4 * d.slot ∨ d.rbase.toNat + d.rsize ≤ x) :
    Memory.read (armSlot1 d m) x = Memory.read m x := by
  unfold armSlot1
  split
  · rename_i k hk
    have hk : d.chan .c1 = some k := hk
    have hl := slotWords_length h hk
    have hb := Device.slotAddr_bound h hk
    have ha : d.slotAddr .c1 = d.rbase.toNat + 0x80 + 4 * d.slot := by
      unfold Device.slotAddr; simp only [Chan.toNat]; omega
    exact Memory.read_writeWords_of_outside hm _ (by rw [hl]; omega)
  · rfl

theorem armBlock1_apart (hm : Memory.wf m) {x : Nat}
    (hx : x < d.rbase.toNat + 0x20 ∨ d.rbase.toNat + 0x40 ≤ x ∨ d.ch1 = none) :
    Memory.read (armBlock1 d p m) x = Memory.read m x := by
  unfold armBlock1
  split
  · rename_i k hk
    refine Memory.read_writeWords_of_outside hm _ ?_
    rw [controlBlock_words_length]
    simp only [Device.cbAddr]
    rcases hx with hx | hx | hx
    · omega
    · omega
    · rw [hx] at hk; cases hk
  · rfl

/-- The memory before ZERO and CFLAG are written, read outside them. -/
theorem armMem_read_low {x : Nat} (hm : Memory.wf m) (hx : x < d.zeroAddr ∨ d.cflagAddr + 4 ≤ x) :
    Memory.read (d.armMem p m) x =
      Memory.read
        (Memory.writeWords
          (armBlock1 d p
            (Memory.writeWords (armSlot1 d (Memory.writeWords m (d.slotAddr .c0) (slotWords d.ch0 d.slot)))
              (d.cbAddr .c0) (d.dataBlock p .c0 d.ch0 d.afterCb0).words))
          d.cbtAddr d.flagBlock.words) x := by
  have w1 := Memory.wf_writeWords hm (d.slotAddr .c0) (slotWords d.ch0 d.slot)
  have w2 := armSlot1_wf (d := d) w1
  have w3 := Memory.wf_writeWords w2 (d.cbAddr .c0) (d.dataBlock p .c0 d.ch0 d.afterCb0).words
  have w4 := armBlock1_wf (d := d) (p := p) w3
  have w5 := Memory.wf_writeWords w4 d.cbtAddr d.flagBlock.words
  have w6 := Memory.wf_writeWord w5 d.zeroAddr 0#32
  unfold Device.zeroAddr Device.cflagAddr at hx
  rw [armMem_eq, Memory.read_writeWord_of_outside w6 _ (by unfold Device.cflagAddr; omega),
    Memory.read_writeWord_of_outside w5 _ (by unfold Device.zeroAddr; omega)]

/-- The memory before CBT is written, read outside CBT, ZERO and CFLAG. -/
theorem armMem_read_cbt {x : Nat} (hm : Memory.wf m) (hx : x < d.cbtAddr ∨ d.cflagAddr + 4 ≤ x) :
    Memory.read (d.armMem p m) x =
      Memory.read
        (armBlock1 d p
          (Memory.writeWords (armSlot1 d (Memory.writeWords m (d.slotAddr .c0) (slotWords d.ch0 d.slot)))
            (d.cbAddr .c0) (d.dataBlock p .c0 d.ch0 d.afterCb0).words)) x := by
  have w1 := Memory.wf_writeWords hm (d.slotAddr .c0) (slotWords d.ch0 d.slot)
  have w2 := armSlot1_wf (d := d) w1
  have w3 := Memory.wf_writeWords w2 (d.cbAddr .c0) (d.dataBlock p .c0 d.ch0 d.afterCb0).words
  have w4 := armBlock1_wf (d := d) (p := p) w3
  unfold Device.cbtAddr Device.cflagAddr at hx
  rw [armMem_read_low hm (by unfold Device.zeroAddr Device.cflagAddr; omega),
    Memory.read_writeWords_of_outside w4 _ (by rw [controlBlock_words_length]; unfold Device.cbtAddr; omega)]

/-- The bytes ARM does not write (42_dma_sequencer.md R262, R265). -/
theorem armMem_outside (h : d.wf p) (hm : Memory.wf m) {a : Nat}
    (ha : a < d.rbase.toNat ∨ d.rbase.toNat + d.rsize ≤ a ∨ (d.rbase.toNat + 0x68 ≤ a ∧ a < d.rbase.toNat + 0x80) ∨
      (d.ch1 = none ∧ d.rbase.toNat + 0x20 ≤ a ∧ a < d.rbase.toNat + 0x40)) :
    Memory.read (d.armMem p m) a = Memory.read m a := by
  have w1 := Memory.wf_writeWords hm (d.slotAddr .c0) (slotWords d.ch0 d.slot)
  have w2 := armSlot1_wf (d := d) w1
  have w3 := Memory.wf_writeWords w2 (d.cbAddr .c0) (d.dataBlock p .c0 d.ch0 d.afterCb0).words
  have hr := Device.rsize_ge h
  have hb := Device.slotAddr_bound h (c := .c0) (k := d.ch0) rfl
  have hs := hb.2.2 rfl
  rw [armMem_read_cbt hm (by unfold Device.cbtAddr Device.cflagAddr; omega),
    armBlock1_apart w3 (by
      rcases ha with ha | ha | ha | ha
      · omega
      · omega
      · omega
      · exact .inr (.inr ha.1)),
    Memory.read_writeWords_of_outside w2 _ (by rw [controlBlock_words_length]; simp only [Device.cbAddr]; omega),
    armSlot1_apart h w1 (by omega),
    Memory.read_writeWords_of_outside hm _ (by rw [slotWords_length h (c := .c0) rfl]; omega)]

/-- The data slots (R263). -/
theorem armMem_slot (h : d.wf p) (hm : Memory.wf m) {c : Chan} {k : Channel} (hk : d.chan c = some k) :
    wordsAt (d.armMem p m) (d.slotAddr c) d.slot = slotWords k d.slot := by
  have w1 := Memory.wf_writeWords hm (d.slotAddr .c0) (slotWords d.ch0 d.slot)
  have w2 := armSlot1_wf (d := d) w1
  have w3 := Memory.wf_writeWords w2 (d.cbAddr .c0) (d.dataBlock p .c0 d.ch0 d.afterCb0).words
  have hb := Device.slotAddr_bound h hk
  have e1 : wordsAt (d.armMem p m) (d.slotAddr c) d.slot =
      wordsAt (armSlot1 d (Memory.writeWords m (d.slotAddr .c0) (slotWords d.ch0 d.slot))) (d.slotAddr c) d.slot := by
    apply Memory.wordsAt_congr
    intro x h1 h2
    rw [armMem_read_cbt hm (by unfold Device.cbtAddr Device.cflagAddr; omega), armBlock1_apart w3 (by omega),
      Memory.read_writeWords_of_outside w2 _ (by rw [controlBlock_words_length]; simp only [Device.cbAddr]; omega)]
  rw [e1]
  cases c
  · cases hk
    have hl := slotWords_length h (c := .c0) (k := d.ch0) rfl
    have e2 : wordsAt (armSlot1 d (Memory.writeWords m (d.slotAddr .c0) (slotWords d.ch0 d.slot))) (d.slotAddr .c0)
        d.slot = wordsAt (Memory.writeWords m (d.slotAddr .c0) (slotWords d.ch0 d.slot)) (d.slotAddr .c0) d.slot := by
      apply Memory.wordsAt_congr
      intro x h1 h2
      have := hb.2.2 rfl
      exact armSlot1_apart h w1 (by omega)
    rw [e2]
    have := Memory.wordsAt_writeWords_same hm (d.slotAddr .c0) (slotWords d.ch0 d.slot)
    rw [hl] at this
    exact this
  · have hk' : d.ch1 = some k := hk
    have hl := slotWords_length h hk
    have := Memory.wordsAt_writeWords_same w1 (d.slotAddr .c1) (slotWords k d.slot)
    rw [hl] at this
    simp only [armSlot1, hk']
    exact this

/-- The data blocks (R265). -/
theorem armMem_data (hm : Memory.wf m) {c : Chan} {k : Channel} (hk : d.chan c = some k) :
    wordsAt (d.armMem p m) (d.cbAddr c) 8 = (d.dataBlock p c k (d.afterData c)).words := by
  have w1 := Memory.wf_writeWords hm (d.slotAddr .c0) (slotWords d.ch0 d.slot)
  have w2 := armSlot1_wf (d := d) w1
  have w3 := Memory.wf_writeWords w2 (d.cbAddr .c0) (d.dataBlock p .c0 d.ch0 d.afterCb0).words
  have e1 : wordsAt (d.armMem p m) (d.cbAddr c) 8 =
      wordsAt (armBlock1 d p
          (Memory.writeWords (armSlot1 d (Memory.writeWords m (d.slotAddr .c0) (slotWords d.ch0 d.slot)))
            (d.cbAddr .c0) (d.dataBlock p .c0 d.ch0 d.afterCb0).words)) (d.cbAddr c) 8 := by
    apply Memory.wordsAt_congr
    intro x h1 h2
    refine armMem_read_cbt hm (.inl ?_)
    unfold Device.cbtAddr
    cases c <;> simp only [Device.cbAddr] at h1 h2 <;> omega
  rw [e1]
  cases c
  · cases hk
    have e2 : wordsAt (armBlock1 d p
          (Memory.writeWords (armSlot1 d (Memory.writeWords m (d.slotAddr .c0) (slotWords d.ch0 d.slot)))
            (d.cbAddr .c0) (d.dataBlock p .c0 d.ch0 d.afterCb0).words)) (d.cbAddr .c0) 8 =
        wordsAt (Memory.writeWords (armSlot1 d (Memory.writeWords m (d.slotAddr .c0) (slotWords d.ch0 d.slot)))
            (d.cbAddr .c0) (d.dataBlock p .c0 d.ch0 d.afterCb0).words) (d.cbAddr .c0) 8 := by
      apply Memory.wordsAt_congr
      intro x h1 h2
      simp only [Device.cbAddr] at h1 h2
      exact armBlock1_apart w3 (by omega)
    rw [e2]
    exact Memory.wordsAt_writeWords_same w2 (d.cbAddr .c0) (d.dataBlock p .c0 d.ch0 d.afterCb0).words
  · have hk' : d.ch1 = some k := hk
    simp only [armBlock1, hk']
    exact Memory.wordsAt_writeWords_same w3 (d.cbAddr .c1) (d.dataBlock p .c1 k d.cbtAddr).words

/-- The terminal block (R266). -/
theorem armMem_flag (hm : Memory.wf m) : wordsAt (d.armMem p m) d.cbtAddr 8 = d.flagBlock.words := by
  have w1 := Memory.wf_writeWords hm (d.slotAddr .c0) (slotWords d.ch0 d.slot)
  have w2 := armSlot1_wf (d := d) w1
  have w3 := Memory.wf_writeWords w2 (d.cbAddr .c0) (d.dataBlock p .c0 d.ch0 d.afterCb0).words
  have w4 := armBlock1_wf (d := d) (p := p) w3
  have e1 : wordsAt (d.armMem p m) d.cbtAddr 8 = wordsAt (Memory.writeWords
          (armBlock1 d p
            (Memory.writeWords (armSlot1 d (Memory.writeWords m (d.slotAddr .c0) (slotWords d.ch0 d.slot)))
              (d.cbAddr .c0) (d.dataBlock p .c0 d.ch0 d.afterCb0).words))
          d.cbtAddr d.flagBlock.words) d.cbtAddr 8 := by
    apply Memory.wordsAt_congr
    intro x h1 h2
    refine armMem_read_low hm (.inl ?_)
    unfold Device.cbtAddr at h2
    unfold Device.zeroAddr
    omega
  rw [e1]
  exact Memory.wordsAt_writeWords_same w4 d.cbtAddr d.flagBlock.words

/-- ZERO (R266). -/
theorem armMem_zero (hm : Memory.wf m) : Memory.readWord (d.armMem p m) d.zeroAddr = 0 := by
  have w1 := Memory.wf_writeWords hm (d.slotAddr .c0) (slotWords d.ch0 d.slot)
  have w2 := armSlot1_wf (d := d) w1
  have w3 := Memory.wf_writeWords w2 (d.cbAddr .c0) (d.dataBlock p .c0 d.ch0 d.afterCb0).words
  have w4 := armBlock1_wf (d := d) (p := p) w3
  have w5 := Memory.wf_writeWords w4 d.cbtAddr d.flagBlock.words
  have w6 := Memory.wf_writeWord w5 d.zeroAddr 0#32
  rw [armMem_eq, Memory.readWord_writeWord_of_apart w6 _ (by unfold Device.zeroAddr Device.cflagAddr; omega),
    Memory.readWord_writeWord_same w5]
  rfl

/-- CFLAG (R264). -/
theorem armMem_cflag (hm : Memory.wf m) : Memory.readWord (d.armMem p m) d.cflagAddr = 1 := by
  have w1 := Memory.wf_writeWords hm (d.slotAddr .c0) (slotWords d.ch0 d.slot)
  have w2 := armSlot1_wf (d := d) w1
  have w3 := Memory.wf_writeWords w2 (d.cbAddr .c0) (d.dataBlock p .c0 d.ch0 d.afterCb0).words
  have w4 := armBlock1_wf (d := d) (p := p) w3
  have w5 := Memory.wf_writeWords w4 d.cbtAddr d.flagBlock.words
  have w6 := Memory.wf_writeWord w5 d.zeroAddr 0#32
  rw [armMem_eq, Memory.readWord_writeWord_same w6]
  rfl

/-- The region holds the chain after ARM (R270). -/
theorem armMem_armed (hm : Memory.wf m) : Armed p d (d.armMem p m) where
  data := fun c k hk => by
    unfold blockAt
    rw [Memory.wordsAt_take _ _ (show 6 ≤ 8 by omega), armMem_data hm hk]
  flag := by
    unfold blockAt
    rw [Memory.wordsAt_take _ _ (show 6 ≤ 8 by omega), armMem_flag hm]
  zero := armMem_zero hm

/-- ARM lists no byte outside the region. -/
theorem armMem_mem (h : d.wf p) {c : Host.Cell} (hc : c ∈ d.armMem p m) :
    c ∈ m ∨ (d.rbase.toNat ≤ c.1 ∧ c.1 < d.rbase.toNat + d.rsize) := by
  have hr := Device.rsize_ge h
  have hb := Device.slotAddr_bound h (c := .c0) (k := d.ch0) rfl
  have hl := slotWords_length h (c := .c0) (k := d.ch0) rfl
  rw [armMem_eq] at hc
  rcases Memory.mem_writeWord hc with hc | hc
  swap
  · unfold Device.cflagAddr at hc; exact .inr (by omega)
  rcases Memory.mem_writeWord hc with hc | hc
  swap
  · unfold Device.zeroAddr at hc; exact .inr (by omega)
  rcases Memory.mem_writeWords hc with hc | hc
  swap
  · rw [controlBlock_words_length] at hc; unfold Device.cbtAddr at hc; exact .inr (by omega)
  have hc : c ∈ Memory.writeWords (armSlot1 d (Memory.writeWords m (d.slotAddr .c0) (slotWords d.ch0 d.slot)))
      (d.cbAddr .c0) (d.dataBlock p .c0 d.ch0 d.afterCb0).words ∨
      (d.rbase.toNat ≤ c.1 ∧ c.1 < d.rbase.toNat + d.rsize) := by
    unfold armBlock1 at hc
    split at hc
    · rcases Memory.mem_writeWords hc with hc | hc
      · exact .inl hc
      · rw [controlBlock_words_length] at hc; simp only [Device.cbAddr] at hc; exact .inr (by omega)
    · exact .inl hc
  rcases hc with hc | hc
  swap
  · exact .inr hc
  rcases Memory.mem_writeWords hc with hc | hc
  swap
  · rw [controlBlock_words_length] at hc; simp only [Device.cbAddr] at hc; exact .inr (by omega)
  have hc : c ∈ Memory.writeWords m (d.slotAddr .c0) (slotWords d.ch0 d.slot) ∨
      (d.rbase.toNat ≤ c.1 ∧ c.1 < d.rbase.toNat + d.rsize) := by
    unfold armSlot1 at hc
    split at hc
    · rename_i k hk
      have hk : d.chan .c1 = some k := hk
      have hb1 := Device.slotAddr_bound h hk
      have hl1 := slotWords_length h hk
      rcases Memory.mem_writeWords hc with hc | hc
      · exact .inl hc
      · rw [hl1] at hc; exact .inr (by omega)
    · exact .inl hc
  rcases hc with hc | hc
  swap
  · exact .inr hc
  rcases Memory.mem_writeWords hc with hc | hc
  · exact .inl hc
  · rw [hl] at hc; exact .inr (by omega)

end

/-! ### What a channel has still to push (42_dma_sequencer.md R288) -/

section

variable {s : State} {d : Device} {c : Chan} {k : Channel}

theorem unsent_of_none (h : d.chan c = none) : s.unsent d c = [] := by
  unfold State.unsent
  rw [h]

theorem unsent_of_idle (h : s.dma.active = false) : s.unsent d c = [] := by
  unfold State.unsent
  rw [h]
  cases d.chan c <;> rfl

theorem unsent_of_load (h : d.chan c = some k) (ha : s.dma.active = true) (hp : s.dma.dphase = .load) :
    s.unsent d c = if s.dma.conblkAd.toNat ≤ d.cbAddr c then wordsAt s.mem (d.slotAddr c) k.words else [] := by
  unfold State.unsent
  simp only [h, ha, hp, if_true]

theorem unsent_of_xfer (h : d.chan c = some k) (ha : s.dma.active = true) (hp : s.dma.dphase = .xfer) :
    s.unsent d c =
      if s.dma.conblkAd.toNat = d.cbAddr c then wordsAt s.mem s.dma.sourceAd.toNat (s.dma.txfrLen.toNat / 4)
      else if s.dma.conblkAd.toNat < d.cbAddr c then wordsAt s.mem (d.slotAddr c) k.words
      else [] := by
  unfold State.unsent
  simp only [h, ha, hp, if_true]

/-- PERMAP of channel c's data block is c + 1 (42_dma_sequencer.md R265). -/
theorem InData.permap {p : Config} {x : Dma} {n : Nat} (h : InData p d x c k n) : x.ti.toNat / 65536 % 32 = c.toNat + 1 := by
  rw [h.2.2.2.2.1]
  show (TransferInfo.toWord ⟨false, false, true, true, BitVec.ofNat 5 (c.toNat + 1)⟩).toNat / 65536 % 32 = c.toNat + 1
  cases c <;> decide

end

end Sys2Proof.Machine
end

