-- ==== Sys2Proof/Laws/Commands.lean ====
section
/-! SUPPORT. What each host command can do: one inductive relation, one lemma that a command's next state is in it, and for
each command the lemma that says where it completes. -/

namespace Sys2Proof.Machine

/-- The effects a host command can have when it completes (40_controller_commands.md R152 to R184). -/
inductive CommandEffect (s : State) : Instr → State → Prop where
  /-- RESULT alone is written: an error, or FINI while not Active. -/
  | result (i : Instr) (r : Result) : CommandEffect s i { s with result := r }
  /-- INIT or INIT1 drew from the environment and reports an error. -/
  | drawn (i : Instr) (r : Result) : CommandEffect s i { s.dropDraw with result := r }
  /-- INIT or INIT1 succeeds (R168, R169). -/
  | init (i : Instr) (rs : List ConfigRecord) (q : InitPlan) (base : Word) (hq : initPlan s.config rs = some q)
      (ho : s.owned = false) (hb : baseOk s.config q.rsize base = true) :
      CommandEffect s i (((s.dropDraw.commit q base).programHardware q).report .ok 0)
  /-- FINI from Active (R171). -/
  | fini (d : Device) (hl : s.life = .active d) : CommandEffect s .fini (s.release.report .ok 0)
  /-- SETPIXEL or SETBITMAP writes a buffer (R173, R175). -/
  | pix (i : Instr) (d : Device) (ch : Chan) (k : Channel) (p : List Word) (hl : s.life = .active d)
      (hk : d.chan ch = some k) (hp : p.length = k.cfg.count ∨ ∃ n v, p = k.pix.set n v) :
      CommandEffect s i { s with life := .active (d.setPix ch p), result := ⟨.ok, 0⟩ }
  /-- RENDER arms the transport (R179). -/
  | render (d : Device) (hl : s.life = .active d) (hc : s.complete d = true) :
      CommandEffect s .render ((s.arm d).report .ok 0)
  /-- CLEAR zeroes a buffer and arms the transport (R177). -/
  | clear (d : Device) (ch : Chan) (k : Channel) (hl : s.life = .active d) (hk : d.chan ch = some k)
      (hc : s.complete d = true) :
      CommandEffect s (.clear ch)
        ((({ s with life := .active (d.setPix ch (List.replicate k.cfg.count 0)) } : State).arm
          (d.setPix ch (List.replicate k.cfg.count 0))).report .ok 0)
  /-- CLEAR zeroes a buffer and its render reports TransmissionError (R178). -/
  | cleared (d : Device) (ch : Chan) (k : Channel) (hl : s.life = .active d) (hk : d.chan ch = some k)
      (hc : s.complete d = false) :
      CommandEffect s (.clear ch)
        { s with
          life := .active (d.setPix ch (List.replicate k.cfg.count 0)), result := ⟨.transmissionError, 0⟩ }
  /-- WAIT ends (R182). -/
  | waited (d : Device) (r : Result) (hl : s.life = .active d) (hr : s.waitResult d = some r) :
      CommandEffect s .wait { s with waiting := false, result := r }
  /-- WAIT holds (R182). -/
  | holds (d : Device) (hl : s.life = .active d) (hr : s.waitResult d = none) :
      CommandEffect s .wait { s with waiting := true }

/-! ### The commands on an active device -/

theorem execSetpixel_active {s : State} {d : Device} (hl : s.life = .active d) (ch : Chan) (index color : Word) :
    execSetpixel ch index color s =
      match d.chan ch with
      | none => .next (s.report .indexError 0)
      | some k =>
        if index.toNat < k.cfg.count then
          .next ((s.setLife (.active (d.setPix ch (k.pix.set index.toNat color)))).report .ok 0)
        else .next (s.report .indexError 0) := by
  unfold execSetpixel
  rw [hl] <;> rfl

theorem execSetbitmap_active {s : State} {d : Device} (hl : s.life = .active d) (ch : Chan) (colors : List Word) :
    execSetbitmap ch colors s =
      match d.chan ch with
      | none => .next (s.report .indexError 0)
      | some k =>
        if colors.length = k.cfg.count then
          .next ((s.setLife (.active (d.setPix ch colors))).report .ok 0)
        else .next (s.report .lengthMismatchError 0) := by
  unfold execSetbitmap
  rw [hl] <;> rfl

theorem execClear_active {s : State} {d : Device} (hl : s.life = .active d) (ch : Chan) :
    execClear ch s =
      match d.chan ch with
      | none => .next (s.report .indexError 0)
      | some k =>
        .next
          ((s.setLife (.active (d.setPix ch (List.replicate k.cfg.count 0#32)))).renderBody
            (d.setPix ch (List.replicate k.cfg.count 0#32))) := by
  unfold execClear
  rw [hl] <;> rfl

theorem execRender_active {s : State} {d : Device} (hl : s.life = .active d) : execRender s = .next (s.renderBody d) := by
  unfold execRender
  rw [hl]

theorem execWait_active {s : State} {d : Device} (hl : s.life = .active d) :
    execWait s =
      match s.waitResult d with
      | some r => .next ((s.setWaiting false).setResult r)
      | none => .next (s.setWaiting true) := by
  unfold execWait
  rw [hl] <;> rfl

theorem execFini_active {s : State} {d : Device} (hl : s.life = .active d) :
    execFini s = .next (s.release.report .ok 0) := by
  unfold execFini
  rw [hl]

theorem renderBody_complete {s : State} {d : Device} (hc : s.complete d = true) :
    s.renderBody d = (s.arm d).report .ok 0 := by
  unfold State.renderBody
  rw [if_pos hc]

theorem renderBody_inFlight {s : State} {d : Device} (hc : s.complete d = false) :
    s.renderBody d = { s with result := ⟨.transmissionError, 0⟩ } := by
  unfold State.renderBody
  rw [if_neg (by rw [hc]; exact Bool.false_ne_true)]
  rfl

/-! ### The claim, check by check (40_controller_commands.md R154 steps 3 and 4) -/

theorem claim_of_owned {s : State} (q : InitPlan) (h : s.owned = true) :
    s.claim q = { s with result := ⟨.hardwareBusyError, 0⟩ } := by
  unfold State.claim
  rw [if_pos h, State.report_eq]

theorem claim_of_otherOwner {s : State} (q : InitPlan) (h : s.owned = false) (ho : s.initDraw.otherOwner = true) :
    s.claim q = { s.dropDraw with result := ⟨.hardwareBusyError, s.initDraw.originCode⟩ } := by
  unfold State.claim
  rw [if_neg (by rw [h]; exact Bool.false_ne_true), if_pos ho, State.report_eq]

theorem claim_of_tooLarge {s : State} {q : InitPlan} (h : s.owned = false) (ho : s.initDraw.otherOwner = false)
    (ha : s.initDraw.allocFails = false) (hm : s.config.maxRegionBytes < q.rsize) :
    s.claim q = { s.dropDraw with result := ⟨.resourceError, 0⟩ } := by
  unfold State.claim
  rw [if_neg (by rw [h]; exact Bool.false_ne_true), if_neg (by rw [ho]; exact Bool.false_ne_true),
    if_neg (by rw [ha]; exact Bool.false_ne_true), if_pos hm, State.report_eq]

theorem claim_of_allocFails {s : State} {q : InitPlan} (h : s.owned = false) (ho : s.initDraw.otherOwner = false)
    (ha : s.initDraw.allocFails = true) :
    s.claim q = { s.dropDraw with result := ⟨.resourceError, s.initDraw.originCode⟩ } := by
  unfold State.claim
  rw [if_neg (by rw [h]; exact Bool.false_ne_true), if_neg (by rw [ho]; exact Bool.false_ne_true), if_pos ha,
    State.report_eq]

theorem claim_of_free {s : State} {q : InitPlan} (h : s.owned = false) (ho : s.initDraw.otherOwner = false)
    (hm : q.rsize ≤ s.config.maxRegionBytes) (ha : s.initDraw.allocFails = false)
    (hb : baseOk s.config q.rsize s.initDraw.rbase = true) :
    s.claim q = ((s.dropDraw.commit q s.initDraw.rbase).programHardware q).report .ok 0 := by
  have hr : regionBase s.config q.rsize s.initDraw.rbase = some s.initDraw.rbase := by
    unfold regionBase
    rw [List.find?_cons, hb]
  unfold State.claim
  rw [if_neg (by rw [h]; exact Bool.false_ne_true), if_neg (by rw [ho]; exact Bool.false_ne_true),
    if_neg (by rw [ha]; exact Bool.false_ne_true), if_neg (Nat.not_lt.mpr hm), hr]

theorem claim_effect (s : State) (i : Instr) (rs : List ConfigRecord) (q : InitPlan)
    (hq : initPlan s.config rs = some q) : CommandEffect s i (s.claim q) := by
  unfold State.claim
  split
  · exact .result i _
  split
  · exact .drawn i _
  split
  · exact .drawn i _
  split
  · exact .drawn i _
  split
  · exact .drawn i _
  · rename_i ho _ _ _ _ base hb
    exact .init i rs q base hq (by simpa using ho) (List.find?_some hb)

theorem initDevice_effect {s t : State} {i : Instr} {rs : List ConfigRecord} (h : initDevice rs s = .next t) :
    CommandEffect s i t := by
  unfold initDevice at h
  split at h
  · cases h
  · split at h
    · cases h; exact .result i _
    · cases h; exact claim_effect s i rs _ (by assumption)

/-- What a host command that completes has done. -/
theorem exec_command_effect {i : Instr} {s t : State} (hi : i.cls = .command) (h : exec i s = .next t) :
    CommandEffect s i t := by
  cases i with
  | cb b => cases hi
  | init rs => exact initDevice_effect h
  | init1 a b c => exact initDevice_effect h
  | fini =>
    simp only [exec, execFini] at h
    split at h
    · cases h; exact .fini _ (by assumption)
    · cases h; exact .result _ _
  | setpixel ch index color =>
    simp only [exec, execSetpixel] at h
    split at h
    · split at h
      · cases h; exact .result _ _
      · split at h
        · cases h
          exact .pix _ _ ch _ _ (by assumption) (by assumption) (.inr ⟨_, _, rfl⟩)
        · cases h; exact .result _ _
    · cases h
  | setbitmap ch colors =>
    simp only [exec, execSetbitmap] at h
    split at h
    · split at h
      · cases h; exact .result _ _
      · split at h
        · cases h
          exact .pix _ _ ch _ _ (by assumption) (by assumption) (.inl (by assumption))
        · cases h; exact .result _ _
    · cases h
  | clear ch =>
    simp only [exec, execClear] at h
    split at h
    · split at h
      · cases h; exact .result _ _
      · rename_i d hl _ k hk
        cases h
        have e := State.complete_congr (s := s) (t := s.setLife (.active (d.setPix ch (List.replicate k.cfg.count 0#32))))
          (d := d) rfl rfl (Device.setPix_rbase d ch (List.replicate k.cfg.count 0#32))
        unfold State.renderBody
        rw [e]
        cases hc : s.complete d
        · exact .cleared d ch k hl hk hc
        · exact .clear d ch k hl hk hc
    · cases h
  | render =>
    simp only [exec, execRender] at h
    split at h
    · rename_i d hl
      cases h
      simp only [State.renderBody]
      split
      · exact .render d hl (by assumption)
      · exact .result _ _
    · cases h
  | wait =>
    simp only [exec, execWait] at h
    split at h
    · rename_i d hl
      split at h
      · cases h; exact .waited d _ hl (by assumption)
      · cases h; exact .holds d hl (by assumption)
    · cases h

end Sys2Proof.Machine
end

