-- ==== Sys2Proof/Laws/Encoding.lean ====
section
/-! SUPPORT. The small lemmas of the decoder and the encoder (30_encoding.md R111 to R121): the fields of a CMD word and of a TI
word, and what a decoded CMD word was. -/

namespace Sys2Proof

/-- Records cut from a concatenation of records (R117). -/
theorem recordsOf_flatMap (rs : List ConfigRecord) : recordsOf (rs.flatMap ConfigRecord.words) = some rs := by
  induction rs with
  | nil => rfl
  | cons r rs ih =>
    simp only [List.flatMap_cons, ConfigRecord.words, List.cons_append, List.nil_append]
    rw [recordsOf, ih]
    rfl

/-- Records that were cut from an argument list give it back (R117). -/
theorem recordsOf_eq_some {args : List Word} {rs : List ConfigRecord} (h : recordsOf args = some rs) :
    rs.flatMap ConfigRecord.words = args := by
  induction args using recordsOf.induct generalizing rs with
  | case1 => simp only [recordsOf, Option.some.injEq] at h; subst h; rfl
  | case2 p c b i t f rest ih =>
    simp only [recordsOf, Option.map_eq_some_iff] at h
    obtain ⟨rs', h1, rfl⟩ := h
    simp [ConfigRecord.words, ih h1]
  | case3 args h1 h2 =>
    unfold recordsOf at h
    split at h
    · exact absurd rfl h1
    · exact absurd rfl (h2 _ _ _ _ _ _ _)
    · simp at h

/-- A list is cut into records exactly when its length is a multiple of six (R115). -/
theorem recordsOf_eq_none_iff (args : List Word) : recordsOf args = none ↔ args.length % 6 ≠ 0 := by
  induction args using recordsOf.induct with
  | case1 => simp [recordsOf]
  | case2 p c b i t f rest ih =>
    simp only [recordsOf, Option.map_eq_none_iff, ih, List.length_cons]
    omega
  | case3 args h1 h2 =>
    have hl : args.length % 6 ≠ 0 := by
      match args, h1, h2 with
      | [], h1, _ => exact absurd rfl h1
      | [_], _, _ => simp
      | [_, _], _, _ => simp
      | [_, _, _], _, _ => simp
      | [_, _, _, _], _, _ => simp
      | [_, _, _, _, _], _, _ => simp
      | a :: b :: c :: d :: e :: f :: rest, _, h2 => exact absurd rfl (h2 a b c d e f rest)
    simp only [hl, ne_eq, not_false_eq_true, iff_true]
    unfold recordsOf
    split
    · exact absurd rfl h1
    · exact absurd rfl (h2 _ _ _ _ _ _ _)
    · rfl

theorem commandWord_rsvd (op : Opcode) (ch : Chan) : (commandWord op ch).extractLsb' 5 27 = 0 := by
  cases op <;> cases ch <;> decide

theorem opcodeOf_commandWord (op : Opcode) (ch : Chan) :
    opcodeOf ((commandWord op ch).extractLsb' 0 4) = some op := by
  cases op <;> cases ch <;> decide

theorem commandWord_ch (op : Opcode) (ch : Chan) : (commandWord op ch).getLsbD 4 = decide (ch = .c1) := by
  cases op <;> cases ch <;> decide

/-- A CMD word the encoder makes decodes to its opcode's operands (R111, R115). -/
theorem decodeCommand_commandWord (op : Opcode) (ch : Chan) (args : List Word)
    (h : op.takesChannel = true ∨ ch = .c0) :
    decodeCommand (commandWord op ch) args =
      match operandsOf op ch args with
      | none => .error .argumentShape
      | some i => .ok i := by
  have hch : chanOfBit (decide (ch = .c1)) = ch := by cases ch <;> rfl
  simp only [decodeCommand, commandWord_rsvd, opcodeOf_commandWord, commandWord_ch, hch]
  rcases h with h | rfl
  · simp [h] <;> rfl
  · simp <;> rfl

/-- The opcode field of a decoded opcode (R112). -/
theorem opcodeOf_eq_some {b : BitVec 4} {op : Opcode} (h : opcodeOf b = some op) : b = BitVec.ofNat 4 op.code := by
  cases op <;> revert b <;> decide

/-- A CMD word is its three fields (R111). -/
theorem eq_commandWord {w : Word} {op : Opcode} (h1 : w.extractLsb' 5 27 = 0)
    (h2 : w.extractLsb' 0 4 = BitVec.ofNat 4 op.code) : w = commandWord op (chanOfBit (w.getLsbD 4)) := by
  have e : w = (w.extractLsb' 5 27 ++ (w.extractLsb' 4 1 ++ w.extractLsb' 0 4) : BitVec 32) := by
    apply BitVec.eq_of_getLsbD_eq
    intro i hi
    simp only [BitVec.getLsbD_append, BitVec.getLsbD_extractLsb']
    by_cases a : i < 5
    · by_cases b : i < 4
      · simp [a, b]
      · have : i = 4 := by omega
        subst this
        simp
    · simp [a, show i - 5 < 27 by omega]
      congr 1
      omega
  have e4 : w.extractLsb' 4 1 = BitVec.ofBool (w.getLsbD 4) := by
    apply BitVec.eq_of_getLsbD_eq
    intro i hi
    have : i = 0 := by omega
    subst this
    simp
  rw [h1, h2, e4] at e
  generalize w.getLsbD 4 = b at *
  subst e
  cases op <;> cases b <;> decide

/-- What a CMD word that decodes was (R111, R114, R115). -/
theorem decodeCommand_ok {w : Word} {args : List Word} {i : Instr} (h : decodeCommand w args = .ok i) :
    ∃ op ch, (op.takesChannel = true ∨ ch = .c0) ∧ w = commandWord op ch ∧ operandsOf op ch args = some i := by
  unfold decodeCommand at h
  split at h
  · simp at h
  rename_i h1
  split at h
  · simp at h
  rename_i op h2
  split at h
  · simp at h
  rename_i h3
  split at h
  · simp at h
  rename_i i' h4
  simp only [Except.ok.injEq] at h
  subst h
  refine ⟨op, _, ?_, eq_commandWord (by simpa using h1) (opcodeOf_eq_some h2), h4⟩
  rcases hc : op.takesChannel with _ | _
  · simp only [hc, Bool.not_false, Bool.and_true, Bool.not_eq_true] at h3
    right
    rw [h3]
    rfl
  · simp

theorem decode_command_cons (w : Word) (args : List Word) : decode .command (w :: args) = decodeCommand w args := rfl

theorem decode_command_nil : decode .command [] = .error .reservedEncoding := rfl

theorem decode_block (ws : List Word) : decode .block ws = decodeBlock ws := rfl

theorem noOperands_some {i j : Instr} {args : List Word} (h : noOperands i args = some j) : args = [] ∧ j = i := by
  cases args <;> simp_all [noOperands]

theorem threeOperands_some {j : Instr} {args : List Word} (h : threeOperands args = some j) :
    ∃ a b c, args = [a, b, c] ∧ j = .init1 a b c := by
  unfold threeOperands at h
  split at h <;> simp_all

theorem twoOperands_some {j : Instr} {ch : Chan} {args : List Word} (h : twoOperands ch args = some j) :
    ∃ a b, args = [a, b] ∧ j = .setpixel ch a b := by
  unfold twoOperands at h
  split at h <;> simp_all

/-- An argument list with the shape of its opcode makes a host command (R110, R115). -/
theorem operandsOf_cls {op : Opcode} {ch : Chan} {args : List Word} {i : Instr} (h : operandsOf op ch args = some i) :
    i.cls = .command := by
  cases op <;> simp only [operandsOf] at h
  case init => obtain ⟨rs, -, rfl⟩ := Option.map_eq_some_iff.mp h; rfl
  case init1 => obtain ⟨a, b, c, -, rfl⟩ := threeOperands_some h; rfl
  case setpixel => obtain ⟨a, b, -, rfl⟩ := twoOperands_some h; rfl
  case setbitmap => cases h; rfl
  all_goals obtain ⟨-, rfl⟩ := noOperands_some h; rfl

/-- A command decodes to an instruction of its own class (R110). -/
theorem decode_command_cls {ws : List Word} {i : Instr} (h : decode .command ws = .ok i) : i.cls = .command := by
  cases ws with
  | nil =>
    rw [decode_command_nil] at h
    cases h
  | cons w args =>
    rw [decode_command_cons] at h
    obtain ⟨op, ch, -, -, ho⟩ := decodeCommand_ok h
    exact operandsOf_cls ho

/-- What a block that decodes is: a TI word without reserved bits, and the five words after it (R120, R121). -/
theorem decodeBlock_ok {ws : List Word} {i : Instr} (h : decodeBlock ws = .ok i) :
    ∃ ti src dst len stride nextcb rest, ws = ti :: src :: dst :: len :: stride :: nextcb :: rest ∧
      ti &&& tiReserved = 0 ∧ i = .cb ⟨TransferInfo.ofWord ti, src, dst, len, stride, nextcb⟩ := by
  unfold decodeBlock at h
  split at h
  · split at h
    · simp at h
    · rename_i hz
      simp only [Except.ok.injEq] at h
      exact ⟨_, _, _, _, _, _, _, rfl, by simpa using hz, h.symm⟩
  · simp at h

theorem bitAt_getLsbD (b : Bool) (k i : Nat) (hi : i < 32) : (bitAt b k).getLsbD i = (b && decide (i = k)) := by
  cases b
  · simp [bitAt]
  · simp only [bitAt, if_true, BitVec.getLsbD_shiftLeft, BitVec.getLsbD_one, Bool.true_and, hi, decide_true]
    by_cases h : i = k
    · subst h; simp
    · by_cases h2 : i < k
      · simp [h, h2]
      · simp [h]; omega

/-- A bit of a TI word (R121). -/
theorem toWord_getLsbD (ti : TransferInfo) (i : Nat) (hi : i < 32) :
    ti.toWord.getLsbD i =
      ((ti.inten && decide (i = 0)) || (ti.destInc && decide (i = 4)) || (ti.destDreq && decide (i = 6)) ||
        (ti.srcInc && decide (i = 8)) || (decide (16 ≤ i) && ti.permap.getLsbD (i - 16))) := by
  simp only [TransferInfo.toWord, BitVec.getLsbD_or, bitAt_getLsbD _ _ _ hi, BitVec.getLsbD_shiftLeft,
    BitVec.getLsbD_setWidth, hi]
  by_cases h : i < 16
  · simp [h]
  · simp [h, show 16 ≤ i by omega, show i - 16 < 32 by omega]

/-- An encoded TI word has no reserved bit set (R121). -/
theorem toWord_reserved (ti : TransferInfo) : ti.toWord &&& tiReserved = 0 := by
  obtain ⟨a, b, c, d, p⟩ := ti
  revert a b c d p
  decide

/-- The fields of an encoded TI word (R121). -/
theorem ofWord_toWord (ti : TransferInfo) : TransferInfo.ofWord ti.toWord = ti := by
  obtain ⟨a, b, c, d, p⟩ := ti
  revert a b c d p
  decide

/-- A TI word without reserved bits is its fields (R121). -/
theorem toWord_ofWord {w : Word} (h : w &&& tiReserved = 0) : (TransferInfo.ofWord w).toWord = w := by
  have hb : ∀ i, (w.getLsbD i && tiReserved.getLsbD i) = false := by
    intro i
    rw [← BitVec.getLsbD_and, h]
    simp
  apply BitVec.eq_of_getLsbD_eq
  intro i hi
  have h2 := hb i
  rw [toWord_getLsbD _ _ hi]
  simp only [TransferInfo.ofWord, BitVec.getLsbD_extractLsb']
  clear hb h
  interval_cases i <;> simp_all [tiReserved]

end Sys2Proof
end

