-- ==== Sys2Proof/Laws/Step.lean ====
section
/-! SUPPORT. What one step can do: one inductive relation that has every agent's steps, one lemma that a step's next state is in
it, and one lemma per kind of turn that says what the step is. -/

namespace Sys2Proof.Machine

/-! ### A turn at a time -/

@[simp] theorem Fetch.outcome_run (i : Instr) (s : State) : (Fetch.run i s).outcome = exec i s := rfl
@[simp] theorem Fetch.outcome_done (s : State) : (Fetch.done s).outcome = .next s := rfl
@[simp] theorem Fetch.outcome_refuse (r : Refusal) : (Fetch.refuse r).outcome = .refused r := rfl

theorem step_of_host {s : State} (h : s.turn = .host) :
    step s = s.dropTurn.hostTurn.outcome := by
  unfold step State.fetch
  simp only [h]

theorem step_of_dma {s : State} (h : s.turn = .dma) :
    step s = s.dropTurn.dmaTurn.outcome := by
  unfold step State.fetch
  simp only [h]

theorem step_of_stall {s : State} (h : s.turn = .stall) : step s = .next s.dropTurn.stallTurn := by
  unfold step State.fetch
  simp only [h, Fetch.outcome_done]

theorem step_of_ser {s : State} {c : Chan} (h : s.turn = .ser c) : step s = .next (s.dropTurn.serTurn c) := by
  unfold step State.fetch
  simp only [h, Fetch.outcome_done]

/-- The host's turn with a CMD write pending and no WAIT holding (40_controller_commands.md R150). -/
theorem step_of_issue {s : State} {w : Word} (h : AboutToIssue s w) :
    step s = (s.dropTurn.dropHost.issue w).outcome := by
  obtain ⟨ht, hw, b, rest, hq⟩ := h
  have hq' : s.dropTurn.env.hostq = ⟨.write 0x00#32 w, b⟩ :: rest := hq
  rw [step_of_host ht]
  simp only [State.hostTurn, hq', State.dropTurn_waiting, hw, Bool.false_and, Bool.false_eq_true, if_false,
    State.access, if_true]

/-! The agents' conditions do not read the inputs. -/

@[simp] theorem State.dropTurn_readable (s : State) (a : Nat) : s.dropTurn.readable a = s.readable a := rfl
@[simp] theorem State.dropTurn_writable (s : State) (a : Nat) : s.dropTurn.writable a = s.writable a := rfl
@[simp] theorem State.dropTurn_loadEnabled (s : State) : s.dropTurn.loadEnabled = s.loadEnabled := rfl
@[simp] theorem State.dropTurn_xferEnabled (s : State) : s.dropTurn.xferEnabled = s.xferEnabled := rfl
@[simp] theorem State.dropTurn_nextEnabled (s : State) : s.dropTurn.nextEnabled = s.nextEnabled := rfl
@[simp] theorem State.dropTurn_stallEnabled (s : State) : s.dropTurn.stallEnabled = s.stallEnabled := rfl
@[simp] theorem State.dropTurn_fetchBlock (s : State) : s.dropTurn.fetchBlock = s.fetchBlock := rfl
@[simp] theorem State.dropTurn_runs (s : State) (c : Chan) : s.dropTurn.runs c = s.runs c := by cases c <;> rfl
@[simp] theorem State.dropTurn_feeding (s : State) (c : Chan) : s.dropTurn.feeding c = s.feeding c := rfl
@[simp] theorem State.dropTurn_shiftEnabled (s : State) (c : Chan) : s.dropTurn.shiftEnabled c = s.shiftEnabled c := by
  cases c <;> rfl
@[simp] theorem State.dropTurn_gapEnabled (s : State) (c : Chan) : s.dropTurn.gapEnabled c = s.gapEnabled c := by
  cases c <;> rfl

/-- The sequencer's conditions, spelled out (42_dma_sequencer.md R275). -/
theorem State.loadEnabled_iff (s : State) :
    s.loadEnabled = true ↔ s.dma.active = true ∧ s.dma.stalled = false ∧ s.dma.dphase = .load := by
  simp [State.loadEnabled, State.dmaLive, and_assoc]

theorem State.xferEnabled_iff (s : State) :
    s.xferEnabled = true ↔
      s.dma.active = true ∧ s.dma.stalled = false ∧ s.dma.dphase = .xfer ∧ s.dma.txfrLen ≠ 0 ∧
        (s.info.destDreq = true → s.lineDreq = true) := by
  simp only [State.xferEnabled, State.dmaLive, Bool.and_eq_true, Bool.not_eq_true', decide_eq_true_eq, Bool.or_eq_true,
    and_assoc]
  refine and_congr_right fun _ => and_congr_right fun _ => and_congr_right fun _ => and_congr_right fun _ => ?_
  cases s.info.destDreq <;> simp

theorem State.nextEnabled_iff (s : State) :
    s.nextEnabled = true ↔
      s.dma.active = true ∧ s.dma.stalled = false ∧ s.dma.dphase = .xfer ∧ s.dma.txfrLen = 0 := by
  simp [State.nextEnabled, State.dmaLive, and_assoc]

/-! ### Every step -/

/-- Everything a step that answers a next state can have done. -/
inductive StepEffect (s : State) : State → Prop where
  /-- A host access that runs no command, or a turn in which nothing is enabled. -/
  | inputs (a : List Word) (e : Env) : StepEffect s { s with argq := a, env := e }
  /-- A host command, or the next test of a WAIT that holds (40_controller_commands.md R150, R182). -/
  | command (a : List Word) (e : Env) (i : Instr) (t : State) (hi : i.cls = .command)
      (hw : s.waiting = true → i = .wait) (h : exec i { s with argq := a, env := e } = .next t) (ht : s.turn = .host) :
      StepEffect s t
  /-- LOAD stops before it has read the block (42_dma_sequencer.md R278 rows 1 and 2). -/
  | loadStop (cause : BitVec 3) (hl : s.loadEnabled = true) (hf : s.fetchBlock = .error cause)
      (ht : s.turn = .dma) : StepEffect s (s.dropTurn.stop cause)
  /-- LOAD reads words with a reserved TI bit (R278 row 3). -/
  | loadIllegal (ws : List Word) (hl : s.loadEnabled = true) (hf : s.fetchBlock = .ok ws)
      (hd : ∀ i, decode .block ws ≠ .ok i) (ht : s.turn = .dma) : StepEffect s (s.dropTurn.loadIllegal ws)
  /-- LOAD reads a block (R277). -/
  | load (ws : List Word) (b : ControlBlock) (t : State) (hl : s.loadEnabled = true) (hf : s.fetchBlock = .ok ws)
      (hd : decode .block ws = .ok (.cb b)) (h : execCb b s.dropTurn = .next t) (ht : s.turn = .dma) :
      StepEffect s t
  /-- XFER (R279). -/
  | xfer (hx : s.xferEnabled = true) (ht : s.turn = .dma) : StepEffect s s.dropTurn.xfer
  /-- NEXT (R281). -/
  | next (hn : s.nextEnabled = true) (ht : s.turn = .dma) : StepEffect s s.dropTurn.nextBlock
  /-- STALL (R283). -/
  | stall (hs : s.stallEnabled = true) (ht : s.turn = .stall) : StepEffect s s.dropTurn.stall
  /-- SHIFT, GAP or nothing (43_pwm_serializer.md R303). -/
  | ser (c : Chan) (ht : s.turn = .ser c) : StepEffect s (s.dropTurn.serTurn c)

/-- The causes of a LOAD that stops before it has read the block. -/
theorem State.fetchBlock_error {s : State} {cause : BitVec 3} (h : s.fetchBlock = .error cause) :
    cause = 1 ∨ cause = 2 := by
  unfold State.fetchBlock at h
  split at h
  · cases h; exact .inl rfl
  · split at h
    · cases h
    · cases h; exact .inr rfl

/-- The words a LOAD reads (42_dma_sequencer.md R277). -/
theorem State.fetchBlock_ok {s : State} {ws : List Word} (h : s.fetchBlock = .ok ws) :
    s.dma.conblkAd.toNat % 32 = 0 ∧ (∀ k < 6, s.readable (s.dma.conblkAd.toNat + 4 * k) = true) ∧
      ws = wordsAt s.mem s.dma.conblkAd.toNat 6 := by
  unfold State.fetchBlock at h
  split at h
  · cases h
  · rename_i ha
    split at h
    · rename_i hr
      cases h
      refine ⟨by simpa using ha, fun k hk => ?_, rfl⟩
      simp only [List.all_cons, List.all_nil, Bool.and_true, Bool.and_eq_true] at hr
      interval_cases k <;> simp_all
    · cases h

/-- A LOAD whose words are all readable reads them. -/
theorem State.fetchBlock_of_readable {s : State} (ha : s.dma.conblkAd.toNat % 32 = 0)
    (hr : ∀ k < 6, s.readable (s.dma.conblkAd.toNat + 4 * k) = true) :
    s.fetchBlock = .ok (wordsAt s.mem s.dma.conblkAd.toNat 6) := by
  have h0 := hr 0 (by omega)
  have h1 := hr 1 (by omega)
  have h2 := hr 2 (by omega)
  have h3 := hr 3 (by omega)
  have h4 := hr 4 (by omega)
  have h5 := hr 5 (by omega)
  unfold State.fetchBlock
  simp only [ha, ne_eq, not_true_eq_false, if_false, List.all_cons, List.all_nil, Bool.and_true]
  rw [if_pos (by simp_all)]
  rfl

theorem decode_block_cb {ws : List Word} {i : Instr} (h : decode .block ws = .ok i) : ∃ b, i = .cb b := by
  rw [decode_block] at h
  obtain ⟨ti, src, dst, len, stride, nextcb, rest, -, -, rfl⟩ := decodeBlock_ok h
  exact ⟨_, rfl⟩

/-- What a host access comes to, from a state that differs from s in its inputs only. -/
theorem access_effect (s t : State) (ht : s.turn = .host) (a : List Word) (e : Env) (x : HostAccess)
    (h : (({ s with argq := a, env := e } : State).access x).outcome = .next t) : StepEffect s t := by
  cases x with
  | read offset =>
    cases h
    exact .inputs (s := s) a _
  | write offset v =>
    by_cases h0 : offset = 0x00#32
    · cases hw : s.waiting
      · cases hd : decode .command (v :: a) with
        | error er =>
          simp only [State.access, State.issue, h0, if_true, hw, Bool.false_eq_true, if_false, hd] at h
          cases h
        | ok i =>
          simp only [State.access, State.issue, h0, if_true, hw, Bool.false_eq_true, if_false, hd] at h
          refine .command [] e i t (decode_command_cls hd) (fun hwt => by rw [hw] at hwt; cases hwt) ?_ ?_
          · rw [← h, hw]
            rfl
          · exact ht
      · simp only [State.access, State.issue, h0, if_true, hw] at h
        cases h
    · by_cases h4 : offset = 0x04#32
      · subst h4
        cases h
        exact .inputs (s := s) _ e
      · simp only [State.access, h0, h4, if_false] at h
        cases h
        exact .inputs (s := s) a e

/-- What a step that answers a next state has done. -/
theorem step_effect {s t : State} (h : step s = .next t) : StepEffect s t := by
  cases ht : s.turn with
  | stall =>
    rw [step_of_stall ht] at h
    cases h
    unfold State.stallTurn
    split
    · exact .stall (by assumption) ht
    · exact .inputs s.argq _
  | ser c =>
    rw [step_of_ser ht] at h
    cases h
    exact .ser c ht
  | dma =>
    rw [step_of_dma ht] at h
    unfold State.dmaTurn at h
    rw [State.dropTurn_loadEnabled, State.dropTurn_fetchBlock, State.dropTurn_xferEnabled, State.dropTurn_nextEnabled] at h
    cases hl : s.loadEnabled
    · cases hx : s.xferEnabled
      · cases hn : s.nextEnabled
        · simp only [hl, hx, hn, Bool.false_eq_true, if_false] at h
          cases h
          exact .inputs s.argq _
        · simp only [hl, hx, hn, Bool.false_eq_true, if_false, if_true] at h
          cases h
          exact .next hn ht
      · simp only [hl, hx, Bool.false_eq_true, if_false, if_true] at h
        cases h
        exact .xfer hx ht
    · simp only [hl, if_true] at h
      cases hf : s.fetchBlock with
      | error c =>
        simp only [hf] at h
        cases h
        exact .loadStop c hl hf ht
      | ok ws =>
        simp only [hf] at h
        cases hd : decode .block ws with
        | error e =>
          simp only [hd] at h
          cases h
          exact .loadIllegal ws hl hf (fun i hi => by rw [hd] at hi; cases hi) ht
        | ok i =>
          simp only [hd] at h
          obtain ⟨b, rfl⟩ := decode_block_cb hd
          exact .load ws b t hl hf hd h ht
  | host =>
    rw [step_of_host ht] at h
    unfold State.hostTurn at h
    have hwait : ∀ u : State, (∃ e, u = { s with env := e }) → exec .wait u = .next t → StepEffect s t := by
      rintro u ⟨e, rfl⟩ hu
      exact .command s.argq e .wait t rfl (fun _ => rfl) hu ht
    cases hq : s.dropTurn.env.hostq with
    | nil =>
      simp only [hq] at h
      cases hw : s.dropTurn.waiting
      · simp only [hw, Bool.false_eq_true, if_false] at h
        cases h
        exact .inputs s.argq _
      · simp only [hw, if_true] at h
        exact hwait _ ⟨_, rfl⟩ h
    | cons x rest =>
      simp only [hq] at h
      cases hw : (s.dropTurn.waiting && !x.secondThread)
      · simp only [hw, Bool.false_eq_true, if_false] at h
        exact access_effect s t ht s.argq _ x.access h
      · simp only [hw, if_true] at h
        exact hwait _ ⟨_, rfl⟩ h

end Sys2Proof.Machine
end

