-- ==== Sys2Proof/Laws/Config.lean ====
section
/-! SUPPORT. INIT's checks in the numbers of the rules: which records and record lists are accepted, the plan a valid
list makes, and the geometry it fixes (40_controller_commands.md R155 to R162, 20_memory.md R87, R88). -/

namespace Sys2Proof.Machine

/-! ### One record -/

theorem pcmRecord_of_mem {p : Config} {r : ConfigRecord} {g : Nat} (hg : g ∈ p.pcmPins)
    (h : r.pin.toInt = (g : Int)) : pcmRecord p r = true := by
  simp only [pcmRecord, pcmOnly, List.any_eq_true, decide_eq_true_eq]
  exact ⟨g, hg, h⟩

theorem pcmRecord_any_false {p : Config} {rs : List ConfigRecord} (h : NoPcmPin p rs) :
    rs.any (pcmRecord p) = false := by
  simp only [List.any_eq_false, pcmRecord, pcmOnly, List.any_eq_true, decide_eq_true_eq, not_exists, not_and]
  exact h

theorem stripTypeOf_cases (n : Nat) :
    (stripTypeOf n = none ∧ 11 < n) ∨
      ∃ t, stripTypeOf n = some t ∧ n ≤ 11 ∧ stripNcol t = if n ≤ 5 then 3 else 4 := by
  by_cases h : n ≤ 11
  · right
    interval_cases n <;> exact ⟨_, rfl, by omega, rfl⟩
  · left
    refine ⟨?_, by omega⟩
    unfold stripTypeOf
    split <;> first | omega | rfl

theorem routed_iff (p : Config) (c : Chan) (x : Int) :
    routed p c x = true ↔ ∃ g ∈ routeOf p c, x = (g : Int) := by
  cases c <;> simp [routed, routeOf]

theorem supportedFreqs_iff (n : Nat) : supportedFreqs.contains n = true ↔ (n = 400000 ∨ n = 800000) := by
  simp [supportedFreqs]

/-- The configuration of an accepted record of strip type t. -/
def recordConfig (r : ConfigRecord) (t : StripType) : ChannelConfig where
  pin := r.pin.toInt
  count := r.count.toNat
  bright := BitVec.ofNat 8 r.bright.toNat
  invert := decide (r.invw.toNat = 1)
  stype := t
  freq := r.freq.toNat

theorem channelConfig_cases (p : Config) (c : Chan) (r : ConfigRecord) :
    (¬ValidRecord p c r ∧ channelConfig p c r = none) ∨
      (ValidRecord p c r ∧
        ∃ t, stripTypeOf r.stype.toNat = some t ∧ channelConfig p c r = some (recordConfig r t)) := by
  unfold channelConfig ValidRecord
  rw [← routed_iff, ← supportedFreqs_iff]
  by_cases h1 : r.count.toNat = 0
  · left; simp [h1]
  by_cases h2 : 255 < r.bright.toNat
  · left; simp [h1, h2]
  by_cases h3 : 1 < r.invw.toNat
  · left; simp [h1, h2, h3]
  by_cases h4 : supportedFreqs.contains r.freq.toNat = true
  swap
  · left
    refine ⟨fun hh => h4 hh.2.2.2.2.1, ?_⟩
    simp only [Bool.not_eq_true] at h4
    simp only [h1, h2, h3, h4, if_false, Bool.not_false, if_true]
  by_cases h5 : routed p c r.pin.toInt = true
  swap
  · left
    simp only [Bool.not_eq_true] at h5
    simp [h1, h2, h3, h5, gpioPin]
  rcases stripTypeOf_cases r.stype.toNat with ⟨h6, h7⟩ | ⟨t, h6, h7, -⟩
  · left
    simp [h1, h2, h3, h5, h6, gpioPin]
    omega
  · right
    refine ⟨⟨h1, by omega, by omega, h7, h4, h5⟩, t, h6, ?_⟩
    simp only [h1, h2, h3, h4, if_false, Bool.not_true, Bool.false_eq_true, gpioPin, h5, h6]
    rfl

/-! ### The record list -/

theorem planOf_cases (p : Config) (k0 : ChannelConfig) (k1 : Option ChannelConfig) (r : ConfigRecord)
    (h : k0.freq = r.freq.toNat) :
    (¬ValidDivisor p r ∧ planOf p k0 k1 = none) ∨
      (ValidDivisor p r ∧
        planOf p k0 k1 = some ⟨k0, k1, (p.fSrc + 3 * r.freq.toNat / 2) / (3 * r.freq.toNat)⟩) := by
  unfold planOf ValidDivisor clockDivisor
  rw [h]
  split
  · rename_i hh
    simp only [Bool.or_eq_true, decide_eq_true_eq] at hh
    refine .inl ⟨?_, rfl⟩
    rintro ⟨g1, g2⟩
    rcases hh with hh | hh
    · exact absurd g1 (Nat.not_le.mpr hh)
    · exact absurd g2 (Nat.not_le.mpr hh)
  · rename_i hh
    simp only [Bool.or_eq_true, decide_eq_true_eq, not_or, Nat.not_lt] at hh
    exact .inr ⟨hh, rfl⟩

/-- A list that fails a configuration check has no plan. -/
theorem initPlan_of_invalid {p : Config} {rs : List ConfigRecord} (h : ¬ValidConfig p rs) : initPlan p rs = none := by
  unfold initPlan
  split
  · rename_i r0
    rcases channelConfig_cases p .c0 r0 with ⟨h1, h2⟩ | ⟨h1, t, h2, h3⟩
    · rw [h2]
    · rw [h3]
      rcases planOf_cases p (recordConfig r0 t) none r0 rfl with ⟨h4, h5⟩ | ⟨h4, h5⟩
      · exact h5
      · exact absurd ⟨h1, h4⟩ h
  · rename_i r0 r1
    rcases channelConfig_cases p .c0 r0 with ⟨h1, h2⟩ | ⟨h1, t, h2, h3⟩
    · simp [h2]
    rcases channelConfig_cases p .c1 r1 with ⟨h1', h2'⟩ | ⟨h1', t', h2', h3'⟩
    · simp [h3, h2']
    simp only [h3, h3']
    split
    · rfl
    split
    · rfl
    rename_i hp hf
    rcases planOf_cases p (recordConfig r0 t) (some (recordConfig r1 t')) r0 rfl with ⟨h4, h5⟩ | ⟨h4, h5⟩
    · exact h5
    · refine absurd ⟨h1, h1', ?_, ?_, h4⟩ h
      · intro e
        exact hp (congrArg BitVec.toInt e)
      · simp only [ne_eq, Decidable.not_not] at hf
        exact BitVec.eq_of_toNat_eq hf
  · rfl

/-- A valid list's plan: its configurations and the divisor of the first record's frequency. -/
theorem initPlan_of_valid {p : Config} {rs : List ConfigRecord} (h : ValidConfig p rs) :
    ∃ r0, rs[0]? = some r0 ∧
      ∃ t0, stripTypeOf r0.stype.toNat = some t0 ∧ ValidRecord p .c0 r0 ∧ ValidDivisor p r0 ∧
        ((rs = [r0] ∧
            initPlan p rs =
              some ⟨recordConfig r0 t0, none, (p.fSrc + 3 * r0.freq.toNat / 2) / (3 * r0.freq.toNat)⟩) ∨
          ∃ r1 t1, rs = [r0, r1] ∧ stripTypeOf r1.stype.toNat = some t1 ∧ ValidRecord p .c1 r1 ∧
            initPlan p rs =
              some ⟨recordConfig r0 t0, some (recordConfig r1 t1),
                (p.fSrc + 3 * r0.freq.toNat / 2) / (3 * r0.freq.toNat)⟩) := by
  match rs, h with
  | [r0], h =>
    obtain ⟨h1, h2⟩ := h
    rcases channelConfig_cases p .c0 r0 with ⟨n, _⟩ | ⟨_, t, h3, h4⟩
    · exact absurd h1 n
    refine ⟨r0, rfl, t, h3, h1, h2, .inl ⟨rfl, ?_⟩⟩
    simp only [initPlan, h4]
    rcases planOf_cases p (recordConfig r0 t) none r0 rfl with ⟨h5, _⟩ | ⟨_, h5⟩
    · exact absurd h2 h5
    · exact h5
  | [r0, r1], h =>
    obtain ⟨h1, h1', hp, hf, h2⟩ := h
    rcases channelConfig_cases p .c0 r0 with ⟨n, _⟩ | ⟨_, t, h3, h4⟩
    · exact absurd h1 n
    rcases channelConfig_cases p .c1 r1 with ⟨n, _⟩ | ⟨_, t', h3', h4'⟩
    · exact absurd h1' n
    refine ⟨r0, rfl, t, h3, h1, h2, .inr ⟨r1, t', rfl, h3', h1', ?_⟩⟩
    simp only [initPlan, h4, h4']
    have hpin : (recordConfig r0 t).pin ≠ (recordConfig r1 t').pin := fun e => hp (BitVec.eq_of_toInt_eq e)
    have hfreq : (recordConfig r0 t).freq = (recordConfig r1 t').freq := congrArg BitVec.toNat hf
    rw [if_neg hpin, if_neg (fun e => e hfreq)]
    rcases planOf_cases p (recordConfig r0 t) (some (recordConfig r1 t')) r0 rfl with ⟨h5, _⟩ | ⟨_, h5⟩
    · exact absurd h2 h5
    · exact h5

/-- INIT of a valid list without PCM pins comes to its claim. -/
theorem exec_init_of_valid {s : State} {rs : List ConfigRecord} (hn : NoPcmPin s.config rs)
    (hv : ValidConfig s.config rs) : ∃ q, initPlan s.config rs = some q ∧ exec (.init rs) s = .next (s.claim q) := by
  obtain ⟨q, hq⟩ : ∃ q, initPlan s.config rs = some q := by
    obtain ⟨r0, -, t0, -, -, -, ⟨-, h⟩ | ⟨r1, t1, -, -, -, h⟩⟩ := initPlan_of_valid hv <;> exact ⟨_, h⟩
  refine ⟨q, hq, ?_⟩
  simp only [exec, execInit, initDevice, pcmRecord_any_false hn, hq, Bool.false_eq_true, if_false]

/-! ### Geometry -/

theorem frameWords_recordConfig {r : ConfigRecord} {t : StripType} (h : stripTypeOf r.stype.toNat = some t) :
    frameWords (recordConfig r t) = recordWords r := by
  have h1 : resetSlots r.freq.toNat = (165 * r.freq.toNat + 999999) / 1000000 := by
    unfold resetSlots resetUs ceilDiv
    omega
  unfold frameWords recordWords recordConfig
  simp only [h1]
  rcases stripTypeOf_cases r.stype.toNat with ⟨h6, -⟩ | ⟨t', h6, -, h8⟩
  · rw [h] at h6
    cases h6
  · rw [h] at h6
    cases h6
    rw [h8]
    unfold ceilDiv
    omega

/-- SLOT, RSIZE and NCH of a valid list's plan, in numbers. -/
theorem initPlan_geometry {p : Config} {rs : List ConfigRecord} {q : InitPlan} (h : ValidConfig p rs)
    (hq : initPlan p rs = some q) : q.slot = configSlot rs ∧ q.rsize = configRsize rs ∧ q.nch = rs.length := by
  obtain ⟨hs, hn⟩ : q.slot = configSlot rs ∧ q.nch = rs.length := by
    obtain ⟨r0, -, t0, ht0, -, -, ⟨rfl, h⟩ | ⟨r1, t1, rfl, ht1, -, h⟩⟩ := initPlan_of_valid h
    · rw [h] at hq
      obtain rfl := Option.some.inj hq
      refine ⟨?_, rfl⟩
      rw [configSlot, configSlot, Nat.max_zero, InitPlan.slot, frameWords_recordConfig ht0]
    · rw [h] at hq
      obtain rfl := Option.some.inj hq
      refine ⟨?_, rfl⟩
      rw [configSlot, configSlot, configSlot, Nat.max_zero, InitPlan.slot]
      simp only [frameWords_recordConfig ht0, frameWords_recordConfig ht1]
  refine ⟨hs, ?_, hn⟩
  simp only [InitPlan.rsize, configRsize, hs, hn]

theorem baseOk_iff (p : Config) (n : Nat) (b : Word) : baseOk p n b = true ↔ BaseConstraint p n b := by
  unfold baseOk BaseConstraint
  simp only [Bool.and_eq_true, decide_eq_true_eq, Bool.not_eq_true', Bool.and_eq_false_iff, decide_eq_false_iff_not,
    and_assoc, ne_eq, not_and_or]
  have h : b = 0 ↔ b.toNat = 0 := by
    rw [← BitVec.toNat_inj]
    rfl
  rw [h]

end Sys2Proof.Machine
end

