-- ==== Sys2Proof/Laws/Encoder.lean ====
section
/-! SUPPORT. The bitstream encoder and the strip decoder: the lengths of a frame's parts, which word bit a slot is, the triplet
structure of its data, and how the decoder scans triplets, quiet runs, bytes and pixels. -/

namespace Sys2Proof.Machine

/-! ### Lists of equal pieces -/

theorem flatMap_length_const {α β : Type} (n : Nat) (f : α → List β) (l : List α) (h : ∀ a ∈ l, (f a).length = n) :
    (l.flatMap f).length = l.length * n := by
  induction l with
  | nil => simp
  | cons a l ih =>
    simp only [List.flatMap_cons, List.length_append, List.length_cons, h a (by simp), ih (fun b hb => h b (by simp [hb]))]
    ring

theorem flatMap_eq_replicate {α β : Type} (n : Nat) (t : List β) (f : α → List β) (l : List α)
    (h : ∀ a ∈ l, f a = (List.replicate n t).flatten) :
    l.flatMap f = (List.replicate (l.length * n) t).flatten := by
  induction l with
  | nil => simp
  | cons a l ih =>
    rw [List.flatMap_cons, h a (by simp), ih (fun b hb => h b (by simp [hb])), ← List.flatten_append,
      List.replicate_append_replicate]
    congr 2
    simp only [List.length_cons]
    ring

theorem flatMap_getElem? {α β : Type} (n : Nat) (f : α → List β) (l : List α) (hf : ∀ a, (f a).length = n) (k i : Nat)
    (hk : k < l.length) (hi : i < n) : (l.flatMap f)[k * n + i]? = (f l[k])[i]? := by
  induction l generalizing k with
  | nil => simp at hk
  | cons a l ih =>
    cases k with
    | zero =>
      simp only [List.flatMap_cons, Nat.zero_mul, Nat.zero_add, List.getElem_cons_zero]
      rw [List.getElem?_append_left (by rw [hf]; exact hi)]
    | succ k =>
      have e : (k + 1) * n + i - n = k * n + i := by rw [Nat.succ_mul]; omega
      rw [List.flatMap_cons, List.getElem?_append_right (by rw [hf, Nat.succ_mul]; omega), hf, e,
        ih k (by simpa using hk)]
      simp

/-! ### Lengths (41_bitstream_encoder.md R224 to R229) -/

theorem bitcode_length (b : Bool) : (bitcode b).length = 3 := by cases b <;> rfl

theorem flatMap_bitcode_length (bits : List Bool) : (bits.flatMap bitcode).length = 3 * bits.length := by
  rw [flatMap_length_const 3 _ _ (fun _ _ => bitcode_length _)]
  ring

theorem bytecode_length (v : Byte) : (bytecode v).length = 24 := by
  unfold bytecode
  rw [flatMap_length_const 3 _ _ (fun _ _ => bitcode_length _)]
  rfl

theorem stripOrder_length (t : StripType) : (stripOrder t).length = stripNcol t := by cases t <;> rfl

theorem stripNcol_pos (t : StripType) : 0 < stripNcol t := by cases t <;> decide

theorem pixbytes_length (c : Word) (cfg : ChannelConfig) : (pixbytes c cfg).length = stripNcol cfg.stype := by
  simp [pixbytes, stripOrder_length]

theorem dataSlots_length (pix : List Word) (cfg : ChannelConfig) :
    (dataSlots pix cfg).length = pix.length * (stripNcol cfg.stype * 24) := by
  unfold dataSlots
  apply flatMap_length_const
  intro c _
  rw [flatMap_length_const 24 _ _ (fun _ _ => bytecode_length _), pixbytes_length]

/-- A frame's data, reset code and padding fill WORDS words, with fewer than 32 slots of padding. -/
theorem frame_fills_words {pix : List Word} {cfg : ChannelConfig} (h : pix.length = cfg.count) :
    (dataSlots pix cfg).length + resetSlots cfg.freq + padSlots pix cfg = 32 * frameWords cfg ∧
      padSlots pix cfg ≤ 31 := by
  have hd : (dataSlots pix cfg).length = cfg.count * stripNcol cfg.stype * 24 := by
    rw [dataSlots_length, h]
    ring
  unfold padSlots
  rw [hd]
  unfold frameWords ceilDiv
  omega

theorem frameSlots_length {pix : List Word} {cfg : ChannelConfig} (h : pix.length = cfg.count) :
    (frameSlots pix cfg).length = 32 * frameWords cfg := by
  unfold frameSlots
  simp only [List.length_append, List.length_replicate]
  exact (frame_fills_words h).1

/-! ### Packing (R231) -/

theorem bitsValue_fold (bs : List Bool) (a : Nat) :
    bs.foldl (fun acc b => 2 * acc + b.toNat) a = a * 2 ^ bs.length + bitsValue bs := by
  induction bs generalizing a with
  | nil => simp [bitsValue]
  | cons b bs ih =>
    simp only [List.foldl_cons, bitsValue, List.length_cons]
    rw [ih, ih (2 * 0 + b.toNat)]
    simp only [bitsValue]
    ring

theorem bitsValue_cons (b : Bool) (bs : List Bool) : bitsValue (b :: bs) = b.toNat * 2 ^ bs.length + bitsValue bs := by
  simpa [bitsValue] using bitsValue_fold bs (2 * 0 + b.toNat)

theorem bitsValue_lt (bs : List Bool) : bitsValue bs < 2 ^ bs.length := by
  induction bs with
  | nil => simp [bitsValue]
  | cons b bs ih =>
    rw [bitsValue_cons, List.length_cons, Nat.pow_succ]
    cases b <;> simp <;> omega

/-- Digit k of a list, counted from the first, is bit length - 1 - k of its value. -/
theorem bitsValue_testBit (bs : List Bool) (k : Nat) (h : k < bs.length) :
    (bitsValue bs).testBit (bs.length - 1 - k) = bs[k] := by
  induction bs generalizing k with
  | nil => simp at h
  | cons b bs ih =>
    have hl := bitsValue_lt bs
    rw [bitsValue_cons, Nat.mul_comm]
    cases k with
    | zero =>
      simp only [List.length_cons, Nat.add_sub_cancel, Nat.sub_zero, List.getElem_cons_zero]
      rw [Nat.testBit_two_pow_mul_add _ hl]
      cases b <;> simp
    | succ k =>
      simp only [List.length_cons] at h
      have e : (b :: bs).length - 1 - (k + 1) = bs.length - 1 - k := by simp; omega
      rw [e, Nat.testBit_two_pow_mul_add _ hl, if_pos (by omega), ih k (by omega)]
      simp

/-- Slot m of a slot list is bit 31 - (m mod 32) of word m div 32 of its packing. -/
theorem packWords_getElem? (n : Nat) (bs : List Bool) (m : Nat) (hl : bs.length = 32 * n) (h : m < 32 * n) :
    ∃ w, (packWords n bs)[m / 32]? = some w ∧ bs[m]? = some (w.getLsbD (31 - m % 32)) := by
  induction n generalizing bs m with
  | zero => omega
  | succ n ih =>
    by_cases hm : m < 32
    · refine ⟨BitVec.ofNat 32 (bitsValue (bs.take 32)), ?_, ?_⟩
      · rw [show m / 32 = 0 by omega]
        simp [packWords]
      · have ht : (bs.take 32).length = 32 := by simp; omega
        have hb := bitsValue_testBit (bs.take 32) m (by omega)
        rw [show (List.take 32 bs).length - 1 - m = 31 - m by omega] at hb
        rw [show m % 32 = m by omega, BitVec.getLsbD_ofNat, hb]
        simp [show 31 - m < 32 by omega]
    · obtain ⟨w, h1, h2⟩ := ih (bs.drop 32) (m - 32) (by simp; omega) (by omega)
      refine ⟨w, ?_, ?_⟩
      · rw [show m / 32 = (m - 32) / 32 + 1 by omega]
        simpa [packWords] using h1
      · rw [List.getElem?_drop, show 32 + (m - 32) = m by omega, show (m - 32) % 32 = m % 32 by omega] at h2
        exact h2

/-- The bits of the packed words, bit 31 first, are the slots. -/
theorem packWords_bits (n : Nat) (bs : List Bool) (h : bs.length = 32 * n) :
    (packWords n bs).flatMap (fun w => (List.range 32).map (fun k => w.getLsbD (31 - k))) = bs := by
  induction n generalizing bs with
  | zero =>
    have : bs = [] := List.eq_nil_of_length_eq_zero (by omega)
    subst this
    rfl
  | succ n ih =>
    have hw : (List.range 32).map (fun k => (BitVec.ofNat 32 (bitsValue (bs.take 32))).getLsbD (31 - k)) = bs.take 32 := by
      apply List.ext_getElem
      · simp
        omega
      · intro m h1 h2
        simp only [List.length_map, List.length_range] at h1
        obtain ⟨w, hw1, hw2⟩ := packWords_getElem? (n + 1) bs m h (by omega)
        rw [show m / 32 = 0 by omega] at hw1
        simp only [packWords, List.getElem?_cons_zero, Option.some.injEq] at hw1
        subst hw1
        rw [show m % 32 = m by omega, List.getElem?_eq_getElem (by omega)] at hw2
        simp only [List.getElem_map, List.getElem_range, List.getElem_take]
        exact (Option.some.inj hw2).symm
    simp only [packWords, List.flatMap_cons]
    rw [ih _ (by simp; omega), hw, List.take_append_drop]

/-! ### The triplet structure of a frame's data (R224, R225, R233) -/

/-- The bits of a byte, most significant first (R225). -/
def byteBits (v : Byte) : List Bool := [7, 6, 5, 4, 3, 2, 1, 0].map (fun k => v.getLsbD k)

/-- The data bits of a pixel buffer. -/
def pixBits (pix : List Word) (cfg : ChannelConfig) : List Bool :=
  pix.flatMap (fun c => (pixbytes c cfg).flatMap byteBits)

theorem dataSlots_eq_pixBits (pix : List Word) (cfg : ChannelConfig) :
    dataSlots pix cfg = (pixBits pix cfg).flatMap bitcode := by
  unfold dataSlots bytecode pixBits byteBits
  simp only [List.flatMap_assoc, List.flatMap_map]

theorem byteBits_length (v : Byte) : (byteBits v).length = 8 := rfl

theorem pixBits_length (pix : List Word) (cfg : ChannelConfig) :
    (pixBits pix cfg).length = pix.length * (stripNcol cfg.stype * 8) := by
  unfold pixBits
  apply flatMap_length_const
  intro c _
  rw [flatMap_length_const 8 _ _ (fun _ _ => byteBits_length _), pixbytes_length]

/-- Three slots in a row of a sequence of bit codes are not all low. -/
theorem bitcodes_no_low_run (bits : List Bool) (i : Nat) (h0 : (bits.flatMap bitcode)[i]? = some false)
    (h1 : (bits.flatMap bitcode)[i + 1]? = some false) : (bits.flatMap bitcode)[i + 2]? ≠ some false := by
  induction bits generalizing i with
  | nil => simp at h0
  | cons b bits ih =>
    match i with
    | 0 => cases b <;> simp [bitcode] at h0
    | 1 =>
      cases b
      · cases bits with
        | nil => simp [bitcode]
        | cons c bits => cases c <;> simp [bitcode]
      · simp [bitcode] at h0
    | 2 =>
      cases bits with
      | nil => cases b <;> simp [bitcode] at h1
      | cons c bits => cases b <;> cases c <;> simp [bitcode] at h1
    | i + 3 =>
      have e : ∀ j, ((b :: bits).flatMap bitcode)[j + 3]? = (bits.flatMap bitcode)[j]? := by
        intro j
        cases b <;> simp [bitcode]
      rw [e i] at h0
      rw [show i + 3 + 1 = i + 1 + 3 by omega, e (i + 1)] at h1
      rw [show i + 3 + 2 = i + 2 + 3 by omega, e (i + 2)]
      exact ih i h0 h1

/-! ### Components (R222, R234) -/

/-- Every component but W depends on bits 23:0 only. -/
theorem comp_congr {c c' : Word} (h : c.toNat % 2 ^ 24 = c'.toNat % 2 ^ 24) (l : Letter) (hl : l ≠ .W) :
    comp c l = comp c' l := by
  cases l <;> simp only [comp] <;> first | exact absurd rfl hl | skip
  all_goals
    apply BitVec.eq_of_toNat_eq
    simp only [BitVec.extractLsb'_toNat, Nat.shiftRight_eq_div_pow]
    omega

theorem stripOrder_no_white {t : StripType} (h : stripNcol t = 3) : ∀ l ∈ stripOrder t, l ≠ .W := by
  cases t <;> first | decide | simp [stripNcol] at h

/-- A dark buffer sends nothing but zero bits. -/
theorem dataSlots_dark {pix : List Word} {cfg : ChannelConfig} (h : cfg.bright = 0 ∨ ∀ c ∈ pix, c = 0) :
    dataSlots pix cfg = (List.replicate (pix.length * stripNcol cfg.stype * 8) [true, false, false]).flatten := by
  unfold dataSlots
  rw [Nat.mul_assoc]
  apply flatMap_eq_replicate
  intro c hc
  have hz : ∀ v ∈ pixbytes c cfg, v = 0 := by
    intro v hv
    simp only [pixbytes, List.mem_map] at hv
    obtain ⟨l, _, rfl⟩ := hv
    rcases h with h | h
    · rw [h]
      simp [scale]
    · rw [h c hc]
      cases l <;> simp [scale, comp]
  rw [← pixbytes_length c cfg]
  apply flatMap_eq_replicate
  intro v hv
  rw [hz v hv]
  decide

/-! ### The decoder (43_pwm_serializer.md R308 to R311) -/

/-- The frame's slots as a logical stream. -/
def levelEvents (bs : List Bool) : List WireEvent := bs.map .lvl

theorem levelEvents_append (as bs : List Bool) : levelEvents (as ++ bs) = levelEvents as ++ levelEvents bs := by
  simp [levelEvents]

/-- The strip undoes the serializer's polarity. -/
theorem logical_levels (inv : Bool) (bs : List Bool) :
    logical inv (bs.map (fun b => .lvl (b ^^ inv))) = levelEvents bs := by
  simp [logical, levelEvents, Function.comp_def]

/-- Reading one bit code: the segment so far, followed by its low tail, grows by the code. -/
theorem segmentsFrom_bitcode (lim : Nat) (hlim : 3 ≤ lim) (b : Bool) (seg : List Bool) (z : Nat) (hz : z ≤ 2)
    (hs : seg = [] → z = 0) :
    ∃ seg' z', z' ≤ 2 ∧ seg' ≠ [] ∧
      seg' ++ List.replicate z' false = seg ++ List.replicate z false ++ bitcode b ∧
      ∀ rest, segmentsFrom lim seg z false (levelEvents (bitcode b) ++ rest) = segmentsFrom lim seg' z' false rest := by
  have hl : latchRun lim z false = false := by simp [latchRun]; omega
  have hl0 : latchRun lim 0 false = false := by simp [latchRun]; omega
  cases hseg : seg with
  | nil =>
    have hz0 := hs hseg
    subst hz0
    cases b
    · exact ⟨[true], 2, by omega, by simp, by simp [bitcode],
        fun r => by simp [levelEvents, bitcode, segmentsFrom, hl0]⟩
    · exact ⟨[true, true], 1, by omega, by simp, by simp [bitcode],
        fun r => by simp [levelEvents, bitcode, segmentsFrom, hl0]⟩
  | cons a l =>
    cases b
    · exact ⟨a :: l ++ List.replicate z false ++ [true], 2, by omega, by simp, by simp [bitcode],
        fun r => by simp [levelEvents, bitcode, segmentsFrom, hl]⟩
    · exact ⟨a :: l ++ List.replicate z false ++ [true, true], 1, by omega, by simp, by simp [bitcode],
        fun r => by simp [levelEvents, bitcode, segmentsFrom, hl, hl0]⟩

/-- Reading a sequence of bit codes cuts no segment: what has been read is the segment and its low tail of at most two. -/
theorem segmentsFrom_bitcodes (lim : Nat) (hlim : 3 ≤ lim) (bits : List Bool) (hne : bits ≠ []) (seg : List Bool) (z : Nat)
    (hz : z ≤ 2) (hs : seg = [] → z = 0) (rest : List WireEvent) :
    ∃ seg' z', z' ≤ 2 ∧ seg' ≠ [] ∧
      seg' ++ List.replicate z' false = seg ++ List.replicate z false ++ bits.flatMap bitcode ∧
      segmentsFrom lim seg z false (levelEvents (bits.flatMap bitcode) ++ rest) = segmentsFrom lim seg' z' false rest := by
  induction bits generalizing seg z with
  | nil => exact absurd rfl hne
  | cons b bits ih =>
    obtain ⟨seg1, z1, hz1, hn1, he1, hr1⟩ := segmentsFrom_bitcode lim hlim b seg z hz hs
    by_cases hb : bits = []
    · subst hb
      exact ⟨seg1, z1, hz1, hn1, by simpa using he1, by simpa [levelEvents] using hr1 rest⟩
    · obtain ⟨seg2, z2, hz2, hn2, he2, hr2⟩ := ih hb seg1 z1 hz1 (fun h => absurd h hn1)
      refine ⟨seg2, z2, hz2, hn2, ?_, ?_⟩
      · rw [he2, he1]
        simp
      · rw [List.flatMap_cons, levelEvents_append, List.append_assoc, hr1, hr2]

/-- Low slots up to the stream's end latch the segment once there are enough of them. -/
theorem segmentsFrom_quiet (lim : Nat) (seg : List Bool) (z n : Nat) (h : lim ≤ z + n) (hne : seg ≠ []) :
    segmentsFrom lim seg z false (levelEvents (List.replicate n false)) = [⟨seg, true⟩] := by
  induction n generalizing z with
  | zero =>
    simp [levelEvents, segmentsFrom, latchRun, emit, hne]
    omega
  | succ n ih =>
    simp only [List.replicate_succ, levelEvents, List.map_cons, segmentsFrom]
    exact ih (z + 1) (by omega)

theorem tripletBits_bitcodes (bits : List Bool) : tripletBits (bits.flatMap bitcode) = some bits := by
  induction bits with
  | nil => rfl
  | cons b bits ih => cases b <;> simp [bitcode, tripletBits, ih]

/-- A segment whose levels, with its low tail of at most two, are bit codes gives their bits. -/
theorem segmentBits_of_bitcodes {levels bits : List Bool} {z : Nat} (hz : z ≤ 2)
    (h : levels ++ List.replicate z false = bits.flatMap bitcode) : segmentBits levels = some bits := by
  have hl := congrArg List.length h
  rw [flatMap_bitcode_length] at hl
  simp only [List.length_append, List.length_replicate] at hl
  unfold segmentBits
  rw [show (3 - levels.length % 3) % 3 = z by omega, h, tripletBits_bitcodes]

theorem bitsValue_byteBits (v : Byte) : BitVec.ofNat 8 (bitsValue (byteBits v)) = v := by
  revert v
  decide

theorem byteAt_flatMap (bytes : List Byte) (n : Nat) (h : n < bytes.length) :
    byteAt (bytes.flatMap byteBits) n = bytes[n] := by
  have hb : ((bytes.flatMap byteBits).drop (8 * n)).take 8 = byteBits bytes[n] := by
    induction bytes generalizing n with
    | nil => simp at h
    | cons b bytes ih =>
      cases n with
      | zero => simp [byteBits]
      | succ n =>
        rw [List.flatMap_cons, List.drop_append, byteBits_length, show 8 * (n + 1) - 8 = 8 * n by omega,
          List.drop_eq_nil_of_le (by rw [byteBits_length]; omega)]
        simpa using ih n (by simpa using h)
  unfold byteAt
  rw [hb, bitsValue_byteBits]

/-- The decoder recovers every pixel's scaled components in the strip's order. -/
theorem decodePixels_pixBits (pix : List Word) (cfg : ChannelConfig) :
    decodePixels cfg.stype (pixBits pix cfg) =
      pix.map (fun c => (stripOrder cfg.stype).map (fun l => (l, scale (comp c l) cfg.bright))) := by
  have hn := stripNcol_pos cfg.stype
  have hcount : (pixBits pix cfg).length / (8 * stripNcol cfg.stype) = pix.length := by
    rw [pixBits_length, Nat.mul_comm 8]
    exact Nat.mul_div_cancel _ (by omega)
  unfold decodePixels
  rw [hcount]
  apply List.ext_getElem
  · simp
  · intro k h1 h2
    simp only [List.length_map, List.length_range] at h1
    simp only [List.getElem_map, List.getElem_range]
    apply List.ext_getElem
    · simp
    · intro i h3 h4
      simp only [List.length_map, stripOrder_length] at h4
      simp only [List.getElem_map, List.getElem_zipIdx, Prod.mk.injEq, true_and]
      have hb : pixBits pix cfg = (pix.flatMap (fun c => pixbytes c cfg)).flatMap byteBits := by
        unfold pixBits
        rw [List.flatMap_assoc]
      have hg := flatMap_getElem? (stripNcol cfg.stype) (fun c => pixbytes c cfg) pix
        (fun c => pixbytes_length c cfg) k i h1 h4
      have hlt : k * stripNcol cfg.stype + i < (pix.flatMap (fun c => pixbytes c cfg)).length := by
        rw [flatMap_length_const _ _ _ (fun c _ => pixbytes_length c cfg)]
        calc k * stripNcol cfg.stype + i < (k + 1) * stripNcol cfg.stype := by rw [Nat.succ_mul]; omega
          _ ≤ _ := Nat.mul_le_mul_right _ h1
      rw [List.getElem?_eq_getElem hlt, List.getElem?_eq_getElem (by rw [pixbytes_length]; exact h4)] at hg
      rw [hb, Nat.zero_add, byteAt_flatMap _ _ hlt, Option.some.inj hg]
      simp [pixbytes]

/-- The reset code is long enough to latch (43_pwm_serializer.md R312). -/
theorem resetMin_le_resetSlots {f : Nat} (h : f = 400000 ∨ f = 800000) : 3 ≤ resetMin f ∧ resetMin f ≤ resetSlots f := by
  rcases h with rfl | rfl <;> decide

/-! ### Levels on the wire (43_pwm_serializer.md R305) -/

theorem levelsOf_append (a b : List WireEvent) : levelsOf (a ++ b) = levelsOf a ++ levelsOf b := by simp [levelsOf]

/-- The levels of words sent with a polarity are their bits, bit 31 first, each inverted when it is set. -/
theorem levelsOf_words (ws : List Word) (pola : Bool) :
    levelsOf (ws.flatMap (fun w => wordLevels w pola)) =
      (ws.flatMap (fun w => (List.range 32).map (fun k => w.getLsbD (31 - k)))).map (fun b => b ^^ pola) := by
  induction ws with
  | nil => rfl
  | cons w ws ih =>
    rw [List.flatMap_cons, levelsOf_append, ih, List.flatMap_cons, List.map_append]
    congr 1

end Sys2Proof.Machine
end

