-- ==== Sys2Proof/Laws/PerInstr.lean ====
section
/-! SUPPORT. The family TableRow: every instruction's first word meets its row of spec/opcode_table.json. -/

namespace Sys2Proof.Laws.TableRow

/-- The mask and match of an instruction's row in spec/opcode_table.json. -/
def row : Instr → Word × Word
  | .init _ => (0xFFFFFFFF#32, 0x00000001#32)
  | .init1 _ _ _ => (0xFFFFFFFF#32, 0x00000002#32)
  | .fini => (0xFFFFFFFF#32, 0x00000003#32)
  | .setpixel _ _ _ => (0xFFFFFFEF#32, 0x00000004#32)
  | .setbitmap _ _ => (0xFFFFFFEF#32, 0x00000005#32)
  | .clear _ => (0xFFFFFFEF#32, 0x00000006#32)
  | .render => (0xFFFFFFFF#32, 0x00000007#32)
  | .wait => (0xFFFFFFFF#32, 0x00000008#32)
  | .cb _ => (0xFFE0FEAE#32, 0x00000000#32)

/-- The first word of an instruction's encoding lies in its row of the opcode table. -/
def Statement (i : Instr) : Prop :=
  ∃ w ws, encode i = w :: ws ∧ w &&& (row i).1 = (row i).2

/-- A CMD word's bits against a mask and match (30_encoding.md R124). -/
theorem commandWord_row (op : Opcode) (ch : Chan) :
    commandWord op ch &&& 0xFFFFFFEF#32 = BitVec.ofNat 32 op.code ∧
      commandWord op .c0 &&& 0xFFFFFFFF#32 = BitVec.ofNat 32 op.code := by
  cases op <;> cases ch <;> decide

theorem init (records : List ConfigRecord) : Statement (.init records) := ⟨_, _, rfl, (commandWord_row .init .c0).2⟩

theorem init1 (pin count bright : Word) : Statement (.init1 pin count bright) :=
  ⟨_, _, rfl, (commandWord_row .init1 .c0).2⟩

theorem fini : Statement .fini := ⟨_, _, rfl, (commandWord_row .fini .c0).2⟩

theorem setpixel (ch : Chan) (index color : Word) : Statement (.setpixel ch index color) :=
  ⟨_, _, rfl, (commandWord_row .setpixel ch).1⟩

theorem setbitmap (ch : Chan) (colors : List Word) : Statement (.setbitmap ch colors) :=
  ⟨_, _, rfl, (commandWord_row .setbitmap ch).1⟩

theorem clear (ch : Chan) : Statement (.clear ch) := ⟨_, _, rfl, (commandWord_row .clear ch).1⟩

theorem render : Statement .render := ⟨_, _, rfl, (commandWord_row .render .c0).2⟩

theorem wait : Statement .wait := ⟨_, _, rfl, (commandWord_row .wait .c0).2⟩

theorem cb (block : ControlBlock) : Statement (.cb block) := ⟨_, _, rfl, toWord_reserved block.ti⟩

end Sys2Proof.Laws.TableRow
end

