-- ==== Sys2Proof/Laws/Strip.lean ====
section
/-! SUPPORT. The streams cut INIT by INIT (43_pwm_serializer.md R308): the cuts joined are the stream, a longer stream
lengthens the last cut only, and a new INIT adds an empty one. -/

namespace Sys2Proof.Machine

/-! ### Cuts -/

@[simp] theorem sectionsFrom_nil (w : List WireEvent) : sectionsFrom w [] = [] := rfl

@[simp] theorem sectionsFrom_singleton (w : List WireEvent) (m : InitMark) :
    sectionsFrom w [m] = [⟨m.cfg, w.drop m.start⟩] := rfl

theorem sectionsFrom_cons_cons (w : List WireEvent) (m n : InitMark) (ms : List InitMark) :
    sectionsFrom w (m :: n :: ms) = ⟨m.cfg, (w.drop m.start).take (n.start - m.start)⟩ :: sectionsFrom w (n :: ms) := rfl

@[simp] theorem sectionsFrom_length (w : List WireEvent) (ms : List InitMark) :
    (sectionsFrom w ms).length = ms.length := by
  induction ms with
  | nil => rfl
  | cons m ms ih =>
    cases ms with
    | nil => rfl
    | cons n ms =>
      rw [sectionsFrom_cons_cons, List.length_cons, ih]
      rfl

/-- The cuts joined are the stream from the first mark on. -/
theorem sectionsFrom_flatMap (w : List WireEvent) (m : InitMark) (ms : List InitMark)
    (ho : (m :: ms).Pairwise (fun a b => a.start ≤ b.start)) :
    (sectionsFrom w (m :: ms)).flatMap Section.events = w.drop m.start := by
  induction ms generalizing m with
  | nil => simp
  | cons n ms ih =>
    have hmn : m.start ≤ n.start := (List.pairwise_cons.mp ho).1 n List.mem_cons_self
    rw [sectionsFrom_cons_cons, List.flatMap_cons, ih n (List.pairwise_cons.mp ho).2]
    have h : w.drop n.start = (w.drop m.start).drop (n.start - m.start) := by
      rw [List.drop_drop]
      congr 1
      omega
    rw [h]
    exact List.take_append_drop _ _

/-- A longer stream lengthens the last cut and leaves the others as they were. -/
theorem sectionsFrom_append (w l : List WireEvent) (m : InitMark) (ms : List InitMark)
    (hi : ∀ a ∈ ms ++ [m], a.start ≤ w.length) :
    ∃ before, sectionsFrom w (ms ++ [m]) = before ++ [⟨m.cfg, w.drop m.start⟩] ∧
      sectionsFrom (w ++ l) (ms ++ [m]) = before ++ [⟨m.cfg, w.drop m.start ++ l⟩] := by
  induction ms with
  | nil =>
    have h := hi m (by simp)
    exact ⟨[], rfl, by simp [List.drop_append_of_le_length h]⟩
  | cons a ms ih =>
    obtain ⟨before, h1, h2⟩ := ih fun b hb => hi b (List.mem_cons_of_mem _ hb)
    have ha := hi a List.mem_cons_self
    obtain ⟨n, ns, hn⟩ := List.exists_cons_of_ne_nil (show ms ++ [m] ≠ [] by simp)
    have hns : n.start ≤ w.length := hi n (by rw [List.cons_append, hn]; simp)
    rw [hn] at h1 h2
    refine ⟨⟨a.cfg, (w.drop a.start).take (n.start - a.start)⟩ :: before, ?_, ?_⟩ <;>
      rw [List.cons_append, hn, sectionsFrom_cons_cons]
    · rw [h1]
      rfl
    · rw [h2, List.drop_append_of_le_length ha, List.take_append_of_le_length (by rw [List.length_drop]; omega)]
      rfl

/-- A mark at the stream's end adds an empty cut. -/
theorem sectionsFrom_concat (w : List WireEvent) (k : ChannelConfig) (ms : List InitMark)
    (hi : ∀ a ∈ ms, a.start ≤ w.length) :
    sectionsFrom w (ms ++ [⟨k, w.length⟩]) = sectionsFrom w ms ++ [⟨k, []⟩] := by
  induction ms with
  | nil => simp
  | cons a ms ih =>
    have h := ih fun b hb => hi b (List.mem_cons_of_mem _ hb)
    cases ms with
    | nil =>
      have ha := hi a List.mem_cons_self
      show [_, _] = [_, _]
      simp
    | cons n ms =>
      rw [List.cons_append, List.cons_append, sectionsFrom_cons_cons, sectionsFrom_cons_cons, List.cons_append]
      rw [List.cons_append] at h
      rw [h]

/-! ### Serializers -/

@[simp] theorem Serializer.sections_length (x : Serializer) : x.sections.length = x.marks.length :=
  sectionsFrom_length _ _

/-- The cuts of a marked stream joined are the stream. -/
theorem Serializer.Marked.sections_flatMap {x : Serializer} (h : x.Marked) :
    x.sections.flatMap Section.events = x.wire := by
  unfold Serializer.sections
  cases hm : x.marks with
  | nil => simp [(h.unmarked hm).1]
  | cons m ms =>
    rw [sectionsFrom_flatMap _ _ _ (hm ▸ h.ordered), h.first m (by rw [hm]; rfl), List.drop_zero]

/-- What joins the stream joins the last cut. -/
theorem Serializer.Marked.sections_append {x y : Serializer} {m : InitMark} (h : x.Marked)
    (hl : x.marks.getLast? = some m) (hm : y.marks = x.marks) {l : List WireEvent} (hw : y.wire = x.wire ++ l) :
    ∃ before evs, x.sections = before ++ [⟨m.cfg, evs⟩] ∧ y.sections = before ++ [⟨m.cfg, evs ++ l⟩] := by
  obtain ⟨ms, hms⟩ := List.getLast?_eq_some_iff.mp hl
  obtain ⟨before, h1, h2⟩ := sectionsFrom_append x.wire l m ms (hms ▸ h.inside)
  refine ⟨before, x.wire.drop m.start, ?_, ?_⟩
  · rw [Serializer.sections, hms, h1]
  · rw [Serializer.sections, hm, hms, hw, h2]

/-- A stream that grows under the same marks stays marked, where something has marked it. -/
theorem Serializer.Marked.grow {x y : Serializer} (h : x.Marked) (hm : y.marks = x.marks) {l : List WireEvent}
    (hw : y.wire = x.wire ++ l) (hn : x.marks ≠ []) : y.Marked where
  ordered := hm ▸ h.ordered
  inside := by
    intro m hmem
    rw [hw, List.length_append]
    exact Nat.le_trans (h.inside m (hm ▸ hmem)) (Nat.le_add_right _ _)
  first := hm ▸ h.first
  unmarked := fun e => absurd (hm ▸ e) hn

/-- A stream left alone stays marked, unless an unmarked serializer is enabled. -/
theorem Serializer.Marked.keep {x y : Serializer} (h : x.Marked) (hm : y.marks = x.marks) (hw : y.wire = x.wire)
    (hp : y.pwen = true → x.pwen = true) : y.Marked where
  ordered := hm ▸ h.ordered
  inside := by rw [hm, hw]; exact h.inside
  first := hm ▸ h.first
  unmarked := by
    intro e
    obtain ⟨h1, h2⟩ := h.unmarked (hm ▸ e)
    refine ⟨hw.trans h1, ?_⟩
    cases hy : y.pwen
    · rfl
    · exact absurd (hp hy) (by simp [h2])

/-- A stream stays marked when an INIT marks its end. -/
theorem Serializer.Marked.mark {x y : Serializer} (h : x.Marked) (k : ChannelConfig)
    (hm : y.marks = x.marks ++ [⟨k, x.wire.length⟩]) (hw : y.wire = x.wire) : y.Marked where
  ordered := by
    rw [hm, List.pairwise_append]
    refine ⟨h.ordered, List.pairwise_singleton _ _, fun a ha b hb => ?_⟩
    obtain rfl := List.mem_singleton.mp hb
    exact h.inside a ha
  inside := by
    intro m hmem
    rw [hm, List.mem_append, List.mem_singleton] at hmem
    rw [hw]
    rcases hmem with hmem | rfl
    · exact h.inside m hmem
    · exact Nat.le_refl _
  first := by
    intro m hh
    rw [hm] at hh
    cases hx : x.marks with
    | nil =>
      rw [hx] at hh
      obtain rfl := Option.some.inj hh
      simp [(h.unmarked hx).1]
    | cons a ms =>
      rw [hx] at hh
      exact h.first m (by rw [hx]; exact hh)
  unmarked := fun e => absurd (hm ▸ e) (by simp)

/-- A marked serializer that is enabled has a mark. -/
theorem Serializer.Marked.ne_nil {x : Serializer} (h : x.Marked) (hp : x.pwen = true) : x.marks ≠ [] := by
  intro e
  have := (h.unmarked e).2
  rw [hp] at this
  cases this

/-! ### What a strip receives (43_pwm_serializer.md R307) -/

/-- The polarity of the INIT taken off the word's levels leaves the word's bits. -/
theorem logical_wordLevels (w : Word) (b : Bool) :
    logical b (wordLevels w b) = (List.range 32).map (fun k => .lvl (w.getLsbD (31 - k))) := by
  simp [logical, wordLevels]

/-! ### What a strip shows (43_pwm_serializer.md R314) -/

@[simp] theorem stripOn_nil (pin : Int) : stripOn pin [] = [] := rfl

/-- One more INIT changes the strip on its own pin alone. -/
@[simp] theorem stripOn_concat (pin : Int) (xs : List Section) (x : Section) :
    stripOn pin (xs ++ [x]) = if x.cfg.pin = pin then x.view (stripOn pin xs) else stripOn pin xs := by
  simp [stripOn]

/-- The latest INIT's events are decoded over what its strip showed before. -/
theorem Serializer.view_of_sections {x : Serializer} {before : List Section} {e : Section}
    (h : x.sections = before ++ [e]) : x.view = e.view (stripOn e.cfg.pin before) := by
  simp [Serializer.view, h]

/-- An INIT that has sent nothing leaves every strip as it was. -/
@[simp] theorem Section.view_nil (k : ChannelConfig) (v : StripView) : Section.view ⟨k, []⟩ v = v := by
  unfold Section.view showWire segments
  rw [show Machine.logical k.invert [] = [] from rfl, segmentsFrom]
  split <;> rfl

end Sys2Proof.Machine
end

