-- ==== Sys2Proof/Laws/Serializers.lean ====
section
/-! SUPPORT. Everything a step can do to one serializer, and that it keeps the stream marked INIT by INIT
(10_state.md R35, 40_controller_commands.md R169, R171, 43_pwm_serializer.md R305, R306, R308). -/

namespace Sys2Proof.Machine

/-- What a step can make of a serializer x whose FIFO holds at most `depth` words. -/
inductive SerEffect (depth : Nat) (x : Serializer) : Serializer → Prop where
  | same : SerEffect depth x x
  /-- INIT configures its channel. -/
  | configured (k : ChannelConfig) :
      SerEffect depth x
        { x with
          pwen := true, pola := k.invert, werr := false, gapo := false, fifo := [],
          marks := x.marks ++ [⟨k, x.wire.length⟩] }
  /-- INIT of the other channel alone, or FINI. -/
  | disabled (werr gapo : Bool) :
      SerEffect depth x { x with pwen := false, pola := false, werr := werr, gapo := gapo, fifo := [] }
  /-- XFER pushes a word. -/
  | push (v : Word) (h : x.fifo.length < depth) : SerEffect depth x { x with fifo := x.fifo ++ [v] }
  /-- XFER's word is dropped. -/
  | drop (h : depth ≤ x.fifo.length) : SerEffect depth x { x with werr := true }
  /-- SHIFT. -/
  | shift (w : Word) (rest : List Word) (hp : x.pwen = true) (hf : x.fifo = w :: rest) :
      SerEffect depth x { x with fifo := rest, wire := x.wire ++ wordLevels w x.pola, lastGap := false }
  /-- GAP. -/
  | gap (hp : x.pwen = true) (hf : x.fifo = []) (hg : x.lastGap = false) :
      SerEffect depth x { x with wire := x.wire ++ [.gap], gapo := true, lastGap := true }

variable {depth : Nat} {s t : State} {x y : Serializer}

theorem SerEffect.of_eq (e : y = x) : SerEffect depth x y := e ▸ .same

/-- A serializer after INIT's register writes (40_controller_commands.md R169). -/
theorem InitPlan.serializer_effect (q : InitPlan) (c : Chan) (x : Serializer) : SerEffect depth x (q.serializer c x) := by
  cases c
  · exact .configured q.cfg0
  · cases h : q.cfg1 with
    | none => simpa only [InitPlan.serializer, h] using SerEffect.disabled false false
    | some k => simpa only [InitPlan.serializer, h] using SerEffect.configured k

/-- A serializer after XFER's store (42_dma_sequencer.md R279). -/
theorem State.deliver_effect (s : State) (v : Word) (c : Chan) :
    SerEffect s.config.fifoDepth (s.ser c) ((s.deliver v).ser c) := by
  rcases State.deliver_cases s v with ⟨e, -, h⟩ | ⟨-, -, h⟩
  · rw [h]
    rcases State.pushFifo_cases s e v with ⟨hl, h2⟩ | ⟨hl, h2⟩ <;> rw [h2] <;> cases c <;> cases e <;>
      first | exact .push v hl | exact .drop hl | exact .same
  · rw [h]
    exact .of_eq (by cases c <;> rfl)

/-- A serializer after a host command (40_controller_commands.md R169, R171). -/
theorem CommandEffect.ser {i : Instr} (h : CommandEffect s i t) (c : Chan) : SerEffect depth (s.ser c) (t.ser c) := by
  cases h with
  | render d hl hc => exact .of_eq (by simp [State.report])
  | clear d ch k hl hk hc => exact .of_eq (by simp [State.report]; cases c <;> rfl)
  | init _ rs q base hq ho hb =>
    rw [State.commit_programHardware_eq]
    cases c
    · exact q.serializer_effect .c0 s.ser0
    · exact q.serializer_effect .c1 s.ser1
  | fini d hl =>
    rw [State.release_eq]
    cases c <;> exact .disabled _ _
  | _ => exact .of_eq (by cases c <;> rfl)

/-- A serializer after its own turn, or the other's (43_pwm_serializer.md R303, R305, R306). -/
theorem State.serTurn_effect (s : State) (c e : Chan) : SerEffect depth (s.ser c) ((s.serTurn e).ser c) := by
  rcases State.serTurn_cases s e with ⟨w, rest, hr, hf, h⟩ | ⟨hr, hf, hg, -, h⟩ | ⟨-, -, h⟩ <;> rw [h]
  · cases c <;> cases e <;>
      first | exact .shift w rest (by simpa [State.runs] using (Bool.and_eq_true _ _ ▸ hr).2) hf | exact .same
  · cases c <;> cases e <;>
      first | exact .gap (by simpa [State.runs] using (Bool.and_eq_true _ _ ▸ hr).2) hf hg | exact .same
  · exact .same

/-- What a step has done to a serializer. -/
theorem step_ser_effect (h : step s = .next t) (c : Chan) : SerEffect s.config.fifoDepth (s.ser c) (t.ser c) := by
  have same : ∀ u : State, u.ser0 = s.ser0 → u.ser1 = s.ser1 → SerEffect s.config.fifoDepth (s.ser c) (u.ser c) :=
    fun u h0 h1 => .of_eq (by cases c <;> assumption)
  cases step_effect h with
  | inputs => exact same _ rfl rfl
  | command a e i _ hi hw hx =>
    have h' := (exec_command_effect hi hx).ser (depth := s.config.fifoDepth) c
    cases c <;> exact h'
  | loadStop => exact same _ rfl rfl
  | loadIllegal ws hl hf hd =>
    obtain ⟨-, -, rfl⟩ := State.fetchBlock_ok hf
    exact same _ rfl rfl
  | load ws b _ hl hf hd hx =>
    rcases execCb_cases b s.dropTurn with ⟨-, h⟩ | ⟨-, cause, -, h⟩ <;> rw [h] at hx <;> cases hx <;> exact same _ rfl rfl
  | xfer hx ht =>
    rcases State.xfer_cases s.dropTurn with ⟨-, e⟩ | ⟨-, -, e⟩ <;> rw [e]
    · exact same _ rfl rfl
    · have h' := s.dropTurn.deliver_effect (Memory.readWord s.dropTurn.mem s.dropTurn.dma.sourceAd.toNat) c
      cases c <;> exact h'
  | next hn ht =>
    unfold State.nextBlock
    split <;> exact same _ rfl rfl
  | stall hs ht => exact same _ rfl rfl
  | ser e ht =>
    have h' := s.dropTurn.serTurn_effect (depth := s.config.fifoDepth) c e
    cases c <;> exact h'

/-- A stream stays marked INIT by INIT (43_pwm_serializer.md R308). -/
theorem SerEffect.marked (h : SerEffect depth x y) (hx : x.Marked) : y.Marked := by
  cases h with
  | same => exact hx
  | configured k => exact hx.mark k rfl rfl
  | disabled w g => exact hx.keep rfl rfl (fun e => by cases e)
  | push v hl => exact hx.keep rfl rfl id
  | drop hl => exact hx.keep rfl rfl id
  | shift w rest hp hf => exact hx.grow rfl rfl (hx.ne_nil hp)
  | gap hp hf hg => exact hx.grow rfl rfl (hx.ne_nil hp)

end Sys2Proof.Machine
end

