-- ==== Sys2Proof/Laws/Turns.lean ====
section
/-! SUPPORT. The computed predicates in the numbers of the rules (PERMAP, the block checks, data requests, running,
feeding), and the sequencer's turn case by case (42_dma_sequencer.md R275 to R281). -/

namespace Sys2Proof.Machine

/-! ### Fields and block checks -/

theorem permap_toNat (w : Word) : (TransferInfo.ofWord w).permap.toNat = w.toNat / 65536 % 32 := by
  simp [TransferInfo.ofWord, BitVec.extractLsb'_toNat, Nat.shiftRight_eq_div_pow]

theorem tiOk_ofWord (w : Word) :
    tiOk (TransferInfo.ofWord w) = true ↔
      w.toNat / 65536 % 32 ≤ 2 ∧ ¬(w.getLsbD 6 = true ∧ w.toNat / 65536 % 32 = 0) := by
  have hd : (TransferInfo.ofWord w).destDreq = w.getLsbD 6 := rfl
  unfold tiOk
  simp only [Bool.and_eq_true, decide_eq_true_eq, Bool.not_eq_true', Bool.and_eq_false_iff, decide_eq_false_iff_not,
    permap_toNat, hd]
  cases w.getLsbD 6 <;> simp

theorem lengthsOk_iff (b : ControlBlock) :
    lengthsOk b = true ↔
      b.txfrLen.toNat ≠ 0 ∧ b.txfrLen.toNat % 4 = 0 ∧ b.stride.toNat = 0 ∧ b.sourceAd.toNat % 4 = 0 ∧
        b.destAd.toNat % 4 = 0 := by
  unfold lengthsOk
  simp only [Bool.and_eq_true, decide_eq_true_eq, and_assoc]
  have h0 : ∀ w : Word, w = 0#32 ↔ w.toNat = 0 := by
    intro w
    rw [← BitVec.toNat_inj]
    rfl
  rw [ne_eq, h0, h0]

/-- A disjunction of words whose set bits lie apart is their sum. -/
theorem word_or_toNat (n : Nat) (w v : Word) (h1 : w.toNat < 2 ^ n) (h2 : v.toNat % 2 ^ n = 0) :
    (w ||| v).toNat = w.toNat + v.toNat := by
  rw [BitVec.toNat_or]
  obtain ⟨k, hk⟩ := Nat.dvd_of_mod_eq_zero h2
  rw [hk, Nat.or_comm, ← Nat.two_pow_add_eq_or_of_lt h1, Nat.add_comm]

/-! ### Data requests and running -/

theorem requestLine_iff (w : Word) (c : Chan) :
    requestLine (TransferInfo.ofWord w) = some c ↔ w.toNat / 65536 % 32 = c.toNat + 1 := by
  have h := permap_toNat w
  unfold requestLine
  have e1 : (TransferInfo.ofWord w).permap = 1#5 ↔ w.toNat / 65536 % 32 = 1 := by
    rw [← BitVec.toNat_inj, h]
    rfl
  have e2 : (TransferInfo.ofWord w).permap = 2#5 ↔ w.toNat / 65536 % 32 = 2 := by
    rw [← BitVec.toNat_inj, h]
    rfl
  by_cases h1 : w.toNat / 65536 % 32 = 1
  · rw [if_pos (e1.mpr h1)]
    cases c <;> simp [Chan.toNat, h1]
  · rw [if_neg (fun hh => h1 (e1.mp hh))]
    by_cases h2 : w.toNat / 65536 % 32 = 2
    · rw [if_pos (e2.mpr h2)]
      cases c <;> simp [Chan.toNat, h2]
    · rw [if_neg (fun hh => h2 (e2.mp hh))]
      cases c <;> simp [Chan.toNat, h1, h2]

theorem State.dreq_iff (s : State) (c : Chan) :
    s.dreq c = true ↔ s.dmac = true ∧ (s.ser c).fifo.length < s.config.fifoDepth := by
  unfold State.dreq
  rw [Bool.and_eq_true, decide_eq_true_eq]

theorem State.lineDreq_iff (s : State) :
    s.lineDreq = true ↔
      s.dmac = true ∧
        ((s.dma.ti.toNat / 65536 % 32 = 1 ∧ s.ser0.fifo.length < s.config.fifoDepth) ∨
          (s.dma.ti.toNat / 65536 % 32 = 2 ∧ s.ser1.fifo.length < s.config.fifoDepth)) := by
  have h0 := requestLine_iff s.dma.ti .c0
  have h1 := requestLine_iff s.dma.ti .c1
  simp only [Chan.toNat] at h0 h1
  unfold State.lineDreq State.info
  cases hr : requestLine (TransferInfo.ofWord s.dma.ti) with
  | none =>
    rw [hr] at h0 h1
    simp only [reduceCtorEq, false_iff] at h0 h1
    simp
    omega
  | some c =>
    rw [hr] at h0 h1
    cases c
    · have h := h0.mp rfl
      show s.dreq .c0 = true ↔ _
      rw [State.dreq_iff]
      simp [State.ser, h]
    · have h := h1.mp rfl
      show s.dreq .c1 = true ↔ _
      rw [State.dreq_iff]
      simp [State.ser, h]

theorem State.runs_iff (s : State) (c : Chan) :
    s.runs c = true ↔ s.clk.enab = true ∧ 2 ≤ s.clk.divi.toNat ∧ (s.ser c).pwen = true := by
  simp [State.runs, State.clockRuns, and_assoc]

theorem State.feeding_iff (s : State) (c : Chan) :
    s.feeding c = true ↔
      s.dma.active = true ∧ s.dma.stalled = false ∧ s.dma.dphase = .xfer ∧
        s.dma.ti.toNat / 65536 % 32 = c.toNat + 1 := by
  simp only [State.feeding, State.dmaLive, Bool.and_eq_true, Bool.not_eq_true', decide_eq_true_eq, and_assoc]
  rw [State.info, requestLine_iff]

/-! ### WAIT's deadline (40_controller_commands.md R183) -/

theorem State.transportStuck_iff (s : State) (d : Device) (he : s.dma.error = false) : s.transportStuck d = true ↔ StuckTransport s d := by
  have hrun : ∀ c, s.runs c = false ↔ ¬ Running s c := by
    intro c; rw [← Bool.not_eq_true, State.runs_iff]; rfl
  constructor
  · intro h
    simp only [State.transportStuck, Bool.or_eq_true, Bool.and_eq_true, Bool.not_eq_true', decide_eq_true_eq] at h
    rcases h with (⟨ha, hs | ⟨⟨⟨hp, hl⟩, hd⟩, hst⟩⟩ | ⟨⟨ha, -⟩, hf⟩) | ⟨hc, h⟩
    · exact .stalled ha hs
    · unfold State.starved at hst
      cases hr : requestLine s.info with
      | none => rw [hr] at hst; cases hst
      | some c =>
        rw [hr] at hst
        simp only [Bool.and_eq_true, Bool.or_eq_true, Bool.not_eq_true'] at hst
        obtain ⟨h1, h2⟩ := hst
        refine .starved c ha hp ?_ hd ((requestLine_iff _ _).mp hr) ?_ ?_
        · rcases Nat.eq_zero_or_pos s.dma.txfrLen.toNat with h | h
          · exact absurd (BitVec.eq_of_toNat_eq h) hl
          · exact h
        · rw [← Bool.not_eq_true, State.dreq_iff] at h1
          cases hd : s.dmac
          · exact .inl rfl
          · right; rw [hd] at h1; simp at h1; exact h1
        · rcases h2 with h2 | h2
          · exact .inl h2
          · exact .inr ((hrun c).mp h2)
    · exact .flagged ha he hf
    · obtain ⟨h0, h1⟩ := (State.complete_iff s d).mp hc
      have : ∀ c, s.chanStranded d c = true → StuckTransport s d := by
        intro c h
        simp only [State.chanStranded, Bool.and_eq_true, Bool.not_eq_true', List.isEmpty_eq_false_iff] at h
        obtain ⟨⟨h3, h4⟩, h5⟩ := h
        obtain ⟨k, hk⟩ := Option.isSome_iff_exists.mp h3
        exact .stranded c k h0 h1 hk h4 ((hrun c).mp h5)
      rcases h with h | h <;> exact this _ h
  · intro h
    simp only [State.transportStuck, Bool.or_eq_true, Bool.and_eq_true, Bool.not_eq_true', decide_eq_true_eq]
    cases h with
    | stalled ha hs => exact .inl (.inl ⟨ha, .inl hs⟩)
    | starved c ha hp hl hd hc h1 h2 =>
      refine .inl (.inl ⟨ha, .inr ⟨⟨⟨hp, ?_⟩, hd⟩, ?_⟩⟩)
      · intro h; rw [h] at hl; exact absurd hl (by decide)
      · unfold State.starved
        rw [State.info, (requestLine_iff _ _).mpr hc]
        simp only [Bool.and_eq_true, Bool.or_eq_true, Bool.not_eq_true']
        refine ⟨?_, ?_⟩
        · rw [← Bool.not_eq_true, State.dreq_iff]; rintro ⟨g1, g2⟩
          rcases h1 with h1 | h1
          · rw [h1] at g1; cases g1
          · omega
        · exact h2.imp id (hrun c).mpr
    | flagged ha he hf => exact .inl (.inr ⟨⟨ha, he⟩, hf⟩)
    | stranded c k h0 h1 hk hf hr =>
      refine .inr ⟨(State.complete_iff s d).mpr ⟨h0, h1⟩, ?_⟩
      have : s.chanStranded d c = true := by
        simp only [State.chanStranded, Bool.and_eq_true, Bool.not_eq_true', List.isEmpty_eq_false_iff]
        exact ⟨⟨by rw [hk]; rfl, hf⟩, (hrun c).mpr hr⟩
      cases c
      · exact .inl this
      · exact .inr this

/-! ### Deliveries -/

theorem fifBus_inj {p : Config} {c c' : Chan} (h : fifBus p c = fifBus p c') : c = c' ∨ p.fif0Bus = p.fif1Bus := by
  cases c <;> cases c' <;> simp_all [fifBus]

/-- A delivery to a FIFO register's address is a push. -/
theorem State.deliver_bus {s : State} {c : Chan} (v : Word) (h : s.dma.destAd = fifBus s.config c)
    (hc : c = .c1 → s.config.fif0Bus ≠ s.config.fif1Bus) : s.deliver v = s.pushFifo c v := by
  unfold State.deliver
  cases c
  · exact if_pos h
  · have h' : s.dma.destAd = s.config.fif1Bus := h
    rw [if_neg (fun e => hc rfl (e.symm.trans h')), if_pos h']

/-! ### The sequencer's turn -/

theorem loadEnabled_of_xfer {s : State} (h : s.dma.dphase = .xfer) : s.loadEnabled = false := by
  rw [← Bool.not_eq_true, State.loadEnabled_iff]
  simp [h]

theorem step_xfer {s : State} (ht : s.turn = .dma) (hx : s.xferEnabled = true) : step s = .next s.dropTurn.xfer := by
  rw [step_of_dma ht]
  unfold State.dmaTurn
  rw [State.dropTurn_loadEnabled, loadEnabled_of_xfer ((State.xferEnabled_iff s).mp hx).2.2.1,
    State.dropTurn_xferEnabled, hx]
  rfl

theorem step_next {s : State} (ht : s.turn = .dma) (hx : s.nextEnabled = true) :
    step s = .next s.dropTurn.nextBlock := by
  have h := (State.nextEnabled_iff s).mp hx
  have hne : s.xferEnabled = false := by
    rw [← Bool.not_eq_true, State.xferEnabled_iff]
    exact fun hh => hh.2.2.2.1 h.2.2.2
  rw [step_of_dma ht]
  unfold State.dmaTurn
  rw [State.dropTurn_loadEnabled, loadEnabled_of_xfer h.2.2.1, State.dropTurn_xferEnabled, hne,
    State.dropTurn_nextEnabled, hx]
  rfl

/-- With no step enabled the sequencer's turn only uses up the choice. -/
theorem step_dma_rest {s : State} (ht : s.turn = .dma) (h1 : s.loadEnabled = false) (h2 : s.xferEnabled = false)
    (h3 : s.nextEnabled = false) : step s = .next s.dropTurn := by
  rw [step_of_dma ht]
  unfold State.dmaTurn
  rw [State.dropTurn_loadEnabled, h1, State.dropTurn_xferEnabled, h2, State.dropTurn_nextEnabled, h3]
  rfl

end Sys2Proof.Machine
end

