-- ==== Sys2Proof/Tests/Slice0.lean ====
section
/-! SUPPORT. Tests of the model. Expected values come from spec/95_test_vectors.md, or from hand calculation with the rule
the test names. The `smoke_` tests show ill-formed terms that WellFormed refuses, the `test_` tests run one step each, and the
`witness_` theorems show states and operands that meet the hypotheses of the statements, clause by clause. -/

namespace Sys2Proof.Tests

open Sys2Proof Sys2Proof.Machine

/-! ### Small states -/

/-- The next state of an outcome. -/
def nextOf : Host.Outcome State Fault Refusal → Option State
  | .next t => some t
  | _ => none

/-- A refusal's reason. -/
def refusedOf : Host.Outcome State Fault Refusal → Option Refusal
  | .refused r => some r
  | _ => none

/-- A fault's reason. -/
def faultOf : Host.Outcome State Fault Refusal → Option Fault
  | .fault r => some r
  | _ => none

/-- What a decoder gave, or nothing. -/
def decoded : Except DecodeError Instr → Option Instr
  | .ok i => some i
  | .error _ => none

/-- A device with one RGB channel of n pixels on pin 18 at brightness 255 and 800000 Hz. -/
def deviceOf (n words rsize : Nat) (pix : List Word) : Device :=
  ⟨⟨⟨18, n, 255, false, .RGB, 800000⟩, pix, words⟩, none, words, rsize, 0x10000000⟩

/-- One channel of one pixel: 7 words, region of 0x80 + 28 bytes. -/
def devOne : Device := deviceOf 1 7 156 [0]

/-- The device of program P1: 16 pixels of 0x000020, 41 words. -/
def devP1 : Device := deviceOf 16 41 292 (List.replicate 16 0x000020)

/-- Two channels: one RGB pixel on pin 18, one inverted RGBW pixel on pin 13; SLOT is the larger frame. -/
def devTwo : Device where
  ch0 := ⟨⟨18, 1, 255, false, .RGB, 800000⟩, [0x000020], 7⟩
  ch1 := some ⟨⟨13, 1, 255, true, .RGBW, 800000⟩, [0x80000001], 8⟩
  slot := 8
  rsize := 192
  rbase := 0x10000000

/-- Right after an INIT that made the device d at divisor 8. -/
def idle (d : Device) : State :=
  { State.reset with
    life := .active d
    owned := true
    clk := ⟨true, 8⟩
    dmac := true
    ser0 := { Serializer.powerOn with pwen := true, marks := [⟨d.ch0.cfg, 0⟩] }
    ser1 :=
      { Serializer.powerOn with
        pwen := d.ch1.isSome, pola := d.ch1.isSome, marks := d.ch1.toList.map (fun k => ⟨k.cfg, 0⟩) } }

/-- The scheduler chooses t next. -/
def atTurn (t : Turn) (s : State) : State := { s with env := { s.env with plan := [t] } }

/-- The host is about to make one access. -/
def accessing (e : HostAccess) (second : Bool) (s : State) : State :=
  { s with env := { s.env with hostq := [⟨e, second⟩], plan := [.host] } }

/-- The host is about to write w to CMD, ARGQ holding args. -/
def issuing (w : Word) (args : List Word) (s : State) : State := accessing (.write 0x00#32 w) false { s with argq := args }

/-- The next INIT's draws. -/
def drawing (x : InitDraw) (s : State) : State := { s with env := { s.env with draws := [x] } }

/-- A free peripheral, an allocation that succeeds, the vectors' region base; the environment's code is 0x1234. -/
def goodDraw : InitDraw := ⟨false, false, 0x10000000, 0x1234⟩

/-- The sequencer has a chain to run at address a. -/
def loading (a : Word) (ws : List Word) (s : State) : State :=
  { s with
    mem := Memory.writeWords [] a.toNat ws
    dma := { Dma.powerOn with active := true, dphase := .load, conblkAd := a }
    env := { s.env with plan := [.dma] } }

/-- The sequencer is in a block's transfer. -/
def moving (ti src dst len next : Word) (s : State) : State :=
  { s with
    dma :=
      { Dma.powerOn with
        active := true
        dphase := .xfer
        conblkAd := 0x10000000
        ti := ti
        sourceAd := src
        destAd := dst
        txfrLen := len
        nextConbk := next }
    env := { s.env with plan := [.dma] } }

/-- A frame of the device d just armed. -/
def armed (d : Device) : State := (idle d).arm d

/-! ### WellFormed refuses each ill-formed block (30_encoding.md R122) -/

/-- A valid block of program P1. -/
def goodBlock : ControlBlock := .data .c0 0x10000080 0xF0000000 164 0x10000040

theorem smoke_valid : (Instr.cb goodBlock).wellFormed = true := by decide

theorem smoke_permap : (Instr.cb { goodBlock with ti := { goodBlock.ti with permap := 3 } }).wellFormed = false := by decide

theorem smoke_dreq_without_line :
    (Instr.cb { goodBlock with ti := { goodBlock.ti with permap := 0 } }).wellFormed = false := by decide

theorem smoke_length_zero : (Instr.cb { goodBlock with txfrLen := 0 }).wellFormed = false := by decide

theorem smoke_length_unaligned : (Instr.cb { goodBlock with txfrLen := 6 }).wellFormed = false := by decide

theorem smoke_stride : (Instr.cb { goodBlock with stride := 4 }).wellFormed = false := by decide

theorem smoke_source : (Instr.cb { goodBlock with sourceAd := 0x10000082 }).wellFormed = false := by decide

theorem smoke_destination : (Instr.cb { goodBlock with destAd := 0xF0000001 }).wellFormed = false := by decide

/-! ### Words written out from the encoding tables (30_encoding.md R111, R112, R117, R121, R124, R126) -/

theorem test_decode_init :
    decoded (decode .command [0b00000000000000000000000000000001, 0x12, 4, 128, 0, 2, 0xC3500, 0xD, 2, 255, 1, 6, 0xC3500]) =
      some (.init [⟨18, 4, 128, 0, 2, 800000⟩, ⟨13, 2, 255, 1, 6, 800000⟩]) := by decide

theorem test_decode_init1 :
    decoded (decode .command [0b00000000000000000000000000000010, 0x12, 0x10, 0xFF]) = some (.init1 18 16 255) := by decide

theorem test_decode_fini : decoded (decode .command [0b00000000000000000000000000000011]) = some .fini := by decide

theorem test_decode_setpixel :
    decoded (decode .command [0b00000000000000000000000000010100, 0, 0x80000001]) =
      some (.setpixel .c1 0 0x80000001) := by decide

theorem test_decode_setbitmap :
    decoded (decode .command [0b00000000000000000000000000000101, 0xFF0000, 0xFF00]) =
      some (.setbitmap .c0 [0xFF0000, 0xFF00]) := by decide

theorem test_decode_clear : decoded (decode .command [0b00000000000000000000000000010110]) = some (.clear .c1) := by decide

theorem test_decode_render : decoded (decode .command [0b00000000000000000000000000000111]) = some .render := by decide

theorem test_decode_wait : decoded (decode .command [0b00000000000000000000000000001000]) = some .wait := by decide

theorem test_decode_block :
    decoded (decode .block [0b00000000000000100000000101000000, 0x100000B8, 0xF0000004, 44, 0, 0x10000040, 0, 0]) =
      some (.cb (.data .c1 0x100000B8 0xF0000004 44 0x10000040)) := by decide

theorem test_decode_flag_block :
    decoded (decode .block [0b00000000000000000000000100010001, 0x10000060, 0x10000064, 4, 0, 0, 0, 0]) =
      some (.cb (.flag 0x10000060 0x10000064 4 0)) := by decide

/-- The two CMD words the opcode table could give to both classes: 0x00000001 is INIT; 0x00000011 is only a TI word. -/
theorem test_table_words :
    decodeTableWord 32 0x00000001 = some (.init []) ∧ decodeTableWord 32 0x00000014 = some (.setpixel .c1 0 0) ∧
      decodeTableWord 32 0x00000011 = some (.cb ⟨⟨true, true, false, false, 0⟩, 0, 0, 0, 0, 0⟩) ∧
      decodeTableWord 32 0x00000009 = none := by decide

/-! ### Host commands -/

/-- V-I14: two channels of different frequencies. -/
theorem test_init_frequencies_differ :
    (nextOf (exec (.init [⟨18, 2, 255, 0, 0, 800000⟩, ⟨13, 2, 255, 0, 0, 400000⟩]) State.reset)).map
        (fun t => (t.result.code, t.owned)) = some (.configError, false) := by decide

/-- P2 step 1: STATUS, PWM.CTL and the region of two channels. -/
theorem test_init_two_channels :
    (nextOf (exec (.init [⟨18, 4, 128, 0, 2, 800000⟩, ⟨13, 2, 255, 1, 6, 800000⟩]) (drawing goodDraw State.reset))).map
        (fun t => (t.statusWord, t.ctlWord, t.placeDevice.rsize, t.placeDevice.slot)) =
      some (0x24, 0x3323, 0xF0, 14) := by decide

/-- V-I1: CTL, STA, CLKCTL, CLKDIV, DMAC and RSIZE right after INIT1 18, 16, 255. -/
theorem test_init1_registers :
    (nextOf (exec (.init1 18 16 255) (drawing goodDraw State.reset))).map
        (fun t => (t.ctlWord, t.staWord, t.clkctlWord, t.clkdivWord, t.dmacWord, t.placeDevice.rsize)) =
      some (0x2223, 0x202, 0x90, 0x8000, 0x80000000, 292) := by decide

/-- V-I22: 500 pixels do not fit 4096 bytes. -/
theorem test_init1_too_large :
    (nextOf (exec (.init1 18 500 255) (drawing goodDraw State.reset))).map (fun t => (t.result.code, t.owned)) =
      some (.resourceError, false) := by decide

/-- V-C1: FINI before any INIT. -/
theorem test_fini_at_power_on :
    (nextOf (exec .fini State.reset)).map (fun t => (t.resultWord, t.statusWord)) = some (0, 0) := by decide

/-- P1 step 20: STATUS, CTL, DMAC, CLKCTL and CLKDIV after FINI from Active. -/
theorem test_fini_registers :
    (nextOf (exec .fini (idle devOne))).map (fun t => (t.statusWord, t.ctlWord, t.dmacWord, t.clkctlWord, t.clkdivWord)) =
      some (0x08, 0x2222, 0, 0, 0x8000) := by decide

/-- V-C6: the last legal index keeps all 32 bits. -/
theorem test_setpixel_last :
    (nextOf (exec (.setpixel .c0 15 0xFFFFFFFF) (idle devP1))).map
        (fun t => (t.result.code, t.placeDevice.ch0.pix[15]?, t.placeDevice.ch0.pix[14]?)) =
      some (.ok, some 0xFFFFFFFF, some 0x20) := by decide

/-- V-C7: one past it. -/
theorem test_setpixel_past :
    (nextOf (exec (.setpixel .c0 16 1) (idle devP1))).map (fun t => t.resultWord) = some 4 := by decide

/-- V-C11: the channel is checked before the length. -/
theorem test_setbitmap_channel_first :
    (nextOf (exec (.setbitmap .c1 []) (idle devP1))).map (fun t => t.resultWord) = some 4 := by decide

/-- V-C10: a wrong length. -/
theorem test_setbitmap_length :
    (nextOf (exec (.setbitmap .c0 []) (idle devP1))).map (fun t => (t.resultWord, t.placeDevice.ch0.pix.length)) =
      some (5, 16) := by decide

/-- V-C14: CLEAR of a channel that is not configured zeroes nothing. -/
theorem test_clear_channel :
    (nextOf (exec (.clear .c1) (idle devP1))).map (fun t => (t.resultWord, t.placeDevice.ch0.pix[0]?)) =
      some (4, some 0x20) := by decide

/-- P3 step 13: CLEAR with a frame in flight reports TransmissionError and has zeroed the buffer. -/
theorem test_clear_in_flight :
    (nextOf (exec (.clear .c0) (armed devTwo))).map (fun t => (t.resultWord, t.placeDevice.ch0.pix)) =
      some (6, [0]) := by decide +kernel

/-- P1 step 18: the blocks, the frame V-P1 and the flag RENDER writes, and STATUS. -/
theorem test_render_region :
    (nextOf (exec .render (idle devP1))).map
        (fun t => (wordsAt t.mem 0x10000000 8, wordsAt t.mem 0x10000040 10, t.statusWord)) =
      some
        ([0x00010140, 0x10000080, 0xF0000000, 164, 0, 0x10000040, 0, 0],
          [0x00000111, 0x10000060, 0x10000064, 4, 0, 0, 0, 0, 0, 1], 0x26) ∧
      (nextOf (exec .render (idle devP1))).map (fun t => wordsAt t.mem 0x10000080 41) =
        some
          ((List.replicate 4
                [0x92492492, 0x49249349, 0x24924924, 0x92492493, 0x49249249, 0x24924924, 0x93492492, 0x49249249,
                  0x24934924]).flatten ++ [0, 0, 0, 0, 0]) := by
  decide +kernel

/-- V-C16: a second RENDER at once. -/
theorem test_render_twice : (nextOf (exec .render (armed devOne))).map (fun t => t.resultWord) = some 6 := by decide +kernel

/-- V-C19: WAIT with nothing rendered. -/
theorem test_wait_idle :
    (nextOf (exec .wait (idle devOne))).map (fun t => (t.resultWord, t.waiting)) = some (0, false) := by decide

/-- V-C20: WAIT on a stalled sequencer. -/
theorem test_wait_stalled :
    (nextOf (exec .wait { armed devOne with dma := { (armed devOne).dma with stalled := true } })).map
        (fun t => (t.resultWord, t.waiting)) = some (7, false) := by decide +kernel

/-! ### The sequencer and the serializers -/

/-- V-D19: LOAD of P1's first block. -/
theorem test_cb_load :
    (nextOf (step (loading 0x10000000 [0x00010140, 0x10000080, 0xF0000000, 164, 0, 0x10000040, 0, 0] (idle devP1)))).map
        (fun t => (t.dma.ti, t.dma.sourceAd, t.dma.txfrLen, t.dma.nextConbk, t.dma.dphase)) =
      some (0x00010140, 0x10000080, 164, 0x10000040, .xfer) := by decide

/-- V-D4: a reserved TI bit. -/
theorem test_cb_reserved_bit :
    (nextOf (step (loading 0x10000000 [0x00010142, 0x10000080, 0xF0000000, 164, 0, 0x10000040] (idle devP1)))).map
        (fun t => (t.dma.error, t.debugWord, t.dma.active, t.dma.dphase, t.dma.ti)) =
      some (true, 3, false, .idle, 0x00010142) := by decide

/-- V-D1: a misaligned control-block address. -/
theorem test_load_misaligned :
    (nextOf (step (loading 0x10000010 [] (idle devP1)))).map (fun t => (t.csWord, t.debugWord)) = some (0x100, 1) := by decide

/-- V-D20: the first XFER of P1's first block. -/
theorem test_xfer_push :
    (nextOf (step
          { moving 0x00010140 0x10000080 0xF0000000 164 0x10000040 (idle devP1) with
            mem := Memory.writeWord [] 0x10000080 0x92492492 })).map
        (fun t => (t.ser0.fifo, t.dma.sourceAd, t.dma.destAd, t.dma.txfrLen)) =
      some ([0x92492492], 0x10000084, 0xF0000000, 160) := by decide

/-- V-D12: a destination outside the map; nothing is written. -/
theorem test_xfer_unmapped :
    (nextOf (step (moving 0x00000100 0x10000080 0x20000000 4 0 (idle devP1)))).map
        (fun t => (t.debugWord, t.mem, t.dma.txfrLen)) = some (2, [], 4) := by decide

/-- V-D15: NEXT of the terminal block. -/
theorem test_next_last :
    (nextOf (step (moving 0x00000111 0x10000064 0x10000068 0 0 (idle devP1)))).map
        (fun t => (t.csWord, t.dma.dphase, t.dma.conblkAd)) = some (0x6, .idle, 0x10000000) := by decide

/-- V-S2: SHIFT with POLA set sends the complement, bit 31 first. -/
theorem test_shift_inverted :
    (nextOf (step (atTurn (.ser .c1)
          { idle devTwo with ser1 := { (idle devTwo).ser1 with fifo := [0x92492492] } }))).map
        (fun t => (bitsValue (levelsOf t.ser1.wire), t.ser1.lastGap)) = some (0x6DB6DB6D, false) := by decide

/-- V-S4: no Gap for the serializer being fed; one for the other. -/
theorem test_gap_while_fed :
    (nextOf (step (atTurn (.ser .c0) (moving 0x00010140 0x10000080 0xF0000000 28 0x10000040 (idle devTwo))))).map
          (fun t => t.ser0.wire) = some [] ∧
      (nextOf (step (atTurn (.ser .c1) (moving 0x00010140 0x10000080 0xF0000000 28 0x10000040 (idle devTwo))))).map
          (fun t => t.ser1.wire) = some [.gap] := by decide

/-! ### The encoder and the strip -/

/-- R308: events of two INITs, not inverted and inverted, each decoded with its own CFG; the second INIT begins at the Gap. -/
theorem test_sections :
    ({ Serializer.powerOn with
        wire := [.lvl true, .lvl false, .gap, .lvl true, .lvl false]
        marks := [⟨devTwo.ch0.cfg, 0⟩, ⟨{ devTwo.ch0.cfg with invert := true }, 2⟩] } : Serializer).sections.map
        Section.logical =
      [[.lvl true, .lvl false], [.gap, .lvl false, .lvl true]] := by decide

/-- V-X9 and P4's end state: V-P1's first 320 slots and a Gap, then an INIT that has sent nothing: four whole pixels
{B 0x20}, LED 4 unspecified, nothing known beyond. -/
theorem test_strip_after_stall_and_init :
    ({ Serializer.powerOn with
        wire := ((frameSlots (List.replicate 16 0x000020) devP1.ch0.cfg).take 320).map .lvl ++ [.gap]
        marks := [⟨devP1.ch0.cfg, 0⟩, ⟨devP1.ch0.cfg, 321⟩] } : Serializer).view =
      List.replicate 4 (some [(.R, 0), (.G, 0), (.B, 0x20)]) ++ [none] := by decide +kernel

/-- R308: INIT1 begins a new decode; the events before it stay under their own CFG. -/
theorem test_init1_begins_a_section :
    (nextOf (exec (.init1 18 16 255)
          (drawing goodDraw
            { State.reset with
              ser0 := { Serializer.powerOn with wire := [.gap], marks := [⟨devTwo.ch0.cfg, 0⟩] } }))).map
        (fun t => t.ser0.sections) =
      some [⟨devTwo.ch0.cfg, [.gap]⟩, ⟨⟨18, 16, 255, false, .RGB, 800000⟩, []⟩] := by decide

/-- V-E4 and V-E5. -/
theorem test_encode_colours :
    encodeFrame [0x11223344] ⟨18, 1, 255, false, .GRB, 400000⟩ = [0x93693693, 0x49349A49, 0xA4000000, 0, 0] ∧
      (encodeFrame [0xAABBCCDD] ⟨18, 1, 255, false, .RGBW, 800000⟩).take 4 =
        [0xD36D36DA, 0x4DA4DA6D, 0xA6D34D34, 0] := by decide

/-- The scale table's corners (R223). -/
theorem test_scale : scale 200 200 = 156 ∧ scale 254 1 = 0 ∧ scale 0x20 128 = 0x10 ∧ scale 100 100 = 39 := by decide

/-- Frame lengths of section 2.4. -/
theorem test_frame_lengths :
    frameWords ⟨18, 16, 255, false, .RGB, 800000⟩ = 41 ∧ frameWords ⟨18, 60, 255, false, .GRBW, 400000⟩ = 183 ∧
      frameWords ⟨18, 1, 255, false, .RGB, 400000⟩ = 5 ∧ frameWords ⟨18, 300, 255, false, .RGB, 800000⟩ = 680 := by decide

/-- Levels of the strip vectors: byte codes, then n low slots. -/
def levels (bytes : List Byte) (n : Nat) : List WireEvent := (bytes.flatMap bytecode ++ List.replicate n false).map .lvl

/-- V-X4 and V-X5: a run of 59 low slots does not latch at 400000 Hz, a run of 60 does. -/
theorem test_latch_run :
    (segments 400000 (levels [0x80, 0, 0] 57 ++ levels [1, 0, 0] 60)).map (fun g => (segmentBits g.levels).isSome) =
        [false] ∧
      (segments 400000 (levels [0x80, 0, 0] 58 ++ levels [1, 0, 0] 60)).map (fun g => (segmentBits g.levels).isSome) =
        [true, true] := by decide +kernel

/-- V-X7: a Gap latches. -/
theorem test_gap_latches :
    showWire ⟨18, 1, 255, false, .RGB, 800000⟩ [] (levels [0x80, 0, 0] 0 ++ [.gap]) =
      [some [(.R, 0x80), (.G, 0), (.B, 0)]] := by decide

/-! ### Witnesses: encoding and the step -/

/-- Words of both classes that decode. -/
theorem witness_DecodedWordsAreTheEncoding :
    decode .command [0x14, 5, 7] = .ok (.setpixel .c1 5 7) ∧
      decode .block [0x111, 0x10000060, 0x10000064, 4, 0, 0] = .ok (.cb (.flag 0x10000060 0x10000064 4 0)) := ⟨rfl, rfl⟩

theorem issuing_aboutToIssue (w : Word) (args : List Word) (s : State) (h : s.waiting = false) :
    AboutToIssue (issuing w args s) w := ⟨rfl, h, false, [], rfl⟩

/-- O3, V-H1 to V-H6: each reserved form at its boundary is refused; the legal word 0x16 is not. -/
theorem witness_ReservedCommandWordsAreRefused :
    (∀ w ∈ [0x00000000#32, 0x00000009#32, 0x0000000F#32, 0x00000027#32, 0x80000007#32, 0x00000017#32],
        AboutToIssue (issuing w [] (idle devOne)) w ∧ ReservedWord w ∧
          refusedOf (step (issuing w [] (idle devOne))) = some .reservedEncoding) ∧
      AboutToIssue (issuing 0x16 [] (idle devOne)) 0x16 ∧ ¬ReservedWord 0x16 := by
  refine ⟨fun w hw => ⟨issuing_aboutToIssue w [] _ rfl, ?_⟩, issuing_aboutToIssue _ _ _ rfl, ?_⟩
  · simp only [List.mem_cons, List.not_mem_nil, or_false] at hw
    unfold ReservedWord
    rcases hw with rfl | rfl | rfl | rfl | rfl | rfl <;> decide +kernel
  · unfold ReservedWord
    decide +kernel

/-- O4, V-H8 to V-H11: a wrong shape for each opcode that has one is refused; INIT with twelve words is not. -/
theorem witness_WrongArgumentShapesAreRefused :
    (∀ x ∈ [(0x4#32, 1), (0x4#32, 3), (0x7#32, 1), (0x1#32, 7), (0x2#32, 2), (0x2#32, 4), (0x3#32, 1), (0x6#32, 1),
          (0x8#32, 1)],
        AboutToIssue (issuing x.1 (List.replicate x.2 0) (idle devOne)) x.1 ∧ ¬ReservedWord x.1 ∧ ¬ShapeOk x.1 x.2 ∧
          refusedOf (step (issuing x.1 (List.replicate x.2 0) (idle devOne))) = some .argumentShape) ∧
      AboutToIssue (issuing 0x1 (List.replicate 12 0) State.reset) 0x1 ∧ ¬ReservedWord 0x1 ∧ ShapeOk 0x1 12 := by
  refine ⟨fun x hx => ⟨issuing_aboutToIssue x.1 _ _ rfl, ?_⟩, issuing_aboutToIssue _ _ _ rfl, ?_⟩
  · revert x
    unfold ReservedWord ShapeOk
    decide +kernel
  · unfold ReservedWord ShapeOk
    decide +kernel

/-- A WAIT that holds with the accesses q pending. -/
def heldWith (q : List HostEvent) : State :=
  { armed devOne with waiting := true, env := { Env.empty with hostq := q, plan := [.host] } }

/-- O6: a SETPIXEL about to be issued; a WAIT that holds with nothing pending, and with a second thread's access behind the
host's own. -/
theorem witness_StepRunsTheIssuedCommand :
    (AboutToIssue (issuing 0x4 [0, 9] (idle devOne)) 0x4 ∧
        decode .command (0x4 :: (issuing 0x4 [0, 9] (idle devOne)).argq) = .ok (.setpixel .c0 0 9)) ∧
      ∀ q ∈ [[], [⟨.write 0x00#32 0x3, false⟩, ⟨.write 0x00#32 0x3, true⟩]],
        (heldWith q).turn = .host ∧ (heldWith q).waiting = true ∧
          ∀ e rest, (heldWith q).env.hostq = e :: rest → e.secondThread = false := by
  refine ⟨⟨issuing_aboutToIssue _ _ _ rfl, rfl⟩, fun q hq => ⟨rfl, rfl, fun e rest h => ?_⟩⟩
  have h : q = e :: rest := h
  subst h
  simp only [List.mem_cons, List.cons.injEq, List.not_mem_nil, or_false, reduceCtorEq, false_or] at hq
  rw [hq.1]

/-- A valid block of the region, at its last 24 bytes (RBASE + 0xE0 of a region of 0xF8). -/
def lastBlock : State := loading 0x100000E0 [0x00000100, 0x100000E0, 0x100000E4, 4, 0, 0] (idle (deviceOf 2 30 248 [0, 0]))

/-- A block at the end of the region whose six words just fit. -/
theorem witness_StepRunsTheLoadedBlock :
    lastBlock.turn = .dma ∧ lastBlock.dma.active = true ∧ lastBlock.dma.dphase = .load ∧
      lastBlock.dma.stalled = false ∧ lastBlock.dma.conblkAd.toNat % 32 = 0 ∧
      (∀ k < 6, lastBlock.readable (lastBlock.dma.conblkAd.toNat + 4 * k) = true) ∧
      decode .block (wordsAt lastBlock.mem lastBlock.dma.conblkAd.toNat 6) =
        .ok (.cb ⟨⟨false, false, false, true, 0⟩, 0x100000E0, 0x100000E4, 4, 0, 0⟩) :=
  ⟨rfl, rfl, rfl, rfl, by decide, by decide +kernel, by rfl⟩

/-- O8, V-H16: a second thread's CMD write while a WAIT holds. -/
theorem witness_CommandDuringWaitIsRefused :
    refusedOf (step (accessing (.write 0x00 0x3) true { armed devOne with waiting := true })) =
      some .concurrentCommand := by decide +kernel

/-- The writes of ARGQ, of CMD's other neighbours and of a reserved offset, and the reads of every offset, V-H17 among
them; the last access is a second thread's while a WAIT holds. -/
theorem witness_HostPortAccesses :
    (nextOf (step (accessing (.write 0x04 7) false { State.reset with argq := [5] }))).map (fun t => t.argq) =
        some [5, 7] ∧
      (nextOf (step (accessing (.write 0x08 7) false State.reset))).map (fun t => t.resultWord) = some 0 ∧
      (nextOf (step (accessing (.read 0x08) false { State.reset with result := ⟨.timeoutError, 3⟩ }))).map
          (fun t => t.env.rdata) = some 0x00030007 ∧
      (nextOf (step (accessing (.read 0x00) false (idle devOne)))).map (fun t => t.env.rdata) = some 0 ∧
      (nextOf (step (accessing (.read 0x0C) true { armed devOne with waiting := true }))).map (fun t => t.env.rdata) =
        some 0x26 := by decide +kernel

/-! ### Witnesses: host commands -/

/-- States before INIT and after FINI, and a fault. -/
theorem witness_DataCommandsFaultOutsideActive :
    (∀ d, State.reset.life ≠ .active d) ∧ (∀ d, { State.reset with life := .finalized }.life ≠ .active d) ∧
      exec .wait State.reset = .fault .notInitialized :=
  ⟨(fun _ h => nomatch h), (fun _ h => nomatch h), rfl⟩

/-- Every command completes in some state, with each code the map lists; and one is refused. -/
theorem witness_CommandOutcomeMap :
    (∀ x ∈
        [(exec (.init [⟨18, 4, 128, 0, 2, 800000⟩]) (drawing goodDraw State.reset), ResultCode.ok),
          (exec (.init []) State.reset, .configError),
          (exec (.init1 18 16 255) (idle devOne), .hardwareBusyError),
          (exec (.init1 18 500 255) (drawing goodDraw State.reset), .resourceError),
          (exec .fini (idle devOne), .ok),
          (exec (.setpixel .c0 0 1) (idle devOne), .ok),
          (exec (.setpixel .c0 1 1) (idle devOne), .indexError),
          (exec (.setbitmap .c0 [1]) (idle devOne), .ok),
          (exec (.setbitmap .c1 [1]) (idle devOne), .indexError),
          (exec (.setbitmap .c0 []) (idle devOne), .lengthMismatchError),
          (exec (.clear .c0) (idle devOne), .ok),
          (exec (.clear .c1) (idle devOne), .indexError),
          (exec (.clear .c0) (armed devOne), .transmissionError),
          (exec .render (idle devOne), .ok),
          (exec .render (armed devOne), .transmissionError),
          (exec .wait (idle devOne), .ok),
          (exec .wait { armed devOne with dma := { (armed devOne).dma with stalled := true } }, .timeoutError)],
        (nextOf x.1).map (fun t => (t.result.code, t.waiting)) = some (x.2, false)) ∧
      refusedOf (exec (.init1 21 1 255) State.reset) = some .pcmPin := by decide +kernel

/-- A command's error, and CLEAR's, which has zeroed its buffer. -/
theorem witness_ErrorsArePrecise :
    (Instr.clear .c0).cls = .command ∧
      (nextOf (exec (.clear .c0) (armed devTwo))).map (fun t => decide (t.result.code ≠ .ok)) = some true ∧
      (nextOf (exec .render (armed devTwo))).map (fun t => decide (t.result.code ≠ .ok)) = some true := by decide +kernel

/-- O13, V-H15: a PCM pin beside a count of 0. -/
theorem witness_InitWithPcmPinIsRefused :
    (⟨21, 0, 255, 0, 0, 800000⟩ : ConfigRecord) ∈ [(⟨21, 0, 255, 0, 0, 800000⟩ : ConfigRecord)] ∧
      21 ∈ State.reset.config.pcmPins ∧ (21#32).toInt = (21 : Int) := by decide

/-- The vectors' parameters with another source frequency. -/
def withSource (f : Nat) : Config := { Config.vectors with fSrc := f }

theorem vectors_record (r : ConfigRecord) (c : Chan) (h1 : r.count.toNat ≠ 0) (h2 : r.bright.toNat ≤ 255)
    (h3 : r.invw.toNat ≤ 1) (h4 : r.stype.toNat ≤ 11) (h5 : r.freq.toNat = 400000 ∨ r.freq.toNat = 800000)
    (h6 : ∃ g ∈ routeOf Config.vectors c, r.pin.toInt = (g : Int)) : ValidRecord Config.vectors c r :=
  ⟨h1, h2, h3, h4, h5, h6⟩

/-- One record at every upper bound: brightness 255, invert 1, strip type 11 (V-I10), on pin 52. -/
def topRecord : ConfigRecord := ⟨52, 1, 255, 1, 11, 400000⟩

/-- A second channel's record, at the lower bounds. -/
def lowRecord : ConfigRecord := ⟨13, 1, 0, 0, 0, 400000⟩

theorem topRecord_valid : ValidConfig Config.vectors [topRecord] :=
  ⟨⟨by decide, by decide, by decide, by decide, .inl rfl, 52, by decide, by decide⟩, by decide, by decide⟩

theorem twoRecords_valid : ValidConfig Config.vectors [topRecord, lowRecord] :=
  ⟨topRecord_valid.1, ⟨by decide, by decide, by decide, by decide, .inl rfl, 13, by decide, by decide⟩, by decide,
    rfl, topRecord_valid.2⟩

theorem noPcm_vectors : NoPcmPin Config.vectors [topRecord, lowRecord] := by
  unfold NoPcmPin
  decide +kernel

theorem noPcm_one : NoPcmPin Config.vectors [topRecord] := fun r hr => noPcm_vectors r (by simp_all)

/-- A list that fails (three records, V-I15, without a PCM pin) and lists that pass, at the bounds of every field; a
divisor of 2 and one of 4095 pass, 1 and 4096 fail. -/
theorem witness_InitReportsConfigError :
    NoPcmPin State.reset.config [] ∧ ¬ValidConfig State.reset.config [] ∧
      ¬ValidConfig State.reset.config [topRecord, lowRecord, lowRecord] ∧
      NoPcmPin State.reset.config [topRecord] ∧ ValidConfig State.reset.config [topRecord] ∧
      (nextOf (exec (.init [topRecord]) (drawing goodDraw State.reset))).isSome = true ∧
      ValidDivisor (withSource 1800000) topRecord ∧ ¬ValidDivisor (withSource 1799999) topRecord ∧
      ValidDivisor (withSource 4914599999) topRecord ∧ ¬ValidDivisor (withSource 4914600000) topRecord :=
  ⟨(fun _ h => nomatch h), id, id, noPcm_one, topRecord_valid, by decide +kernel, by unfold ValidDivisor; decide +kernel,
    by unfold ValidDivisor; decide +kernel, by unfold ValidDivisor; decide +kernel, by unfold ValidDivisor; decide +kernel⟩

/-- O15, V-I17 and V-I19: the peripheral owned by this instance, and by another process. -/
theorem witness_InitReportsHardwareBusy :
    NoPcmPin (idle devOne).config [topRecord] ∧ ValidConfig (idle devOne).config [topRecord] ∧ (idle devOne).owned = true ∧
      (drawing { goodDraw with otherOwner := true } State.reset).owned = false ∧
      (drawing { goodDraw with otherOwner := true } State.reset).initDraw.otherOwner = true :=
  ⟨noPcm_one, topRecord_valid, rfl, rfl, rfl⟩

/-- A machine whose regions hold at most n bytes. -/
def bounded (n : Nat) : State :=
  { drawing goodDraw State.reset with config := { Config.vectors with maxRegionBytes := n } }

/-- O16 and O17 at the bound of MAX_REGION_BYTES: one inverted RGBW pixel at 400000 Hz takes 6 words, so RSIZE is 152; 151
bytes do not hold it, 152 do. -/
theorem witness_InitReportsResourceError :
    configRsize [topRecord] = 152 ∧ (bounded 151).config.maxRegionBytes < configRsize [topRecord] ∧
      (bounded 151).initDraw.allocFails = false ∧
      configRsize [topRecord] ≤ (bounded 152).config.maxRegionBytes ∧ (bounded 152).owned = false ∧
      (bounded 152).initDraw.otherOwner = false ∧
      (drawing { goodDraw with allocFails := true } State.reset).initDraw.allocFails = true := by decide

/-- One and two channels, at the lowest region base and the highest. -/
theorem witness_InitCommitsTheDevice :
    NoPcmPin (bounded 176).config [topRecord, lowRecord] ∧ ValidConfig (bounded 176).config [topRecord, lowRecord] ∧
      (bounded 176).owned = false ∧ (bounded 176).initDraw.otherOwner = false ∧
      (bounded 176).initDraw.allocFails = false ∧
      configRsize [topRecord, lowRecord] ≤ (bounded 176).config.maxRegionBytes ∧
      BaseConstraint Config.vectors (configRsize [topRecord, lowRecord]) (bounded 176).initDraw.rbase ∧
      BaseConstraint Config.vectors (configRsize [topRecord, lowRecord]) 0x20 ∧
      BaseConstraint Config.vectors (configRsize [topRecord, lowRecord]) 0xFFFFFF40 :=
  ⟨noPcm_vectors, twoRecords_valid, rfl, rfl, rfl, by decide, by unfold BaseConstraint; decide +kernel,
    by unfold BaseConstraint; decide +kernel, by unfold BaseConstraint; decide +kernel⟩

/-- INIT1 18, 16, 255 (V-I1). -/
theorem witness_InitOneUsesTheDefaults :
    NoPcmPin Config.vectors [⟨18, 16, 255, 0, 0, 800000⟩] ∧ ValidConfig Config.vectors [⟨18, 16, 255, 0, 0, 800000⟩] ∧
      (drawing goodDraw State.reset).owned = false ∧
      configRsize [⟨18, 16, 255, 0, 0, 800000⟩] ≤ Config.vectors.maxRegionBytes ∧
      BaseConstraint Config.vectors (configRsize [⟨18, 16, 255, 0, 0, 800000⟩]) goodDraw.rbase := by
  refine ⟨by unfold NoPcmPin; decide +kernel,
    ⟨⟨by decide, by decide, by decide, by decide, .inr rfl, 18, by decide, by decide⟩, by decide, by decide⟩, rfl, by decide,
    by unfold BaseConstraint; decide +kernel⟩

/-- FINI in and outside Active. -/
theorem witness_FiniReleasesTheDevice :
    (armed devTwo).life = .active devTwo ∧ ∀ d, State.reset.life ≠ .active d := ⟨rfl, (fun _ h => nomatch h)⟩

/-- The last index of each channel. -/
theorem witness_SetpixelWritesOnePixel :
    (idle devP1).life = .active devP1 ∧ devP1.chan .c0 = some devP1.ch0 ∧ (15#32).toNat < devP1.ch0.cfg.count ∧
      (armed devTwo).life = .active devTwo ∧ devTwo.chan .c1 = devTwo.ch1 ∧ devTwo.ch1.isSome = true := by
  refine ⟨rfl, rfl, by decide, rfl, rfl, rfl⟩

/-- A channel that is not configured, the first index past the count, and lengths on both sides of it. -/
theorem witness_BufferCommandErrors :
    (idle devP1).life = .active devP1 ∧ devP1.chan .c1 = none ∧ devP1.chan .c0 = some devP1.ch0 ∧
      devP1.ch0.cfg.count ≤ (16#32).toNat ∧ (List.replicate 15 0#32).length ≠ devP1.ch0.cfg.count ∧
      (List.replicate 17 0#32).length ≠ devP1.ch0.cfg.count := by
  refine ⟨rfl, rfl, rfl, by decide, by decide, by decide⟩

/-- O22, V-C12: a bitmap of the right length. -/
theorem witness_SetbitmapReplacesTheBuffer :
    (idle devP1).life = .active devP1 ∧ devP1.chan .c0 = some devP1.ch0 ∧
      (List.replicate 16 7#32).length = devP1.ch0.cfg.count := ⟨rfl, rfl, rfl⟩

/-- O23 and O25: CLEAR and RENDER of a configured channel with nothing in flight, and in flight. -/
theorem witness_ClearZeroesThenRenders :
    (idle devTwo).life = .active devTwo ∧ (devTwo.chan .c1).isSome = true ∧ (idle devTwo).complete devTwo = true ∧
      (armed devTwo).life = .active devTwo ∧ (armed devTwo).complete devTwo = false :=
  ⟨rfl, rfl, by decide +kernel, rfl, by decide +kernel⟩

theorem devOne_wf : devOne.wf Config.vectors where
  ch0 := by refine ⟨by decide, by decide, rfl, by decide⟩
  ch1 := (fun _ h => nomatch h)
  slot := rfl
  rsize := rfl
  base := by decide

theorem devTwo_wf : devTwo.wf Config.vectors where
  ch0 := by refine ⟨by decide, by decide, rfl, by decide⟩
  ch1 := by
    intro k hk
    cases hk
    exact ⟨by refine ⟨by decide, by decide, rfl, by decide⟩, rfl, by decide⟩
  slot := rfl
  rsize := rfl
  base := by decide

/-- One channel and two, nothing in flight. -/
theorem witness_RenderArmsTheChain :
    Memory.wf (idle devTwo).mem ∧ devTwo.wf (idle devTwo).config ∧ (idle devTwo).life = .active devTwo ∧
      (idle devTwo).dma.error = false ∧ (idle devTwo).complete devTwo = true ∧ devOne.wf (idle devOne).config ∧
      (idle devOne).complete devOne = true :=
  ⟨Memory.wf_nil, devTwo_wf, rfl, rfl, by decide +kernel, devOne_wf, by decide +kernel⟩

/-- O26, V-C19: complete and drained. -/
theorem witness_WaitReturnsWhenDrained :
    (idle devTwo).life = .active devTwo ∧ (idle devTwo).cflag devTwo = 0 ∧ (idle devTwo).dma.active = false ∧
      ∀ c k, devTwo.chan c = some k → ((idle devTwo).ser c).fifo = [] := by
  refine ⟨rfl, by decide +kernel, rfl, fun c k _ => ?_⟩
  cases c <;> rfl

/-- A sequencer stopped with the given cause, its frame unfinished (V-C21). -/
def stopped (cause : BitVec 3) : State := (armed devOne).stop cause

/-- Channel 0's block in transfer with DMAC.ENAB = 0. -/
def starving : State := { moving 0x00010140 0x10000080 0xF0000000 28 0x10000040 (idle devOne) with dmac := false }

/-- Channel 0's block in transfer with a full FIFO and the clock off. -/
def blocked : State :=
  { moving 0x00010140 0x10000080 0xF0000000 4 0x10000040 (idle devOne) with
    clk := ⟨false, 8⟩
    ser0 := { (idle devOne).ser0 with fifo := List.replicate 16 7 } }

/-- Complete, with a word left in the FIFO of a serializer that is disabled. -/
def strandedOne : State := { idle devOne with ser0 := { (idle devOne).ser0 with fifo := [7], pwen := false } }

/-- The sequencer idle with the frame's flag still set. -/
def flaggedOne : State := { armed devOne with dma := Dma.powerOn }

/-- A stalled sequencer. -/
def stalledOne : State := { armed devOne with dma := { (armed devOne).dma with stalled := true } }

/-- A stop with cause 1 and with cause 4; R183 (a) by a stall (V-C20), by DMAC.ENAB = 0 and by a full FIFO with the clock off,
(b), and (c); and a frame in flight, for which WAIT holds. -/
theorem witness_WaitTimesOutOrHolds :
    ((stopped 1).dma.error = true ∧ (stopped 4).dma.error = true ∧
        ¬((stopped 4).complete devOne = true ∧ (stopped 4).drained devOne = true)) ∧
      (∀ s ∈ [stalledOne, starving, blocked, flaggedOne, strandedOne],
        s.life = .active devOne ∧ s.dma.error = false ∧ StuckTransport s devOne ∧
          ¬(s.complete devOne = true ∧ s.drained devOne = true)) ∧
      (armed devOne).life = .active devOne ∧ (armed devOne).dma.error = false ∧ ¬StuckTransport (armed devOne) devOne ∧
      ¬((armed devOne).complete devOne = true ∧ (armed devOne).drained devOne = true) := by
  refine ⟨⟨rfl, rfl, by decide +kernel⟩, ?_, rfl, rfl, ?_, by decide +kernel⟩
  · intro s hs
    simp only [List.mem_cons, List.not_mem_nil, or_false] at hs
    rcases hs with rfl | rfl | rfl | rfl | rfl
    · exact ⟨rfl, rfl, .stalled rfl rfl, by decide +kernel⟩
    · exact ⟨rfl, rfl, .starved .c0 rfl rfl (by decide) (by decide) (by decide) (.inl rfl) (.inl rfl), by decide +kernel⟩
    · exact ⟨rfl, rfl, .starved .c0 rfl rfl (by decide) (by decide) (by decide) (.inr (by decide))
        (.inr fun h => nomatch h.1), by decide +kernel⟩
    · exact ⟨rfl, rfl, .flagged rfl rfl (by decide +kernel), by decide +kernel⟩
    · exact ⟨rfl, rfl, .stranded .c0 devOne.ch0 (by decide +kernel) rfl rfl (by decide) (fun h => nomatch h.2.2),
        by decide +kernel⟩
  · rw [← State.transportStuck_iff _ _ rfl]
    decide +kernel

/-- A frame in flight. -/
theorem witness_RenderInFlightIsRejected :
    (armed devTwo).life = .active devTwo ∧ (armed devTwo).complete devTwo = false := ⟨rfl, by decide +kernel⟩

/-! ### Witnesses: the sequencer and the serializers -/

/-- The last legal PERMAP, and the shortest block. -/
theorem witness_LoadOfAValidBlockEntersXfer :
    (ControlBlock.data .c1 0x10000080 0xF0000004 4 0).wellFormed = true ∧
      (ControlBlock.flag 0x10000060 0x10000064 4 0).wellFormed = true := by decide

/-- The words of a block read by LOAD. -/
def loadWords (ti src dst len stride next : Word) : State :=
  loading 0x10000000 [ti, src, dst, len, stride, next] (idle devP1)

/-- V-D1 to V-D10 and the valid block V-D19, each with the conditions of its clause; V-D3's block ends one word past the
region. -/
theorem witness_LoadChecksInOrder :
    (∀ s ∈
        [loading 0x10000010 [] (idle devP1), loading 0x20000000 [] (idle devP1),
          loading 0x100000E0 [] (idle (deviceOf 1 28 240 [0])), loadWords 0x00010142 0 0 4 0 0],
        s.turn = .dma ∧ s.dma.active = true ∧ s.dma.dphase = .load ∧ s.dma.stalled = false) ∧
      (loading 0x10000010 [] (idle devP1)).dma.conblkAd.toNat % 32 ≠ 0 ∧
      (∃ k < 6, (loading 0x20000000 [] (idle devP1)).readable (0x20000000 + 4 * k) = false) ∧
      (loading 0x100000E0 [] (idle (deviceOf 1 28 240 [0]))).readable (0x100000E0 + 4 * 3) = true ∧
      (loading 0x100000E0 [] (idle (deviceOf 1 28 240 [0]))).readable (0x100000E0 + 4 * 4) = false ∧
      (∀ k < 6, (loadWords 0x00010142 0 0 4 0 0).readable (0x10000000 + 4 * k) = true) ∧
      wordsAt (loadWords 0x00010142 8 12 4 0 16).mem 0x10000000 6 = [0x00010142, 8, 12, 4, 0, 16] ∧
      (0x00010142#32 &&& 0xFFE0FEAE#32 ≠ 0 ∧ 2 < (0x00030140#32).toNat / 65536 % 32 ∧
        (0x00000140#32).getLsbD 6 = true ∧ (0x00000140#32).toNat / 65536 % 32 = 0) ∧
      ((0#32).toNat = 0 ∧ (6#32).toNat % 4 ≠ 0 ∧ (4#32).toNat ≠ 0 ∧ (0x10000082#32).toNat % 4 ≠ 0 ∧
        (0xF0000002#32).toNat % 4 ≠ 0) ∧
      ¬ValidBlockWords 0x001F0151 0 0 4 0 ∧ ValidBlockWords 0x00020151 0xFFFFFFFC 0xFFFFFFFC 0xFFFFFFFC 0 := by
  unfold ValidBlockWords
  refine ⟨?_, ?_, ?_, ?_, ?_, ?_, ?_, ?_, ?_, ?_, ?_⟩
  · intro s hs
    simp only [List.mem_cons, List.not_mem_nil, or_false] at hs
    rcases hs with rfl | rfl | rfl | rfl <;> exact ⟨rfl, rfl, rfl, rfl⟩
  · decide +kernel
  · exact ⟨0, by decide, by decide +kernel⟩
  · decide +kernel
  · decide +kernel
  · decide +kernel
  · decide +kernel
  · decide +kernel
  · decide +kernel
  · decide +kernel
  · decide +kernel

/-- A transfer of a device with serializer 0's FIFO holding n words. -/
def pushing (n : Nat) : State :=
  { moving 0x00000100 0x10000080 0xF0000000 4 0 (idle devP1) with
    ser0 := { (idle devP1).ser0 with fifo := List.replicate n 7 } }

/-- V-D11, V-D12, V-D13, a push into the last free place, and a store to the last word of the region. -/
theorem witness_XferMovesOneWord :
    (∀ s ∈
        [moving 0x00000100 0xF0000000 0x10000060 4 0 (idle devP1),
          moving 0x00000100 0x10000080 0x20000000 4 0 (idle devP1), pushing 15, pushing 16,
          moving 0x00000110 0x10000080 0x10000120 4 0 (idle devP1)],
        Memory.wf s.mem ∧ s.turn = .dma ∧ s.xferEnabled = true) ∧
      (moving 0x00000100 0xF0000000 0x10000060 4 0 (idle devP1)).readable 0xF0000000 = false ∧
      (moving 0x00000100 0x10000080 0x20000000 4 0 (idle devP1)).readable 0x10000080 = true ∧
      (moving 0x00000100 0x10000080 0x20000000 4 0 (idle devP1)).writable 0x20000000 = false ∧
      ((pushing 15).writable (pushing 15).dma.destAd.toNat = true ∧
        (pushing 15).dma.destAd = fifBus (pushing 15).config .c0 ∧
        (pushing 15).ser0.fifo.length < (pushing 15).config.fifoDepth ∧
        (pushing 16).config.fifoDepth ≤ (pushing 16).ser0.fifo.length) ∧
      (moving 0x00000110 0x10000080 0x10000120 4 0 (idle devP1)).writable 0x10000120 = true ∧
      (moving 0x00000110 0x10000080 0x10000124 4 0 (idle devP1)).writable 0x10000124 = false := by
  refine ⟨?_, ?_, ?_, ?_, ?_, ?_, ?_⟩
  · intro s hs
    simp only [List.mem_cons, List.not_mem_nil, or_false] at hs
    rcases hs with rfl | rfl | rfl | rfl | rfl <;> exact ⟨Memory.wf_nil, rfl, by decide +kernel⟩
  all_goals decide +kernel

/-- O31, V-D15: the end of a chain's last block, and of one with a successor. -/
theorem witness_NextEndsOrFollowsTheChain :
    ∀ s ∈ [moving 0x00000111 0x10000064 0x10000068 0 0 (idle devP1),
        moving 0x00010140 0x10000124 0xF0000000 0 0x10000040 (idle devP1)],
      s.turn = .dma ∧ s.dma.active = true ∧ s.dma.stalled = false ∧ s.dma.dphase = .xfer ∧ s.dma.txfrLen = 0 ∧
        (s.dma.nextConbk = 0 ∨ s.dma.nextConbk ≠ 0) := by
  intro s hs
  simp only [List.mem_cons, List.not_mem_nil, or_false] at hs
  rcases hs with rfl | rfl <;> exact ⟨rfl, rfl, rfl, rfl, rfl, by decide⟩

/-- A launch that may stall, its sequencer in a chain. -/
def unhealthy (stalled : Bool) : State :=
  { moving 0x00010140 0x10000080 0xF0000000 164 0x10000040 (idle devP1) with
    hwHealthy := false
    dma := { (moving 0x00010140 0x10000080 0xF0000000 164 0x10000040 (idle devP1)).dma with stalled := stalled } }

/-- O32, V-D18: a stall, a stalled sequencer, and a step of a healthy launch. -/
theorem witness_StallOnlyWhenUnhealthy :
    ((atTurn .stall (unhealthy false)).turn = .stall ∧ (unhealthy false).dma.active = true ∧
        (unhealthy false).dma.stalled = false ∧ (unhealthy false).hwHealthy = false) ∧
      ((unhealthy true).turn = .dma ∧ (unhealthy true).dma.stalled = true) ∧
      (idle devOne).hwHealthy = true ∧ (nextOf (step (atTurn .stall (pushing 3)))).isSome = true :=
  ⟨⟨rfl, rfl, rfl, rfl⟩, ⟨rfl, rfl⟩, rfl, by decide +kernel⟩

/-- A paced transfer to serializer 0 whose FIFO holds n words. -/
def paced (n : Nat) : State :=
  { moving 0x00010140 0x10000080 0xF0000000 164 0x10000040 (idle devP1) with
    ser0 := { (idle devP1).ser0 with fifo := List.replicate n 7 } }

/-- O33, V-D14: a full FIFO, no data requests, and a sequencer that is not active. -/
theorem witness_PacedTransferWaits :
    ((paced 16).turn = .dma ∧ (paced 16).dma.active = true ∧ (paced 16).dma.dphase = .xfer ∧
        (paced 16).dma.txfrLen ≠ 0 ∧ (paced 16).dma.ti.getLsbD 6 = true ∧
        (paced 16).dma.ti.toNat / 65536 % 32 = Chan.c0.toNat + 1 ∧
        (paced 16).config.fifoDepth ≤ (paced 16).ser0.fifo.length ∧ { paced 0 with dmac := false }.dmac = false) ∧
      (atTurn .dma (idle devOne)).turn = .dma ∧ (idle devOne).dma.active = false := by decide +kernel

/-- Serializer c's turn at the least divisor that runs, with the FIFO given. -/
def shifting (c : Chan) (fifo : List Word) : State :=
  atTurn (.ser c)
    ({ idle devTwo with clk := ⟨true, 2⟩ }.setSer c { (idle devTwo).ser c with fifo := fifo })

/-- A state of the two-channel device whose marks and polarities are those its INIT left. -/
theorem fresh_markInv {s : State} (hl : s.life = .active devTwo)
    (h : ∀ c, (s.ser c).marks = ((idle devTwo).ser c).marks ∧ (s.ser c).pola = ((idle devTwo).ser c).pola) : MarkInv s := by
  intro c
  obtain ⟨hm, hp⟩ := h c
  have hone : ∃ m, (s.ser c).marks = [m] ∧ m.start = 0 ∧ ∀ k, devTwo.chan c = some k → m.cfg = k.cfg := by
    rw [hm]
    cases c
    · exact ⟨_, rfl, rfl, fun k hk => by cases hk; rfl⟩
    · exact ⟨_, rfl, rfl, fun k hk => by cases hk; rfl⟩
  obtain ⟨m, he, h0, hk⟩ := hone
  refine ⟨⟨by simp [he], by simp [he, h0], by simp [he, h0], by simp [he]⟩, fun d k hd hc => ?_⟩
  rw [hl] at hd
  cases hd
  refine ⟨?_, m, by simp [he], hk k hc⟩
  rw [hp]
  cases c <;> cases hc <;> rfl

/-- O34, V-S1 and V-S2. -/
theorem witness_ShiftEmitsOneWord :
    ∀ c ∈ [Chan.c0, Chan.c1],
      (shifting c [0x92492492]).turn = .ser c ∧ (shifting c [0x92492492]).clk.enab = true ∧
        2 ≤ (shifting c [0x92492492]).clk.divi.toNat ∧ ((shifting c [0x92492492]).ser c).pwen = true ∧
        ((shifting c [0x92492492]).ser c).fifo = 0x92492492 :: [] ∧ MarkInv (shifting c [0x92492492]) ∧
        (shifting c [0x92492492]).life = .active devTwo ∧ (devTwo.chan c).isSome = true := by
  intro c _
  cases c
  · exact ⟨rfl, rfl, by decide, rfl, rfl, fresh_markInv rfl fun e => by cases e <;> exact ⟨rfl, rfl⟩, rfl, rfl⟩
  · exact ⟨rfl, rfl, by decide, rfl, rfl, fresh_markInv rfl fun e => by cases e <;> exact ⟨rfl, rfl⟩, rfl, rfl⟩

/-- O35, V-S3, V-S4 (the other serializer), V-S5 and V-S7. -/
theorem witness_GapRecordsOneIdle :
    ∀ s ∈ [shifting .c1 [], { shifting .c1 [] with dma := (paced 0).dma },
        { shifting .c1 [] with dma := { (unhealthy true).dma with ti := 0x00020140 } },
        { shifting .c1 [] with dma := (loading 0x10000000 [] (idle devTwo)).dma }],
      s.turn = .ser .c1 ∧ s.clk.enab = true ∧ 2 ≤ s.clk.divi.toNat ∧ (s.ser .c1).pwen = true ∧ (s.ser .c1).fifo = [] ∧
        (s.ser .c1).lastGap = false ∧
        ¬(s.dma.active = true ∧ s.dma.stalled = false ∧ s.dma.dphase = .xfer ∧
            s.dma.ti.toNat / 65536 % 32 = Chan.c1.toNat + 1) := by decide +kernel

/-- O36, V-S4 and V-S6: each reason to rest, the divisor 1 among them. -/
theorem witness_SerializerRests :
    { shifting .c0 [7] with clk := ⟨false, 8⟩ }.clk.enab = false ∧
      { shifting .c0 [7] with clk := ⟨true, 1⟩ }.clk.divi.toNat < 2 ∧
      ({ shifting .c0 [7] with ser0 := Serializer.powerOn }.ser .c0).pwen = false ∧
      ((shifting .c0 []).setSer .c0 { (shifting .c0 []).ser0 with lastGap := true }).ser0.lastGap = true ∧
      (paced 0).dma.active = true ∧ (paced 0).dma.stalled = false ∧ (paced 0).dma.dphase = .xfer ∧
      (paced 0).dma.ti.toNat / 65536 % 32 = Chan.c0.toNat + 1 := by decide +kernel

/-! ### Witnesses: registers, encoder, strip -/

/-- BUSY set and clear, ACTIVE set and clear, ERROR set, and the largest word without RESET and ACTIVE. -/
theorem witness_RegisterWriteRules :
    (idle devOne).clk.enab = true ∧ State.reset.clk.enab = false ∧ (paced 0).dma.active = true ∧
      State.reset.dma.active = false ∧ State.reset.dma.error = false ∧ (stopped 1).dma.error = true ∧
      (0x7FFFFFFE#32).toNat < 2 ^ 31 ∧ (0x7FFFFFFE#32).getLsbD 0 = false ∧ (0x7FFFFFFF#32).toNat < 2 ^ 31 ∧
      (0x7FFFFFFF#32).getLsbD 0 = true ∧ (pushing 15).ser0.fifo.length < (pushing 15).config.fifoDepth ∧
      (pushing 16).config.fifoDepth ≤ (pushing 16).ser0.fifo.length ∧
      0x29 ∉ [0x00, 0x04, 0x08, 0x18, 0x28] ∧ 0x10 ∉ [0x00, 0x04, 0x08, 0x18, 0x28] ∧ 0x08 ∉ [0x00, 0x04] := by
  decide +kernel

/-- A buffer as long as its count, and the last slot of its frame. -/
theorem witness_FrameLengths :
    ([0x11223344] : List Word).length = (⟨18, 1, 255, false, .GRB, 400000⟩ : ChannelConfig).count ∧
      159 < 32 * frameWords ⟨18, 1, 255, false, .GRB, 400000⟩ ∧
      ¬160 < 32 * frameWords ⟨18, 1, 255, false, .GRB, 400000⟩ := by decide

/-- As O44. -/
theorem witness_SlotsFillWordsFromTheTop :
    ([] : List Word).length = (⟨18, 0, 255, false, .RGB, 800000⟩ : ChannelConfig).count ∧
      0 < 32 * frameWords ⟨18, 0, 255, false, .RGB, 800000⟩ := by decide

/-- Two low slots in a row. -/
theorem witness_NoLongLowRunInData :
    (dataSlots [0] ⟨18, 1, 255, false, .RGB, 800000⟩)[1]? = some false ∧
      (dataSlots [0] ⟨18, 1, 255, false, .RGB, 800000⟩)[2]? = some false := by decide

/-- O47, V-E1 and V-E2. -/
theorem witness_DarkFramesAndIgnoredBits :
    (⟨18, 1, 0, false, .RGB, 800000⟩ : ChannelConfig).bright = 0 ∧ (∀ c ∈ ([0] : List Word), c = 0) ∧
      stripNcol .BGR = 3 ∧
      ([0xFF000000] : List Word).map (fun c => c.toNat % 2 ^ 24) = ([0] : List Word).map (fun c => c.toNat % 2 ^ 24) :=
  ⟨rfl, fun _ h => by simpa using h, rfl, by decide⟩

/-- One pixel at each frequency. -/
theorem witness_FrameDecodesToScaledPixels :
    (∀ f ∈ [400000, 800000],
      ([0x11223344] : List Word).length = (⟨18, 1, 255, true, .GRBW, f⟩ : ChannelConfig).count ∧
        0 < (⟨18, 1, 255, true, .GRBW, f⟩ : ChannelConfig).count ∧ (f = 400000 ∨ f = 800000)) ∧
      ({ Serializer.powerOn with
          wire := [.lvl true, .gap] ++ (frameSlots [0x20] devOne.ch0.cfg).map (fun b => .lvl (b ^^ false))
          marks := [⟨devTwo.ch0.cfg, 0⟩, ⟨devOne.ch0.cfg, 2⟩] } : Serializer).sections =
        [⟨devTwo.ch0.cfg, [.lvl true, .gap]⟩] ++
          [⟨devOne.ch0.cfg, (frameSlots [0x20] devOne.ch0.cfg).map (fun b => .lvl (b ^^ devOne.ch0.cfg.invert))⟩] :=
  ⟨by decide, by decide +kernel⟩

/-- The parameters with the smallest FIFO. -/
def tight : Config := { Config.vectors with fifoDepth := 1 }

/-- Two channels with nothing in flight, each FIFO of one word. -/
def tightIdle : State := { idle devTwo with config := tight }

theorem devTwo_wf_tight : devTwo.wf tight where
  ch0 := devTwo_wf.ch0
  ch1 := devTwo_wf.ch1
  slot := rfl
  rsize := rfl
  base := by decide

/-- The two-channel device with a region m and a sequencer x, the turn t next. -/
def tightAt (m : Memory) (x : Dma) (t : Turn) : State := atTurn t { tightIdle with mem := m, dma := x }

/-- The region after ARM of the two-channel device. -/
def armedRegion : Memory := devTwo.armMem tight []

/-- The armed frame with the sequencer's window replaced by x, and the turn t next. -/
def chainAt (x : Dma) (t : Turn) : State := tightAt armedRegion x t

theorem tightAt_deviceInv (m : Memory) (x : Dma) (t : Turn) (hm : Memory.wf m)
    (hb : ∀ c ∈ m, devTwo.rbase.toNat ≤ c.1 ∧ c.1 < devTwo.rbase.toNat + devTwo.rsize) : DeviceInv (tightAt m x t) :=
  ⟨hm, rfl, devTwo_wf_tight, hb⟩

theorem tightAt_chainInv (m : Memory) (x : Dma) (t : Turn) (hm : Armed tight devTwo m) (he : x.error = false)
    (ha : x.active = true)
    (h : AtLoad devTwo x ∨ (∃ c k n, InData tight devTwo x c k n) ∨
      ∃ n, InFlag devTwo x n ∧ (n = 0 → (tightAt m x t).cflag devTwo = 0)) : ChainInv (tightAt m x t) := by
  refine ⟨he, devTwo_wf_tight, rfl, rfl, fun c k _ => by cases c <;> rfl, ?_⟩
  show if x.active = true then _ else _
  rw [if_pos ha]
  exact ⟨hm, h⟩

theorem chainAt_deviceInv (x : Dma) (t : Turn) : DeviceInv (chainAt x t) :=
  tightAt_deviceInv _ x t (armMem_wf Memory.wf_nil) fun _ hc =>
    (armMem_mem devTwo_wf_tight hc).resolve_left List.not_mem_nil

theorem chainAt_chainInv (x : Dma) (t : Turn) (he : x.error = false) (ha : x.active = true)
    (h : AtLoad devTwo x ∨ (∃ c k n, InData tight devTwo x c k n) ∨
      ∃ n, InFlag devTwo x n ∧ (n = 0 → (chainAt x t).cflag devTwo = 0)) : ChainInv (chainAt x t) :=
  tightAt_chainInv _ x t (armMem_armed Memory.wf_nil) he ha h

/-- The window when the first block is about to be loaded. -/
def atFirst : Dma := { Dma.powerOn with active := true, conblkAd := 0x10000000, dphase := .load }

/-- The window in channel 1's block with n words to move. -/
def inSecond (n : Nat) : Dma :=
  { Dma.powerOn with
    active := true
    dphase := .xfer
    conblkAd := 0x10000020
    ti := 0x00020140
    sourceAd := BitVec.ofNat 32 (0x10000080 + 32 + 4 * (8 - n))
    destAd := 0xF0000004
    txfrLen := BitVec.ofNat 32 (4 * n)
    nextConbk := 0x10000040 }

/-- The window in the terminal block before its word is moved. -/
def inLast : Dma :=
  { Dma.powerOn with
    active := true
    dphase := .xfer
    conblkAd := 0x10000040
    ti := 0x00000111
    sourceAd := 0x10000060
    destAd := 0x10000064
    txfrLen := 4 }

/-- Channel 1 of the two-channel device. -/
def second : Channel := ⟨⟨13, 1, 255, true, .RGBW, 800000⟩, [0x80000001], 8⟩

theorem atFirst_chainInv (t : Turn) : ChainInv (chainAt atFirst t) :=
  chainAt_chainInv _ _ rfl rfl (.inl ⟨rfl, .inl ⟨.c0, devTwo.ch0, rfl, by decide⟩⟩)

theorem inSecond_chainInv (n : Nat) (h : n ∈ [0, 1, 8]) (t : Turn) : ChainInv (chainAt (inSecond n) t) := by
  refine chainAt_chainInv _ _ rfl rfl (.inr (.inl ⟨.c1, second, n, ?_⟩))
  simp only [List.mem_cons, List.not_mem_nil, or_false] at h
  rcases h with rfl | rfl | rfl <;>
    exact ⟨rfl, rfl, by decide, by decide, by decide, rfl, by decide, by decide, by decide, by decide⟩

theorem inLast_chainInv (t : Turn) : ChainInv (chainAt inLast t) :=
  chainAt_chainInv _ _ rfl rfl
    (.inr (.inr ⟨1, ⟨rfl, by decide, by decide, by decide, rfl, rfl, by decide, fun _ => ⟨by decide, by decide⟩⟩,
      fun h => absurd h (by decide)⟩))

theorem chainAt_dmaInv (n : Nat) (h : n ∈ [0, 1, 8]) (t : Turn) : DmaInv (chainAt (inSecond n) t) := by
  suffices h' : DmaInv (chainAt (inSecond n) .dma) from
    ⟨h'.phase, h'.error, h'.cause, h'.causeRange, h'.stalled, h'.loaded⟩
  simp only [List.mem_cons, List.not_mem_nil, or_false] at h
  rcases h with rfl | rfl | rfl <;>
    exact ⟨by decide +kernel, by decide +kernel, by decide +kernel, by decide +kernel, by decide +kernel,
      fun _ => by decide +kernel⟩

theorem tightIdle_chainInv (t : Turn) : ChainInv (atTurn t tightIdle) := by
  refine ⟨rfl, devTwo_wf_tight, rfl, rfl, fun c k _ => by cases c <;> rfl, ?_⟩
  show if false = true then _ else _
  rw [if_neg (by decide)]
  have h : tightIdle.cflag devTwo = 0 := by decide +kernel
  exact ⟨rfl, h⟩

theorem tightIdle_deviceInv (t : Turn) : DeviceInv (atTurn t tightIdle) :=
  ⟨Memory.wf_nil, rfl, devTwo_wf_tight, fun _ hc => nomatch hc⟩

/-- The outcomes that are next states. -/
def steps (s : State) : Bool := (nextOf (step s)).isSome

theorem steps_iff (s : State) : steps s = true ↔ ∃ t, step s = .next t := by
  unfold steps nextOf
  cases step s <;> simp

/-- Each agent's step from states of the invariant, in and outside a chain. -/
theorem witness_StepKeepsTheDevice :
    DeviceInv (chainAt atFirst .dma) ∧ steps (chainAt atFirst .dma) = true ∧ DeviceInv (atTurn (.ser .c0) tightIdle) ∧
      steps (atTurn (.ser .c0) tightIdle) = true ∧ DeviceInv State.reset ∧
      steps (issuing 0x3 [] State.reset) = true := by
  refine ⟨chainAt_deviceInv _ _, by decide +kernel, tightIdle_deviceInv _, by decide +kernel, ?_, by decide +kernel⟩
  exact ⟨Memory.wf_nil, rfl, rfl, rfl, rfl, rfl, rfl, fun c => by cases c <;> exact ⟨rfl, rfl⟩⟩

/-- Two INITs on channel 0, the second a continuation after a Gap; its serializer's turn next, a word to send. -/
def twoInits : State :=
  atTurn (.ser .c0)
    { tightIdle with
      ser0 :=
        { tightIdle.ser0 with
          fifo := [7]
          wire := [.lvl true, .gap]
          lastGap := true
          marks := [⟨devOne.ch0.cfg, 0⟩, ⟨devTwo.ch0.cfg, 2⟩] } }

theorem twoInits_markInv : MarkInv twoInits := by
  intro c
  refine ⟨⟨?_, ?_, ?_, ?_⟩, fun d k hd hc => ?_⟩
  · cases c <;> decide
  · cases c <;> decide
  · cases c <;> intro m hm <;> cases hm <;> rfl
  · cases c <;> intro hm <;> cases hm
  · cases hd
    cases c <;> cases hc <;> exact ⟨rfl, _, rfl, rfl⟩

/-- A full FIFO and a non-paced push to it; a step that lengthens a stream; the events of an earlier INIT and of the latest. -/
theorem witness_FifosStayBoundedAndStreamsGrow :
    FifoInv (pushing 16) ∧ steps (pushing 16) = true ∧ steps (shifting .c0 [7]) = true ∧ MarkInv twoInits ∧
      steps twoInits = true ∧ (twoInits.ser .c0).sections[0]? = some ⟨devOne.ch0.cfg, [.lvl true, .gap]⟩ ∧
      (twoInits.ser .c0).sections[1]? = some ⟨devTwo.ch0.cfg, []⟩ ∧ (twoInits.ser .c0).sections.length = 2 :=
  ⟨fun c => by cases c <;> decide, by decide +kernel, by decide +kernel, twoInits_markInv, by decide +kernel, rfl, rfl, rfl⟩

/-- O35's second clause: a Gap of channel 0, all of its frame pushed and sent, while channel 1's block runs; and one of channel
1 before its block, none of its frame pushed. -/
theorem witness_GapLiesBetweenFrames :
    ((chainAt (inSecond 8) (.ser .c0)).hwHealthy = true ∧ DmaInv (chainAt (inSecond 8) (.ser .c0)) ∧
        ChainInv (chainAt (inSecond 8) (.ser .c0)) ∧ (chainAt (inSecond 8) (.ser .c0)).life = .active devTwo ∧
        (chainAt (inSecond 8) (.ser .c0)).turn = .ser .c0 ∧
        (nextOf (step (chainAt (inSecond 8) (.ser .c0)))).map (fun t => t.ser0.wire) = some [.gap]) ∧
      ((chainAt atFirst (.ser .c1)).hwHealthy = true ∧ DmaInv (chainAt atFirst (.ser .c1)) ∧
        ChainInv (chainAt atFirst (.ser .c1)) ∧ (chainAt atFirst (.ser .c1)).turn = .ser .c1 ∧
        ((chainAt atFirst (.ser .c1)).unsent devTwo .c1).length = 8 ∧
        (nextOf (step (chainAt atFirst (.ser .c1)))).map (fun t => t.ser1.wire) = some [.gap]) :=
  ⟨⟨rfl, chainAt_dmaInv 8 (by decide) _, inSecond_chainInv 8 (by decide) _, rfl, rfl, by decide +kernel⟩,
    rfl, ⟨by decide, by decide, by decide, by decide, by decide, fun h => nomatch h⟩, atFirst_chainInv _, rfl,
    by decide +kernel, by decide +kernel⟩

/-- A block's transfer at its last word, and at its end. -/
theorem witness_StepKeepsTheDmaWindow :
    DmaInv (chainAt (inSecond 1) .dma) ∧ steps (chainAt (inSecond 1) .dma) = true ∧ DmaInv (chainAt (inSecond 0) .dma) ∧
      steps (chainAt (inSecond 0) .dma) = true :=
  ⟨chainAt_dmaInv 1 (by decide) _, by decide +kernel, chainAt_dmaInv 0 (by decide) _, by decide +kernel⟩

/-- Serializer 0 with the stream given, its turn next. -/
def streaming (lastGap : Bool) (wire : List WireEvent) : State :=
  atTurn (.ser .c0) ((idle devOne).setSer .c0 { (idle devOne).ser0 with lastGap := lastGap, wire := wire })

/-- A stream whose last event is a Gap, and one whose last event is a level; streams of two INITs, and the reset state before
an INIT. -/
theorem witness_NoTwoGapsInARow :
    WireInv (streaming true [.lvl true, .gap]) ∧ steps (streaming true [.lvl true, .gap]) = true ∧
      WireInv (streaming false [.gap, .lvl true]) ∧ steps (streaming false [.gap, .lvl true]) = true ∧
      MarkInv twoInits ∧ steps twoInits = true ∧ MarkInv (issuing 0x2 [18, 1, 255] (drawing goodDraw State.reset)) ∧
      steps (issuing 0x2 [18, 1, 255] (drawing goodDraw State.reset)) = true := by
  refine ⟨?_, by decide +kernel, ?_, by decide +kernel, twoInits_markInv, by decide +kernel, ?_, by decide +kernel⟩
  · intro c
    cases c <;>
      exact ⟨by decide, by simp [streaming, State.ser, atTurn, State.setSer, idle, noDoubleGap, Serializer.powerOn]⟩
  · intro c
    cases c <;>
      exact ⟨by decide, by simp [streaming, State.ser, atTurn, State.setSer, idle, noDoubleGap, Serializer.powerOn]⟩
  · intro c
    refine ⟨?_, fun d k hd => nomatch hd⟩
    cases c <;>
      exact ⟨by decide, by decide, fun m hm => (nomatch hm), fun _ => ⟨rfl, rfl⟩⟩

/-- A step between Active states. -/
theorem witness_LaunchAndConfigurationAreFixed :
    (armed devTwo).life = .active devTwo ∧ (armed devTwo).owned = true ∧
      (nextOf (step (atTurn .dma (armed devTwo)))).map (fun t => t.life) = some (.active devTwo) :=
  ⟨rfl, rfl, by decide +kernel⟩

/-- A stopped sequencer whose frame a WAIT tests, and a stalled one. -/
theorem witness_ErrorAndStallAreSticky :
    ((stopped 2).life = .active devOne ∧ (stopped 2).owned = true ∧ (stopped 2).dma.error = true ∧
        (stopped 2).dma.active = false ∧
        (nextOf (step (issuing 0x8 [] (stopped 2)))).map (fun t => t.life) = some (.active devOne)) ∧
      ((unhealthy true).life = .active devP1 ∧ (unhealthy true).owned = true ∧ (unhealthy true).dma.stalled = true ∧
        (unhealthy true).dma.active = true ∧
        (nextOf (step (unhealthy true))).map (fun t => t.life) = some (.active devP1)) :=
  ⟨⟨rfl, rfl, rfl, rfl, by decide +kernel⟩, rfl, rfl, rfl, rfl, by decide +kernel⟩

/-- On the armed chain of two channels with one-word FIFOs: the first LOAD, the first, the last word and the end of
channel 1's block, the terminal block, and a serializer's turn; and with no chain. -/
theorem witness_ArmedChainNeverErrs :
    tight.wf = true ∧
      (∀ t : Turn, DeviceInv (chainAt atFirst t) ∧ ChainInv (chainAt atFirst t)) ∧
      (∀ n ∈ [0, 1, 8], DeviceInv (chainAt (inSecond n) .dma) ∧ ChainInv (chainAt (inSecond n) .dma)) ∧
      (DeviceInv (chainAt inLast .dma) ∧ ChainInv (chainAt inLast .dma)) ∧
      (∀ s ∈ [chainAt atFirst .dma, chainAt atFirst (.ser .c1), chainAt (inSecond 8) .dma, chainAt (inSecond 1) .dma,
          chainAt (inSecond 0) .dma, chainAt inLast .dma], steps s = true) :=
  ⟨by decide, fun t => ⟨chainAt_deviceInv _ t, atFirst_chainInv t⟩,
    fun n h => ⟨chainAt_deviceInv _ _, inSecond_chainInv n h _⟩, ⟨chainAt_deviceInv _ _, inLast_chainInv _⟩,
    by decide +kernel⟩

/-- As O56, for both channels; the turns are not the host's. -/
theorem witness_FrameLevelsAreConserved :
    tight.wf = true ∧ DeviceInv (chainAt (inSecond 1) .dma) ∧ ChainInv (chainAt (inSecond 1) .dma) ∧
      (chainAt (inSecond 1) .dma).life = .active devTwo ∧ (chainAt (inSecond 1) .dma).turn ≠ .host ∧
      steps (chainAt (inSecond 1) .dma) = true :=
  ⟨by decide, chainAt_deviceInv _ _, inSecond_chainInv 1 (by decide) _, rfl, by decide, by decide +kernel⟩

/-- A RENDER with nothing in flight. -/
theorem witness_RenderAddsExactlyTheFrame :
    DeviceInv (atTurn .host tightIdle) ∧ ChainInv (atTurn .host tightIdle) ∧
      (atTurn .host tightIdle).life = .active devTwo ∧ devTwo.chan .c1 = some second ∧
      (atTurn .host tightIdle).complete devTwo = true ∧
      (nextOf (exec .render (atTurn .host tightIdle))).isSome = true :=
  ⟨tightIdle_deviceInv _, tightIdle_chainInv _, rfl, rfl, by decide +kernel, by decide +kernel⟩

/-- Beside O56 and O58, that LOAD, XFER and NEXT are each enabled at one of its states, and a chain not running. -/
theorem witness_ChainStepCounts :
    (chainAt atFirst .dma).loadEnabled = true ∧ (chainAt (inSecond 1) .dma).xferEnabled = true ∧
      (chainAt (inSecond 0) .dma).nextEnabled = true ∧ (chainAt inLast .dma).xferEnabled = true ∧
      (chainAt atFirst .dma).turn = .dma ∧ (chainAt atFirst .stall).turn = .stall ∧
      steps (chainAt atFirst .stall) = true ∧ DmaInv (chainAt (inSecond 0) .dma) ∧ DmaInv tightIdle ∧
      tightIdle.dma.active = false :=
  ⟨by decide +kernel, by decide +kernel, by decide +kernel, by decide +kernel, rfl, rfl, by decide +kernel,
    chainAt_dmaInv 0 (by decide) _, ⟨by decide, by decide, by decide, by decide, by decide, fun h => absurd h (by decide)⟩,
    rfl⟩

/-- A healthy launch with one-word FIFOs, in a frame. -/
theorem witness_HealthyWaitAlwaysProgresses :
    1 ≤ (chainAt (inSecond 8) .dma).config.fifoDepth ∧ DmaInv (chainAt (inSecond 8) .dma) ∧
      ChainInv (chainAt (inSecond 8) .dma) ∧ (chainAt (inSecond 8) .dma).hwHealthy = true ∧
      (chainAt (inSecond 8) .dma).life = .active devTwo ∧
      ¬((chainAt (inSecond 8) .dma).complete devTwo = true ∧ (chainAt (inSecond 8) .dma).drained devTwo = true) :=
  ⟨by decide, chainAt_dmaInv 8 (by decide) _, inSecond_chainInv 8 (by decide) _, rfl, rfl, by decide +kernel⟩

/-! ### A fair run -/

/-- A WAIT that holds with one word left to send on channel 0. -/
def holding : State :=
  { tightIdle with
    waiting := true
    ser0 := { tightIdle.ser0 with fifo := [7] }
    ser1 := { tightIdle.ser1 with lastGap := true }
    env := { tightIdle.env with plan := [.ser .c0, .ser .c0] } }

/-- The state after a step. -/
def following (s : State) : State := (nextOf (step s)).getD s

/-- The run from a state. -/
def runFrom (s : State) : Nat → State
  | 0 => s
  | n + 1 => following (runFrom s n)

/-- No agent has a step enabled and the host has nothing to do but a WAIT's test. -/
structure Resting (s : State) : Prop where
  life : s.life = .active devTwo
  hostq : s.env.hostq = []
  load : s.loadEnabled = false
  xfer : s.xferEnabled = false
  next : s.nextEnabled = false
  stall : s.stallEnabled = false
  shift : ∀ c, s.shiftEnabled c = false
  gap : ∀ c, s.gapEnabled c = false

theorem Resting.congr {s t : State} (h : Resting s) (w : Bool) (r : Result) (e : Env) (he : e.hostq = [])
    (ht : t = { s with waiting := w, result := r, env := e }) : Resting t := by
  subst ht
  exact ⟨h.life, he, h.load, h.xfer, h.next, h.stall, fun c => (by cases c <;> rfl : _ = s.shiftEnabled c).trans (h.shift c),
    fun c => (by cases c <;> rfl : _ = s.gapEnabled c).trans (h.gap c)⟩

theorem Resting.step {s : State} (h : Resting s) : ∃ t, step s = .next t ∧ Resting t := by
  have hq : s.dropTurn.env.hostq = [] := h.hostq
  have done : Resting s.dropTurn := h.congr s.waiting s.result s.dropTurn.env hq rfl
  cases ht : s.turn with
  | host =>
    rw [step_of_host ht]
    unfold State.hostTurn
    rw [hq]
    cases hw : s.dropTurn.waiting
    · exact ⟨_, rfl, done⟩
    · cases hr : s.dropTurn.waitResult devTwo with
      | some r =>
        refine ⟨(s.dropTurn.setWaiting false).setResult r, ?_, h.congr false r s.dropTurn.env hq rfl⟩
        exact (execWait_active (s := s.dropTurn) h.life).trans (by rw [hr])
      | none =>
        refine ⟨s.dropTurn.setWaiting true, ?_, h.congr true s.result s.dropTurn.env hq rfl⟩
        exact (execWait_active (s := s.dropTurn) h.life).trans (by rw [hr])
  | dma =>
    rw [step_of_dma ht]
    unfold State.dmaTurn
    rw [State.dropTurn_loadEnabled, State.dropTurn_xferEnabled, State.dropTurn_nextEnabled, h.load, h.xfer, h.next]
    exact ⟨_, rfl, done⟩
  | stall =>
    rw [step_of_stall ht]
    unfold State.stallTurn
    rw [State.dropTurn_stallEnabled, h.stall]
    exact ⟨_, rfl, done⟩
  | ser c =>
    rw [step_of_ser ht]
    unfold State.serTurn
    rw [State.dropTurn_shiftEnabled, State.dropTurn_gapEnabled, h.shift, h.gap]
    exact ⟨_, rfl, done⟩

theorem holding_rests : Resting (runFrom holding 2) :=
  ⟨by decide +kernel, by decide +kernel, by decide +kernel, by decide +kernel, by decide +kernel, by decide +kernel,
    fun c => by cases c <;> decide +kernel, fun c => by cases c <;> decide +kernel⟩

theorem run_rests (n : Nat) : Resting (runFrom holding (n + 2)) := by
  induction n with
  | zero => exact holding_rests
  | succ n ih =>
    obtain ⟨t, ht, hr⟩ := ih.step
    have : runFrom holding (n + 1 + 2) = t := by
      show following (runFrom holding (n + 2)) = t
      unfold following
      rw [ht]
      rfl
    rw [this]
    exact hr

theorem run_isRun : IsRun (runFrom holding) := by
  intro n
  have h : steps (runFrom holding n) = true := by
    match n with
    | 0 => decide +kernel
    | 1 => decide +kernel
    | n + 2 => exact (steps_iff _).mpr ((run_rests n).step.imp fun t ht => ht.1)
  obtain ⟨t, ht⟩ := (steps_iff _).mp h
  show step (runFrom holding n) = .next (following (runFrom holding n))
  unfold following
  rw [ht]
  rfl

theorem run_fair : WeaklyFair (runFrom holding) := by
  have never : ∀ (enabled : State → Bool) (t : Turn), (∀ s, Resting s → enabled s = false) →
      EventuallyTaken (runFrom holding) enabled t := by
    intro enabled t h n hn
    have h1 := hn (n + 2) (by omega)
    rw [h _ (run_rests n)] at h1
    cases h1
  exact ⟨never _ _ fun s h => h.load, never _ _ fun s h => h.xfer, never _ _ fun s h => h.next,
    fun c => never _ _ fun s h => h.shift c, fun c => never _ _ fun s h => h.gap c⟩

/-- A fair run in which a WAIT holds for two steps, while the last word and a Gap go out, and then has drained. -/
theorem witness_FairHealthyWaitReturnsOk :
    IsRun (runFrom holding) ∧ WeaklyFair (runFrom holding) ∧ holding.config.wf = true ∧ holding.hwHealthy = true ∧
      DeviceInv holding ∧ DmaInv holding ∧ ChainInv holding ∧ holding.life = .active devTwo ∧
      (nextOf (exec .wait holding)).map (fun t => t.waiting) = some true ∧ HeldUpTo (runFrom holding) 2 ∧
      (nextOf (exec .wait (runFrom holding 2))).map (fun t => (t.waiting, t.result.code)) = some (false, .ok) := by
  refine ⟨run_isRun, run_fair, by decide, rfl, ⟨Memory.wf_nil, rfl, devTwo_wf_tight, fun _ hc => nomatch hc⟩,
    ⟨by decide, by decide, by decide, by decide, by decide, fun h => absurd h (by decide)⟩,
    ⟨rfl, devTwo_wf_tight, rfl, rfl, fun c k _ => by cases c <;> rfl, ?_⟩, rfl, by decide +kernel, ?_, by decide +kernel⟩
  · show if false = true then _ else _
    rw [if_neg (by decide)]
    exact ⟨rfl, by decide +kernel⟩
  · intro j hj
    match j, hj with
    | 0, _ => rfl
    | 1, _ => decide +kernel
    | 2, _ => decide +kernel

end Sys2Proof.Tests
end

/-! PROOFS. The statements of 10_state.md: the registers as read and their power-on values, the host's accesses, and what
every step keeps. For the last there is one relation per part of the state, which says everything a step can do to it
(`DeviceEffect`, `DmaEffect`, beside `SerEffect` of the laws); each invariant is then kept case by case. -/

namespace Sys2Proof.Machine

/-! ### Register words as sums of their fields (10_state.md R24, R25, R31 to R41) -/

theorem bitAt_toNat (b : Bool) {k : Nat} (hk : k < 32) : (bitAt b k).toNat = if b then 2 ^ k else 0 := by
  cases b
  · rfl
  · simp only [bitAt, if_true, BitVec.toNat_shiftLeft, BitVec.toNat_ofNat, Nat.shiftLeft_eq]
    rw [show 1 % 2 ^ 32 = 1 from rfl, Nat.one_mul]
    exact Nat.mod_eq_of_lt (Nat.pow_lt_pow_right (by omega) hk)

/-- A bit above everything set in a word adds its weight. -/
theorem or_bitAt_toNat {w : Word} (b : Bool) {k : Nat} (hk : k < 32) (hw : w.toNat < 2 ^ k) :
    (w ||| bitAt b k).toNat = w.toNat + if b then 2 ^ k else 0 := by
  rw [word_or_toNat k w _ hw, bitAt_toNat b hk]
  rw [bitAt_toNat b hk]
  cases b <;> simp

/-- A word shifted by k over a word that ends below bit k, where nothing is shifted out. -/
theorem or_shiftLeft_toNat {w v : Word} {k : Nat} (hw : w.toNat < 2 ^ k) (hv : v.toNat * 2 ^ k < 2 ^ 32) :
    (w ||| v <<< k).toNat = w.toNat + v.toNat * 2 ^ k := by
  have e : (v <<< k).toNat = v.toNat * 2 ^ k := by
    rw [BitVec.toNat_shiftLeft, Nat.shiftLeft_eq]
    exact Nat.mod_eq_of_lt hv
  rw [word_or_toNat k w _ hw (by rw [e]; exact Nat.mul_mod_left _ _), e]

theorem ResultCode.code_le (c : ResultCode) : c.code ≤ 7 := by cases c <;> decide

theorem Life.code_le (l : Life) : l.code ≤ 2 := by cases l <;> simp [Life.code]

theorem State.statusWord_toNat (s : State) :
    s.statusWord.toNat =
      (if s.inflight then 2 else 0) + 4 * s.life.code + (if s.dma.int then 16 else 0) + (if s.owned then 32 else 0) := by
  have hl := s.life.code_le
  have hc : (BitVec.ofNat 32 s.life.code : Word).toNat = s.life.code := by
    rw [BitVec.toNat_ofNat]
    omega
  have hi := bitAt_toNat s.inflight (k := 1) (by omega)
  have h2 := or_shiftLeft_toNat (w := bitAt s.inflight 1) (v := BitVec.ofNat 32 s.life.code) (k := 2)
    (by rw [hi]; split <;> omega) (by rw [hc]; omega)
  rw [hi, hc] at h2
  have h4 := or_bitAt_toNat s.dma.int (k := 4) (by omega) (by rw [h2]; split <;> omega)
  rw [h2] at h4
  have h5 := or_bitAt_toNat s.owned (k := 5) (by omega) (by rw [h4]; split <;> split <;> omega)
  rw [h4] at h5
  simp only [Nat.reducePow] at h5
  unfold State.statusWord
  rw [h5]
  omega

theorem State.resultWord_toNat (s : State) :
    s.resultWord.toNat = s.result.code.code + 65536 * s.result.origin.toNat := by
  have hc : s.result.code.code < 2 ^ 16 := Nat.lt_of_le_of_lt s.result.code.code_le (by decide)
  have ho : s.result.origin.toNat * 2 ^ 16 < 2 ^ 32 := by
    have := s.result.origin.isLt
    omega
  have e1 : (BitVec.ofNat 32 s.result.code.code : Word).toNat = s.result.code.code := by
    rw [BitVec.toNat_ofNat]
    omega
  have e2 : (s.result.origin.setWidth 32).toNat = s.result.origin.toNat := by
    rw [BitVec.toNat_setWidth]
    omega
  have h := or_shiftLeft_toNat (w := BitVec.ofNat 32 s.result.code.code) (v := s.result.origin.setWidth 32) (k := 16)
    (by rw [e1]; exact hc) (by rw [e2]; exact ho)
  rw [e1, e2] at h
  unfold State.resultWord
  omega

theorem Serializer.ctlBits_toNat (x : Serializer) :
    x.ctlBits.toNat = (if x.pwen then 1 else 0) + 2 + (if x.pola then 16 else 0) + 32 := by
  unfold Serializer.ctlBits
  cases x.pwen <;> cases x.pola <;> rfl

theorem State.ctlWord_toNat (s : State) :
    s.ctlWord.toNat =
      (if s.ser0.pwen then 1 else 0) + 2 + (if s.ser0.pola then 16 else 0) + 32 +
        (if s.ser1.pwen then 256 else 0) + 512 + (if s.ser1.pola then 4096 else 0) + 8192 := by
  have bound : ∀ x : Serializer, x.ctlBits.toNat < 2 ^ 8 := by
    intro x
    rw [x.ctlBits_toNat]
    split <;> split <;> omega
  have h1 := bound s.ser1
  unfold State.ctlWord
  rw [or_shiftLeft_toNat (bound s.ser0) (by omega), s.ser0.ctlBits_toNat, s.ser1.ctlBits_toNat]
  simp only [Nat.add_mul, ite_mul, Nat.zero_mul, Nat.reducePow, Nat.reduceMul, Nat.add_assoc]

theorem Serializer.staBits_toNat (x : Serializer) (depth : Nat) :
    (x.staBits depth).toNat =
      (if x.fifo.length = depth then 1 else 0) + (if x.fifo = [] then 2 else 0) + (if x.werr then 4 else 0) +
        (if x.gapo then 16 else 0) := by
  have bits : ∀ f e w g : Bool, (bitAt f 0 ||| bitAt e 1 ||| bitAt w 2 ||| bitAt g 4).toNat =
      (if f then 1 else 0) + (if e then 2 else 0) + (if w then 4 else 0) + (if g then 16 else 0) := by decide
  unfold Serializer.staBits
  rw [bits]
  simp only [decide_eq_true_eq, List.isEmpty_iff]

theorem State.staWord_toNat (s : State) :
    s.staWord.toNat =
      (if s.ser0.fifo.length = s.config.fifoDepth then 1 else 0) + (if s.ser0.fifo = [] then 2 else 0) +
        (if s.ser0.werr then 4 else 0) + (if s.ser0.gapo then 16 else 0) +
        (if s.ser1.fifo.length = s.config.fifoDepth then 256 else 0) + (if s.ser1.fifo = [] then 512 else 0) +
        (if s.ser1.werr then 1024 else 0) + (if s.ser1.gapo then 4096 else 0) := by
  have bound : ∀ x : Serializer, (x.staBits s.config.fifoDepth).toNat < 2 ^ 8 := by
    intro x
    rw [x.staBits_toNat]
    split <;> split <;> split <;> split <;> omega
  have h1 := bound s.ser1
  unfold State.staWord
  rw [or_shiftLeft_toNat (bound s.ser0) (by omega), s.ser0.staBits_toNat, s.ser1.staBits_toNat]
  simp only [Nat.add_mul, ite_mul, Nat.zero_mul, Nat.reducePow, Nat.reduceMul, Nat.add_assoc]

theorem State.csWord_toNat (s : State) :
    s.csWord.toNat =
      (if s.dma.active then 1 else 0) + (if s.dma.ended then 2 else 0) + (if s.dma.int then 4 else 0) +
        (if s.dma.dphase ≠ .idle ∧ s.lineDreq = true then 8 else 0) + (if s.dma.error then 256 else 0) := by
  have bits : ∀ a e i q r : Bool,
      (bitAt a 0 ||| bitAt e 1 ||| bitAt i 2 ||| bitAt q 3 ||| bitAt r 8).toNat =
        (if a then 1 else 0) + (if e then 2 else 0) + (if i then 4 else 0) + (if q then 8 else 0) +
          (if r then 256 else 0) := by decide
  unfold State.csWord
  rw [bits]
  simp only [Bool.and_eq_true, decide_eq_true_eq]

/-! ### Reads of the windows at offsets that hold no register (10_state.md R48) -/

theorem pwmRead_reserved {offset : Nat} (h : offset ∉ [0x00, 0x04, 0x08, 0x10, 0x20]) (s : State) :
    pwmRead offset s = 0 := by
  unfold pwmRead
  split <;> first | rfl | exact absurd (by decide) h

theorem clkRead_reserved {offset : Nat} (h : offset ∉ [0x00, 0x04]) (s : State) : clkRead offset s = 0 := by
  unfold clkRead
  split <;> first | rfl | exact absurd (by decide) h

theorem dmaRead_reserved {offset : Nat} (h : offset ∉ [0x00, 0x04, 0x08, 0x0C, 0x10, 0x14, 0x18, 0x1C, 0x20])
    (s : State) : dmaRead offset s = 0 := by
  unfold dmaRead
  split <;> first | rfl | exact absurd (by decide) h

/-! ### Registers as read, and power-on -/

/-- Settles O37: the fields of each word lie apart, so their disjunction is their sum. -/
theorem hostRegistersAsRead : Obligations.HostRegistersAsRead := by
  unfold Obligations.HostRegistersAsRead
  intro s
  refine ⟨?_, s.resultWord_toNat, s.result.code.code_le⟩
  rw [s.statusWord_toNat, State.inflight]
  cases s.life with
  | uninitialized => rfl
  | finalized => rfl
  | active d => cases hc : s.complete d <;> simp [Life.code, hc]

/-- Settles O38: each serializer's byte, and the two bytes side by side. -/
theorem pwmRegistersAsRead : Obligations.PwmRegistersAsRead := by
  unfold Obligations.PwmRegistersAsRead
  intro s
  exact ⟨s.ctlWord_toNat, s.staWord_toNat, bitAt_toNat s.dmac (by omega), rfl, rfl,
    fun offset h => pwmRead_reserved h s⟩

theorem State.clkctlWord_toNat (s : State) : s.clkctlWord.toNat = if s.clk.enab then 16 + 128 else 0 := by
  unfold State.clkctlWord
  cases s.clk.enab <;> rfl

theorem State.clkdivWord_toNat (s : State) : s.clkdivWord.toNat = 4096 * s.clk.divi.toNat := by
  have h := s.clk.divi.isLt
  unfold State.clkdivWord
  rw [BitVec.toNat_shiftLeft, BitVec.toNat_setWidth, Nat.shiftLeft_eq]
  omega

theorem State.debugWord_toNat (s : State) : s.debugWord.toNat = s.dma.errcause.toNat := by
  have h := s.dma.errcause.isLt
  unfold State.debugWord
  rw [BitVec.toNat_setWidth]
  omega

/-- Settles O39: `lineDreq_iff` puts CS.DREQ in the numbers of R49. -/
theorem clockAndDmaRegistersAsRead : Obligations.ClockAndDmaRegistersAsRead := by
  unfold Obligations.ClockAndDmaRegistersAsRead
  intro s
  refine ⟨s.clkctlWord_toNat, s.clkdivWord_toNat, ?_, rfl, rfl, rfl, rfl, rfl, rfl, rfl, s.debugWord_toNat,
    fun offset h => dmaRead_reserved h s, fun offset h => clkRead_reserved h s⟩
  have h := s.csWord_toNat
  simp only [s.lineDreq_iff] at h
  exact h

/-- Settles O41: at power-on every register of the DMA window is 0, and so is every reserved offset. -/
theorem powerOnValues : Obligations.PowerOnValues := by
  unfold Obligations.PowerOnValues
  have serializers : ∀ c, (State.reset.ser c).fifo = [] ∧ (State.reset.ser c).lastGap = false ∧
      (State.reset.ser c).wire = [] := by
    intro c
    cases c <;> exact ⟨rfl, rfl, rfl⟩
  have window : ∀ offset, dmaRead offset State.reset = 0 := by
    intro offset
    by_cases h : offset ∈ [0x00, 0x04, 0x08, 0x0C, 0x10, 0x14, 0x18, 0x1C, 0x20]
    · revert offset
      decide
    · exact dmaRead_reserved h _
  exact ⟨rfl, rfl, rfl, rfl, rfl, rfl, rfl, rfl, rfl, rfl, serializers, rfl, rfl, window, rfl, rfl⟩

/-- Settles O42: nothing is configured, sent, pending or running at power-on. -/
theorem invariantsHoldAtReset : Obligations.InvariantsHoldAtReset := by
  unfold Obligations.InvariantsHoldAtReset
  have powerOn : ∀ c, State.reset.ser c = Serializer.powerOn := by
    intro c
    cases c <;> rfl
  have device : DeviceInv State.reset :=
    ⟨Memory.wf_nil, rfl, rfl, rfl, rfl, rfl, rfl, fun c => by rw [powerOn c]; exact ⟨rfl, rfl⟩⟩
  have fifo : FifoInv State.reset := fun c => by rw [powerOn c]; exact Nat.zero_le _
  have dma : DmaInv State.reset :=
    ⟨by decide, by decide, by decide, by decide, by decide, fun h => nomatch h⟩
  have wire : WireInv State.reset := fun c => by rw [powerOn c]; exact ⟨by decide, trivial⟩
  have mark : MarkInv State.reset := by
    intro c
    rw [powerOn c]
    exact ⟨⟨List.Pairwise.nil, fun m hm => (nomatch hm), fun m hm => (nomatch hm), fun _ => ⟨rfl, rfl⟩⟩,
      fun d k hd => nomatch hd⟩
  exact ⟨device, fifo, dma, wire, mark, rfl, rfl⟩

/-! ### The command port -/

/-- The host's turn with an access pending that no WAIT holds back is that access (10_state.md R22 to R25,
40_controller_commands.md R185). -/
theorem step_of_access {s : State} {e : HostEvent} {rest : List HostEvent} (ht : s.turn = .host)
    (hq : s.env.hostq = e :: rest) (hw : s.waiting = false ∨ e.secondThread = true) :
    step s = (s.dropTurn.dropHost.access e.access).outcome := by
  have hq' : s.dropTurn.env.hostq = e :: rest := hq
  have hw' : (s.dropTurn.waiting && !e.secondThread) = false := by
    rcases hw with h | h <;> simp [h]
  rw [step_of_host ht]
  simp only [State.hostTurn, hq', hw', Bool.false_eq_true, if_false]

theorem State.access_argq (s : State) (v : Word) :
    s.access (.write 0x04#32 v) = .done { s with argq := s.argq ++ [v] } := rfl

theorem State.access_ignored (s : State) {offset : Word} (v : Word) (h0 : offset ≠ 0x00#32) (h4 : offset ≠ 0x04#32) :
    s.access (.write offset v) = .done s := by
  simp only [State.access, h0, h4, if_false]

theorem State.access_read (s : State) (offset : Word) :
    s.access (.read offset) = .done (s.setRdata (hifRead offset s)) := rfl

/-- Settles O9: the pending access is the whole step, and a read writes the inputs' record alone. -/
theorem hostPortAccesses : Obligations.HostPortAccesses := by
  unfold Obligations.HostPortAccesses
  intro s e rest ht hq hw
  have hstep := step_of_access ht hq hw
  refine ⟨fun v he => ?_, fun offset v he h0 h4 => ?_, fun offset he => ?_⟩
  · rw [hstep, he, State.access_argq]
    rfl
  · rw [hstep, he, State.access_ignored _ v h0 h4]
    rfl
  · rw [he, State.access_read] at hstep
    refine ⟨_, hstep, ⟨fun c => by simp, rfl, rfl, rfl⟩, fun a => rfl, ⟨rfl, rfl⟩, rfl, rfl, rfl, ?_, ?_, ?_⟩
    · rintro rfl
      rfl
    · rintro rfl
      rfl
    · intro h8 hC
      show hifRead offset s = 0
      simp only [hifRead, h8, hC, if_false]
      rfl

/-! ### No turn of an agent touches the launch, the device or a stream's marks -/

/-- What only a host command changes: the launch, the device and its ownership, the clock, data requests and a WAIT, and
each serializer's enable, polarity and marks. -/
structure AgentFrame (s t : State) : Prop where
  config : t.config = s.config
  hwHealthy : t.hwHealthy = s.hwHealthy
  life : t.life = s.life
  owned : t.owned = s.owned
  waiting : t.waiting = s.waiting
  dmac : t.dmac = s.dmac
  clk : t.clk = s.clk
  ser : ∀ c, (t.ser c).pwen = (s.ser c).pwen ∧ (t.ser c).pola = (s.ser c).pola ∧ (t.ser c).marks = (s.ser c).marks

section

variable {s t : State}

theorem AgentFrame.trans {u : State} (h : AgentFrame s t) (g : AgentFrame t u) : AgentFrame s u where
  config := g.config.trans h.config
  hwHealthy := g.hwHealthy.trans h.hwHealthy
  life := g.life.trans h.life
  owned := g.owned.trans h.owned
  waiting := g.waiting.trans h.waiting
  dmac := g.dmac.trans h.dmac
  clk := g.clk.trans h.clk
  ser := fun c =>
    ⟨(g.ser c).1.trans (h.ser c).1, (g.ser c).2.1.trans (h.ser c).2.1, (g.ser c).2.2.trans (h.ser c).2.2⟩

theorem AgentFrame.inputs (s : State) (a : List Word) (e : Env) : AgentFrame s { s with argq := a, env := e } :=
  ⟨rfl, rfl, rfl, rfl, rfl, rfl, rfl, fun c => by cases c <;> exact ⟨rfl, rfl, rfl⟩⟩

theorem AgentFrame.dropTurn (s : State) : AgentFrame s s.dropTurn := .inputs s s.argq _

theorem AgentFrame.setDma (s : State) (y : Dma) : AgentFrame s (s.setDma y) :=
  ⟨rfl, rfl, rfl, rfl, rfl, rfl, rfl, fun c => by cases c <;> exact ⟨rfl, rfl, rfl⟩⟩

theorem AgentFrame.setMem (s : State) (m : Memory) : AgentFrame s (s.setMem m) :=
  ⟨rfl, rfl, rfl, rfl, rfl, rfl, rfl, fun c => by cases c <;> exact ⟨rfl, rfl, rfl⟩⟩

theorem AgentFrame.setSer (s : State) (c : Chan) {x : Serializer} (hp : x.pwen = (s.ser c).pwen)
    (hq : x.pola = (s.ser c).pola) (hm : x.marks = (s.ser c).marks) : AgentFrame s (s.setSer c x) where
  config := by simp
  hwHealthy := by simp
  life := by simp
  owned := by simp
  waiting := by simp
  dmac := by simp
  clk := by simp
  ser := by
    intro e
    by_cases h : e = c
    · subst h
      rw [State.setSer_ser_same]
      exact ⟨hp, hq, hm⟩
    · rw [State.setSer_ser_ne _ _ h]
      exact ⟨rfl, rfl, rfl⟩

theorem AgentFrame.deliver (s : State) (v : Word) : AgentFrame s (s.deliver v) := by
  rcases State.deliver_cases s v with ⟨c, -, h⟩ | ⟨-, -, h⟩ <;> rw [h]
  · rcases State.pushFifo_cases s c v with ⟨-, h'⟩ | ⟨-, h'⟩ <;> rw [h'] <;> exact .setSer s c rfl rfl rfl
  · exact .setMem s _

theorem AgentFrame.xfer (s : State) : AgentFrame s s.xfer := by
  rcases State.xfer_cases s with ⟨-, h⟩ | ⟨-, -, h⟩ <;> rw [h]
  · exact .setDma s _
  · exact (AgentFrame.deliver s _).trans (.setDma _ _)

theorem AgentFrame.serTurn (s : State) (c : Chan) : AgentFrame s (s.serTurn c) := by
  rcases State.serTurn_cases s c with ⟨w, rest, -, -, h⟩ | ⟨-, -, -, -, h⟩ | ⟨-, -, h⟩ <;> rw [h]
  · exact .setSer s c rfl rfl rfl
  · exact .setSer s c rfl rfl rfl
  · exact .inputs s s.argq s.env

theorem AgentFrame.nextBlock (s : State) : AgentFrame s s.nextBlock := by
  unfold State.nextBlock
  split <;> exact .setDma s _

/-- A LOAD changes the DMA window only (42_dma_sequencer.md R277). -/
theorem execCb_setDma {b : ControlBlock} (h : execCb b s = .next t) : ∃ y, t = s.setDma y := by
  rcases execCb_cases b s with ⟨-, h'⟩ | ⟨-, cause, -, h'⟩ <;> rw [h'] at h <;> cases h <;> exact ⟨_, rfl⟩

theorem State.loadIllegal_setDma (s : State) (ws : List Word) : ∃ y, s.loadIllegal ws = s.setDma y := by
  unfold State.loadIllegal
  split
  · exact ⟨_, rfl⟩
  · exact ⟨s.dma, rfl⟩

/-- A step is a host command's effect, or has the frame of the other turns. -/
theorem step_command_or_frame (h : step s = .next t) :
    (∃ a e i, (s.waiting = true → i = .wait) ∧ CommandEffect { s with argq := a, env := e } i t) ∨ AgentFrame s t := by
  cases step_effect h with
  | inputs a e => exact .inr (.inputs s a e)
  | command a e i _ hi hw hx => exact .inl ⟨a, e, i, hw, exec_command_effect hi hx⟩
  | loadStop => exact .inr ((AgentFrame.dropTurn s).trans (.setDma _ _))
  | loadIllegal ws =>
    obtain ⟨y, e⟩ := s.dropTurn.loadIllegal_setDma ws
    exact .inr (e ▸ (AgentFrame.dropTurn s).trans (.setDma _ _))
  | load ws b _ _ _ _ hx =>
    obtain ⟨y, rfl⟩ := execCb_setDma hx
    exact .inr ((AgentFrame.dropTurn s).trans (.setDma _ _))
  | xfer => exact .inr ((AgentFrame.dropTurn s).trans (.xfer _))
  | next => exact .inr ((AgentFrame.dropTurn s).trans (.nextBlock _))
  | stall => exact .inr ((AgentFrame.dropTurn s).trans (.setDma _ _))
  | ser c => exact .inr ((AgentFrame.dropTurn s).trans (.serTurn _ c))

/-! ### The launch (10_state.md R46) -/

theorem CommandEffect.launch {i : Instr} (h : CommandEffect s i t) :
    t.config = s.config ∧ t.hwHealthy = s.hwHealthy := by
  cases h with
  | init _ rs q base => rw [State.commit_programHardware_eq]; exact ⟨rfl, rfl⟩
  | fini d => rw [State.release_eq]; exact ⟨rfl, rfl⟩
  | render d => exact ⟨State.arm_config s d, State.arm_hwHealthy s d⟩
  | clear d ch k => exact ⟨State.arm_config _ _, State.arm_hwHealthy _ _⟩
  | _ => exact ⟨rfl, rfl⟩

theorem step_launch (h : step s = .next t) : t.config = s.config ∧ t.hwHealthy = s.hwHealthy := by
  rcases step_command_or_frame h with ⟨a, e, i, -, hc⟩ | hf
  · exact hc.launch
  · exact ⟨hf.config, hf.hwHealthy⟩

/-! ### The device (10_state.md R26 to R29) -/

/-- What a step can do to the device, with what it does to the streams' polarity and marks beside it. -/
inductive DeviceEffect (s t : State) : Prop where
  /-- Nothing. -/
  | kept (hl : t.life = s.life) (ho : t.owned = s.owned)
      (hs : ∀ c, (t.ser c).pola = (s.ser c).pola ∧ (t.ser c).marks = (s.ser c).marks)
  /-- SETPIXEL, SETBITMAP or CLEAR writes a buffer. -/
  | buffered (d : Device) (c : Chan) (p : List Word) (hl : s.life = .active d) (ht : t.life = .active (d.setPix c p))
      (hs : ∀ c, (t.ser c).pola = (s.ser c).pola ∧ (t.ser c).marks = (s.ser c).marks)
  /-- INIT commits a device. -/
  | committed (q : InitPlan) (base : Word) (ho : s.owned = false) (ht : t.life = .active (q.device base))
      (hs : ∀ c, t.ser c = q.serializer c (s.ser c))
  /-- FINI. -/
  | released (ht : t.life = .finalized)

theorem CommandEffect.device {i : Instr} (h : CommandEffect s i t) : DeviceEffect s t := by
  have same : ∀ c, (s.ser c).pola = (s.ser c).pola ∧ (s.ser c).marks = (s.ser c).marks := fun _ => ⟨rfl, rfl⟩
  cases h with
  | result _ r => exact .kept rfl rfl same
  | drawn _ r => exact .kept rfl rfl same
  | init _ rs q base hq ho hb =>
    rw [State.commit_programHardware_eq]
    exact .committed q base ho rfl (fun c => by cases c <;> rfl)
  | fini d hl =>
    rw [State.release_eq]
    exact .released rfl
  | pix _ d ch k p hl hk hp => exact .buffered d ch p hl rfl same
  | render d hl hc =>
    exact .kept (State.arm_life s d) (State.arm_owned s d) (fun c => by simp [State.report])
  | clear d ch k hl hk hc =>
    exact .buffered d ch _ hl (State.arm_life _ _) (fun c => by simp [State.report]; exact same c)
  | cleared d ch k hl hk hc => exact .buffered d ch _ hl rfl same
  | waited d r hl hr => exact .kept rfl rfl same
  | holds d hl hr => exact .kept rfl rfl same

theorem step_device_effect (h : step s = .next t) : DeviceEffect s t := by
  rcases step_command_or_frame h with ⟨a, e, i, -, hc⟩ | hf
  · cases hc.device with
    | kept hl ho hs => exact .kept hl ho hs
    | buffered d c p hl ht hs => exact .buffered d c p hl ht hs
    | committed q base ho ht hs => exact .committed q base ho ht hs
    | released ht => exact .released ht
  · exact .kept hf.life hf.owned (fun c => (hf.ser c).2)

/-- Writing a buffer leaves every channel its configuration and frame length. -/
theorem Device.chan_setPix_some {d : Device} {c e : Chan} {k : Channel} (p : List Word) (h : d.chan e = some k) :
    ∃ k', (d.setPix c p).chan e = some k' ∧ k'.cfg = k.cfg ∧ k'.words = k.words := by
  rw [Device.setPix_chan]
  split
  · rename_i he
    subst he
    exact ⟨{ k with pix := p }, by rw [h]; rfl, rfl, rfl⟩
  · exact ⟨k, h, rfl, rfl⟩

/-- Settles O53: only INIT and FINI change more of the device than a buffer, INIT needs OWNED = false and FINI leaves the
device. -/
theorem launchAndConfigurationAreFixed : Obligations.LaunchAndConfigurationAreFixed := by
  unfold Obligations.LaunchAndConfigurationAreFixed
  intro s t h
  obtain ⟨hconfig, hhealthy⟩ := step_launch h
  refine ⟨hconfig, hhealthy, fun d e hd ho he => ?_⟩
  cases step_device_effect h with
  | kept hl =>
    rw [hl, hd] at he
    cases he
    exact ⟨rfl, rfl, rfl, rfl, fun c k hk => ⟨k, hk, rfl, rfl⟩⟩
  | buffered d' c p hl ht =>
    rw [hd] at hl
    cases hl
    rw [ht] at he
    cases he
    exact ⟨by simp, by simp, by simp, by simp, fun c k hk => Device.chan_setPix_some p hk⟩
  | committed q base ho' =>
    rw [ho] at ho'
    cases ho'
  | released ht =>
    rw [ht] at he
    cases he

end

/-! ### One serializer's step: its FIFO, its stream and its marks -/

section

variable {depth : Nat} {x y : Serializer}

theorem SerEffect.fifo_le (h : SerEffect depth x y) (hx : x.fifo.length ≤ depth) : y.fifo.length ≤ depth := by
  cases h with
  | same => exact hx
  | configured k => exact Nat.zero_le _
  | disabled w g => exact Nat.zero_le _
  | push v hl =>
    rw [List.length_append, List.length_singleton]
    exact hl
  | drop hl => exact hx
  | shift w rest hp hf =>
    rw [hf] at hx
    exact Nat.le_of_succ_le hx
  | gap hp hf hg => exact hx

theorem SerEffect.wire_prefix (h : SerEffect depth x y) : x.wire <+: y.wire := by
  cases h with
  | shift w rest hp hf => exact List.prefix_append _ _
  | gap hp hf hg => exact List.prefix_append _ _
  | _ => exact List.prefix_rfl

/-- Each section keeps its place and its configuration and at most grows; all but the latest stay as they are
(43_pwm_serializer.md R308). -/
def SectionsGrow (before after : List Section) : Prop :=
  ∀ i e, before[i]? = some e →
    ∃ f, after[i]? = some f ∧ f.cfg = e.cfg ∧ e.events <+: f.events ∧ (i + 1 < before.length → f = e)

theorem SectionsGrow.refl (l : List Section) : SectionsGrow l l :=
  fun _ e he => ⟨e, he, rfl, List.prefix_rfl, fun _ => rfl⟩

/-- A section more leaves the others alone. -/
theorem SectionsGrow.concat (l : List Section) (e : Section) : SectionsGrow l (l ++ [e]) := by
  intro i f hf
  obtain ⟨hi, -⟩ := List.getElem?_eq_some_iff.mp hf
  exact ⟨f, by rw [List.getElem?_append_left hi, hf], rfl, List.prefix_rfl, fun _ => rfl⟩

/-- Events more of the latest section leave the others alone. -/
theorem SectionsGrow.last (l : List Section) (k : ChannelConfig) (evs new : List WireEvent) :
    SectionsGrow (l ++ [⟨k, evs⟩]) (l ++ [⟨k, evs ++ new⟩]) := by
  intro i e he
  by_cases hi : i < l.length
  · rw [List.getElem?_append_left hi] at he ⊢
    exact ⟨e, he, rfl, List.prefix_rfl, fun _ => rfl⟩
  · have hlen : i < (l ++ [⟨k, evs⟩] : List Section).length := (List.getElem?_eq_some_iff.mp he).1
    rw [List.length_append, List.length_singleton] at hlen
    obtain rfl : i = l.length := by omega
    rw [List.getElem?_concat_length] at he ⊢
    cases he
    refine ⟨_, rfl, rfl, List.prefix_append _ _, fun h => ?_⟩
    rw [List.length_append, List.length_singleton] at h
    exact absurd h (Nat.lt_irrefl _)

theorem Serializer.Marked.sectionsGrow_of_append (hx : x.Marked) (hp : x.pwen = true) (hm : y.marks = x.marks)
    {l : List WireEvent} (hw : y.wire = x.wire ++ l) : SectionsGrow x.sections y.sections := by
  have hl := List.getLast?_eq_some_getLast (hx.ne_nil hp)
  obtain ⟨before, evs, h1, h2⟩ := hx.sections_append hl hm hw
  rw [h1, h2]
  exact .last before _ evs l

/-- A step keeps every earlier INIT's events and only adds to the latest's (43_pwm_serializer.md R308). -/
theorem SerEffect.sectionsGrow (h : SerEffect depth x y) (hx : x.Marked) : SectionsGrow x.sections y.sections := by
  cases h with
  | configured k =>
    have e := sectionsFrom_concat x.wire k x.marks hx.inside
    unfold Serializer.sections
    rw [e]
    exact .concat _ _
  | shift w rest hp hf => exact hx.sectionsGrow_of_append hp rfl rfl
  | gap hp hf hg => exact hx.sectionsGrow_of_append hp rfl rfl
  | _ => exact .refl _

/-- Settles O52, serializer by serializer. -/
theorem fifosStayBoundedAndStreamsGrow : Obligations.FifosStayBoundedAndStreamsGrow := by
  unfold Obligations.FifosStayBoundedAndStreamsGrow
  intro s t h
  refine ⟨fun hf c => ?_, fun c => (step_ser_effect h c).wire_prefix,
    fun hm c => (step_ser_effect h c).sectionsGrow (hm c).1⟩
  rw [(step_launch h).1]
  exact (step_ser_effect h c).fifo_le (hf c)

/-! ### Gaps (10_state.md R44, 43_pwm_serializer.md R306) -/

/-- Not both events of a pair are Gaps. -/
def NotBothGaps (a b : WireEvent) : Prop := ¬(a = .gap ∧ b = .gap)

/-- No two Gaps stand in a row exactly when no two neighbours are both Gaps. -/
theorem noDoubleGap_iff_isChain (w : List WireEvent) : noDoubleGap w ↔ w.IsChain NotBothGaps := by
  induction w with
  | nil => exact ⟨fun _ => .nil, fun _ => trivial⟩
  | cons a w ih =>
    cases w with
    | nil => exact ⟨fun _ => .singleton a, fun _ => by cases a <;> trivial⟩
    | cons b w =>
      rw [List.isChain_cons_cons, ← ih]
      cases a <;> cases b <;> simp [noDoubleGap, NotBothGaps]

theorem wordLevels_ne_gap {w : Word} {pola : Bool} {e : WireEvent} (h : e ∈ wordLevels w pola) : e ≠ .gap := by
  obtain ⟨k, -, rfl⟩ := List.mem_map.mp h
  exact WireEvent.noConfusion

theorem wordLevels_getLast? (w : Word) (pola : Bool) :
    (wordLevels w pola).getLast? = some (.lvl (w.getLsbD 0 ^^ pola)) := rfl

theorem noDoubleGap_append_wordLevels {l : List WireEvent} (h : noDoubleGap l) (w : Word) (pola : Bool) :
    noDoubleGap (l ++ wordLevels w pola) := by
  rw [noDoubleGap_iff_isChain] at h ⊢
  have levels : (wordLevels w pola).Pairwise NotBothGaps :=
    List.pairwise_of_forall_mem_list fun a ha b _ hg => wordLevels_ne_gap ha hg.1
  exact h.append levels.isChain fun a _ b hb hg => wordLevels_ne_gap (List.mem_of_mem_head? hb) hg.2

theorem noDoubleGap_append_gap {l : List WireEvent} (h : noDoubleGap l) (hl : l.getLast? ≠ some .gap) :
    noDoubleGap (l ++ [.gap]) := by
  rw [noDoubleGap_iff_isChain] at h ⊢
  refine h.append (.singleton _) fun a ha b _ hg => hl ?_
  rw [← hg.1]
  exact ha

/-- LASTGAP says whether the stream's last event is a Gap, and no two stand in a row. -/
def Serializer.GapsRecorded (x : Serializer) : Prop :=
  (x.lastGap = true ↔ x.wire.getLast? = some .gap) ∧ noDoubleGap x.wire

theorem SerEffect.gapsRecorded (h : SerEffect depth x y) (hx : x.GapsRecorded) : y.GapsRecorded := by
  obtain ⟨hlast, hno⟩ := hx
  cases h with
  | shift w rest hp hf =>
    refine ⟨?_, noDoubleGap_append_wordLevels hno w x.pola⟩
    rw [List.getLast?_append, wordLevels_getLast?]
    simp
  | gap hp hf hg =>
    refine ⟨by simp, noDoubleGap_append_gap hno fun h => ?_⟩
    rw [hlast.mpr h] at hg
    cases hg
  | _ => exact ⟨hlast, hno⟩

/-! ### Marks (43_pwm_serializer.md R307, R308) -/

/-- INIT gives a channel's serializer its polarity and a mark with its configuration (40_controller_commands.md R169). -/
theorem InitPlan.serializer_configured {q : InitPlan} {base : Word} {c : Chan} {k : Channel}
    (h : (q.device base).chan c = some k) (x : Serializer) :
    (q.serializer c x).pola = k.cfg.invert ∧ ∃ m, (q.serializer c x).marks.getLast? = some m ∧ m.cfg = k.cfg := by
  cases c with
  | c0 =>
    obtain rfl := Option.some.inj h
    exact ⟨rfl, _, List.getLast?_concat, rfl⟩
  | c1 =>
    obtain ⟨k1, h1, rfl⟩ := Option.map_eq_some_iff.mp h
    simp only [InitPlan.serializer, h1]
    exact ⟨rfl, _, List.getLast?_concat, rfl⟩

/-- Every step keeps the streams marked. -/
theorem step_markInv {s t : State} (hs : MarkInv s) (h : step s = .next t) : MarkInv t := by
  intro c
  refine ⟨(step_ser_effect h c).marked (hs c).1, fun e k he hk => ?_⟩
  cases step_device_effect h with
  | kept hl ho hser =>
    rw [(hser c).1, (hser c).2]
    exact (hs c).2 e k (hl ▸ he) hk
  | buffered d ch p hl ht hser =>
    rw [ht] at he
    cases he
    obtain ⟨k0, hk0, hcfg, -⟩ := Device.setPix_chan_some hk
    rw [(hser c).1, (hser c).2, ← hcfg]
    exact (hs c).2 d k0 hl hk0
  | committed q base ho ht hser =>
    rw [ht] at he
    cases he
    rw [hser c]
    exact InitPlan.serializer_configured hk _
  | released ht =>
    rw [ht] at he
    cases he

/-- Settles O51: a Gap is recorded only while LASTGAP is 0, and an enabled serializer has a mark. -/
theorem noTwoGapsInARow : Obligations.NoTwoGapsInARow := by
  unfold Obligations.NoTwoGapsInARow
  exact ⟨fun s t hs h c => (step_ser_effect h c).gapsRecorded (hs c), fun s t hs h => step_markInv hs h,
    fun s c hs => (hs c).1.sections_flatMap⟩

end

/-! ### What a step can do to the DMA window -/

/-- Everything a step can make of the DMA window x, on a launch that is healthy or not. -/
inductive DmaEffect (healthy : Bool) (x : Dma) : Dma → Prop where
  | same : DmaEffect healthy x x
  /-- INIT or FINI. -/
  | cleared : DmaEffect healthy x Dma.cleared
  /-- ARM (42_dma_sequencer.md R262). -/
  | armed (base : Word) (ha : x.active = false) (he : x.error = false) :
      DmaEffect healthy x
        { x with active := true, ended := false, int := false, conblkAd := base, dphase := .load }
  /-- ARM of a stopped sequencer, which does not start (R276). -/
  | armedStopped (base : Word) (ha : x.active = false) (he : x.error = true) :
      DmaEffect healthy x { x with ended := false, int := false, conblkAd := base }
  /-- LOAD or XFER stops; the registers are as they were or as LOAD read them (R277, R278, R284). -/
  | stopped (cause : BitVec 3) (ti src dst len stride nextcb : Word) (hc : cause ∈ [1#3, 2#3, 3#3, 4#3])
      (ha : x.active = true) (hs : x.stalled = false) :
      DmaEffect healthy x
        (Dma.stoppedWith
          { x with
            ti := ti, sourceAd := src, destAd := dst, txfrLen := len, stride := stride, nextConbk := nextcb }
          cause)
  /-- LOAD (R277). -/
  | loaded (b : ControlBlock) (hb : b.wellFormed = true) (ha : x.active = true) (hs : x.stalled = false)
      (hp : x.dphase = .load) :
      DmaEffect healthy x
        { x with
          ti := b.ti.toWord, sourceAd := b.sourceAd, destAd := b.destAd, txfrLen := b.txfrLen, stride := b.stride,
          nextConbk := b.nextConbk, dphase := .xfer }
  /-- XFER moves a word (R279). -/
  | moved (ha : x.active = true) (hs : x.stalled = false) (hp : x.dphase = .xfer) (hl : x.txfrLen ≠ 0) :
      DmaEffect healthy x x.advance
  /-- NEXT at the chain's end (R281). -/
  | ended (ha : x.active = true) (hs : x.stalled = false) (hp : x.dphase = .xfer) (hl : x.txfrLen = 0)
      (hn : x.nextConbk = 0) :
      DmaEffect healthy x
        { x with
          int := x.int || (TransferInfo.ofWord x.ti).inten, active := false, ended := true, dphase := .idle }
  /-- NEXT to another block (R281). -/
  | followed (ha : x.active = true) (hs : x.stalled = false) (hp : x.dphase = .xfer) (hl : x.txfrLen = 0)
      (hn : x.nextConbk ≠ 0) :
      DmaEffect healthy x
        { x with int := x.int || (TransferInfo.ofWord x.ti).inten, conblkAd := x.nextConbk, dphase := .load }
  /-- STALL (R283). -/
  | stalled (ha : x.active = true) (hs : x.stalled = false) (hh : healthy = false) :
      DmaEffect healthy x { x with stalled := true }

section

variable {s t : State} {healthy : Bool}

theorem DmaEffect.of_eq {x y : Dma} (e : y = x) : DmaEffect healthy x y := e ▸ .same

theorem State.arm_dmaEffect (s : State) (d : Device) (ha : s.dma.active = false) :
    DmaEffect healthy s.dma (s.arm d).dma := by
  cases he : s.dma.error
  · rw [State.arm_eq s d ha he]
    exact .armed d.rbase ha he
  · have e : (s.arm d).dma = { s.dma with ended := false, int := false, conblkAd := d.rbase } := by
      unfold State.arm
      rw [State.writeCs_eq, State.writeConblkAd_eq, State.writeCs_eq, State.setMem_eq]
      simp only [Dma.writeCs_endInt, ha, Bool.false_eq_true, if_false]
      exact Dma.writeCs_active_error _ he
    rw [e]
    exact .armedStopped d.rbase ha he

theorem CommandEffect.dma {i : Instr} (h : CommandEffect s i t) : DmaEffect healthy s.dma t.dma := by
  cases h with
  | init _ rs q base hq ho hb =>
    rw [State.commit_programHardware_eq]
    exact .cleared
  | fini d hl =>
    rw [State.release_eq]
    exact .cleared
  | render d hl hc => exact s.arm_dmaEffect d ((State.complete_iff s d).mp hc).2
  | clear d ch k hl hk hc =>
    exact State.arm_dmaEffect { s with life := .active (d.setPix ch (List.replicate k.cfg.count 0)) } _
      ((State.complete_iff s d).mp hc).2
  | _ => exact .same

/-- XFER moves a word or stops (42_dma_sequencer.md R279, R284). -/
theorem State.xfer_dmaEffect (s : State) (hx : s.xferEnabled = true) : DmaEffect healthy s.dma s.xfer.dma := by
  obtain ⟨ha, hs, hp, hl, -⟩ := (State.xferEnabled_iff s).mp hx
  rcases State.xfer_cases s with ⟨-, h⟩ | ⟨-, -, h⟩ <;> rw [h]
  · exact .stopped 2 _ _ _ _ _ _ (by decide) ha hs
  · exact .moved ha hs hp hl

theorem State.nextBlock_dmaEffect (s : State) (hn : s.nextEnabled = true) :
    DmaEffect healthy s.dma s.nextBlock.dma := by
  obtain ⟨ha, hs, hp, hl⟩ := (State.nextEnabled_iff s).mp hn
  unfold State.nextBlock
  split
  · exact .ended ha hs hp hl (by assumption)
  · exact .followed ha hs hp hl (by assumption)

theorem execCb_dmaEffect {b : ControlBlock} (hl : s.loadEnabled = true) (h : execCb b s = .next t) :
    DmaEffect healthy s.dma t.dma := by
  obtain ⟨ha, hs, hp⟩ := (State.loadEnabled_iff s).mp hl
  rcases execCb_cases b s with ⟨hb, h'⟩ | ⟨-, cause, hc, h'⟩ <;> rw [h'] at h <;> cases h
  · exact .loaded b hb ha hs hp
  · exact .stopped cause _ _ _ _ _ _ (by rcases hc with rfl | rfl <;> decide) ha hs

theorem State.stallEnabled_iff (s : State) :
    s.stallEnabled = true ↔ s.dma.active = true ∧ s.dma.stalled = false ∧ s.hwHealthy = false := by
  simp [State.stallEnabled, State.dmaLive, and_assoc]

theorem State.serTurn_dma (s : State) (c : Chan) : (s.serTurn c).dma = s.dma := by
  rcases State.serTurn_cases s c with ⟨w, rest, -, -, h⟩ | ⟨-, -, -, -, h⟩ | ⟨-, -, h⟩ <;> rw [h] <;> simp

/-- What a step has done to the DMA window. -/
theorem step_dma_effect (h : step s = .next t) : DmaEffect s.hwHealthy s.dma t.dma := by
  cases step_effect h with
  | inputs a e => exact .same
  | command a e i _ hi hw hx => exact (exec_command_effect hi hx).dma
  | loadStop cause hl hf =>
    obtain ⟨ha, hs, -⟩ := (State.loadEnabled_iff s).mp hl
    exact .stopped cause _ _ _ _ _ _ (by rcases State.fetchBlock_error hf with rfl | rfl <;> decide) ha hs
  | loadIllegal ws hl hf =>
    obtain ⟨ha, hs, -⟩ := (State.loadEnabled_iff s).mp hl
    obtain ⟨-, -, rfl⟩ := State.fetchBlock_ok hf
    exact .stopped 3 _ _ _ _ _ _ (by decide) ha hs
  | load ws b _ hl hf hd hx => exact execCb_dmaEffect (s := s.dropTurn) hl hx
  | xfer hx => exact s.dropTurn.xfer_dmaEffect hx
  | next hn => exact s.dropTurn.nextBlock_dmaEffect hn
  | stall hs =>
    obtain ⟨ha, hst, hh⟩ := (State.stallEnabled_iff s).mp hs
    exact .stalled ha hst hh
  | ser c => exact .of_eq (s.dropTurn.serTurn_dma c)

/-! ### The DMA window's invariant -/

/-- The invariant reads the DMA window and the launch only. -/
theorem DmaInv.congr (h : DmaInv s) (hd : t.dma = s.dma) (hh : t.hwHealthy = s.hwHealthy) : DmaInv t where
  phase := by rw [hd]; exact h.phase
  error := by rw [hd]; exact h.error
  cause := by rw [hd]; exact h.cause
  causeRange := by rw [hd]; exact h.causeRange
  stalled := by rw [hd, hh]; exact h.stalled
  loaded := by unfold State.info; rw [hd]; exact h.loaded

theorem sub_four_aligned {w : Word} (h : w.toNat % 4 = 0) : (w - 4#32).toNat % 4 = 0 := by
  rw [BitVec.toNat_sub]
  simp only [BitVec.toNat_ofNat]
  omega

theorem add_four_aligned {w : Word} (h : w.toNat % 4 = 0) : (w + 4#32).toNat % 4 = 0 := by
  rw [BitVec.toNat_add]
  simp only [BitVec.toNat_ofNat]
  omega

/-- A valid block passes LOAD's two groups of checks (30_encoding.md R122, 42_dma_sequencer.md R278). -/
theorem controlBlock_wellFormed_iff (b : ControlBlock) :
    b.wellFormed = true ↔ tiOk b.ti = true ∧ lengthsOk b = true := by
  have e : b.wellFormed = (tiOk b.ti && lengthsOk b) := by
    simp only [ControlBlock.wellFormed, TransferInfo.wellFormed, tiOk, lengthsOk, Bool.and_assoc]
    rfl
  rw [e, Bool.and_eq_true]

/-- In every phase but Xfer the current block is free. -/
theorem DmaInv.of_not_xfer (hp : s.dma.active = true ↔ s.dma.dphase ≠ .idle)
    (he : s.dma.error = true → s.dma.active = false) (hc : s.dma.error = true ↔ s.dma.errcause ≠ 0)
    (hr : s.dma.errcause.toNat ≤ 4) (hs : s.dma.stalled = true → s.dma.active = true ∧ s.hwHealthy = false)
    (hx : s.dma.dphase ≠ .xfer) : DmaInv s :=
  ⟨hp, he, hc, hr, hs, fun h => absurd h hx⟩

/-- Every step of the DMA window keeps its invariant. -/
theorem DmaEffect.inv {y : Dma} (h : DmaEffect s.hwHealthy s.dma y) (hs : DmaInv s) : DmaInv (s.setDma y) := by
  have notStalled : s.dma.active = false → s.dma.stalled ≠ true := by
    intro ha hst
    rw [(hs.stalled hst).1] at ha
    cases ha
  cases h with
  | same => exact hs
  | cleared =>
    exact .of_not_xfer (by decide : Dma.cleared.active = true ↔ Dma.cleared.dphase ≠ .idle) (fun _ => rfl)
      (by decide : Dma.cleared.error = true ↔ Dma.cleared.errcause ≠ 0) (Nat.zero_le 4) (fun h => nomatch h)
      (fun h => nomatch h)
  | armed base ha he =>
    refine .of_not_xfer ⟨fun _ => DPhase.noConfusion, fun _ => rfl⟩ (fun h => ?_) hs.cause hs.causeRange
      (fun h => absurd h (notStalled ha)) DPhase.noConfusion
    exact absurd (he.symm.trans h) Bool.false_ne_true
  | armedStopped base ha he => exact ⟨hs.phase, hs.error, hs.cause, hs.causeRange, hs.stalled, hs.loaded⟩
  | stopped cause ti src dst len stride nextcb hc ha hst =>
    have range : ∀ c ∈ [1#3, 2#3, 3#3, 4#3], c ≠ 0 ∧ c.toNat ≤ 4 := by decide
    obtain ⟨hc0, hc4⟩ := range cause hc
    exact .of_not_xfer ⟨fun h => (nomatch h), fun h => absurd rfl h⟩ (fun _ => rfl) ⟨fun _ => hc0, fun _ => rfl⟩ hc4
      (fun h => absurd (hst.symm.trans h) Bool.false_ne_true) (fun h => nomatch h)
  | loaded b hb ha hst hp =>
    obtain ⟨hti, hlen⟩ := (controlBlock_wellFormed_iff b).mp hb
    obtain ⟨-, hlen4, hstride, hsrc, hdst⟩ := (lengthsOk_iff b).mp hlen
    refine ⟨⟨fun _ => DPhase.noConfusion, fun _ => ha⟩, hs.error, hs.cause, hs.causeRange, hs.stalled, fun _ =>
      ⟨toWord_reserved b.ti, ?_, BitVec.eq_of_toNat_eq hstride, hlen4, hsrc, hdst⟩⟩
    show tiOk (TransferInfo.ofWord b.ti.toWord) = true
    rw [ofWord_toWord]
    exact hti
  | moved ha hst hp hl =>
    obtain ⟨hti, hok, hstride, hlen, hsrc, hdst⟩ := hs.loaded hp
    refine ⟨hs.phase, hs.error, hs.cause, hs.causeRange, hs.stalled, fun _ =>
      ⟨hti, hok, hstride, sub_four_aligned hlen, ?_, ?_⟩⟩
    · show (if _ then _ else _ : Word).toNat % 4 = 0
      split
      · exact add_four_aligned hsrc
      · exact hsrc
    · show (if _ then _ else _ : Word).toNat % 4 = 0
      split
      · exact add_four_aligned hdst
      · exact hdst
  | ended ha hst =>
    exact .of_not_xfer ⟨fun h => (nomatch h), fun h => absurd rfl h⟩ (fun _ => rfl) hs.cause hs.causeRange
      (fun h => absurd (hst.symm.trans h) Bool.false_ne_true) (fun h => nomatch h)
  | followed ha =>
    exact .of_not_xfer ⟨fun _ => DPhase.noConfusion, fun _ => ha⟩ hs.error hs.cause hs.causeRange hs.stalled
      DPhase.noConfusion
  | stalled ha hst hh => exact ⟨hs.phase, hs.error, hs.cause, hs.causeRange, fun _ => ⟨ha, hh⟩, hs.loaded⟩

/-- Settles O50, by the cases of what a step can do to the window. -/
theorem stepKeepsTheDmaWindow : Obligations.StepKeepsTheDmaWindow := by
  unfold Obligations.StepKeepsTheDmaWindow
  intro s t hs h
  exact ((step_dma_effect h).inv hs).congr rfl (step_launch h).2

end

/-! ### The device invariant, by LIFE -/

/-- The region's bytes: in canonical form, none outside the region (10_state.md R30, 20_memory.md R89). -/
def Device.Holds (d : Device) (m : Memory) : Prop :=
  Memory.wf m ∧ ∀ c ∈ m, d.rbase.toNat ≤ c.1 ∧ c.1 < d.rbase.toNat + d.rsize

section

variable {s t : State} {d e : Device} {p : Config}

theorem deviceInv_active (hl : s.life = .active d) :
    DeviceInv s ↔ s.owned = true ∧ d.wf s.config ∧ d.Holds s.mem := by
  unfold DeviceInv Device.Holds
  rw [hl]
  constructor
  · rintro ⟨h1, h2, h3, h4⟩
    exact ⟨h2, h3, h1, h4⟩
  · rintro ⟨h2, h3, h1, h4⟩
    exact ⟨h1, h2, h3, h4⟩

/-- A state that differs from an active one at most in its device's buffers and its region's bytes. -/
theorem DeviceInv.active (hs : DeviceInv s) (hl : s.life = .active d) (ht : t.life = .active e)
    (ho : t.owned = s.owned) (hc : t.config = s.config) (he : d.wf s.config → e.wf s.config)
    (hm : d.wf s.config → d.Holds s.mem → e.Holds t.mem) : DeviceInv t := by
  obtain ⟨howned, hwf, hmem⟩ := (deviceInv_active hl).mp hs
  exact (deviceInv_active ht).mpr ⟨ho.trans howned, hc ▸ he hwf, hm hwf hmem⟩

/-- With an active sequencer the device is Active (42_dma_sequencer.md R286). -/
theorem DeviceInv.active_of_dma (hs : DeviceInv s) (ha : s.dma.active = true) : ∃ d, s.life = .active d := by
  unfold DeviceInv at hs
  cases hl : s.life with
  | active d => exact ⟨d, rfl⟩
  | _ =>
    rw [hl] at hs
    obtain ⟨-, -, -, -, hd, -⟩ := hs
    rw [hd] at ha
    cases ha

/-- With a running serializer the device is Active. -/
theorem DeviceInv.active_of_runs (hs : DeviceInv s) {c : Chan} (hr : s.runs c = true) : ∃ d, s.life = .active d := by
  obtain ⟨he, -, -⟩ := (State.runs_iff s c).mp hr
  unfold DeviceInv at hs
  cases hl : s.life with
  | active d => exact ⟨d, rfl⟩
  | _ =>
    rw [hl] at hs
    obtain ⟨-, -, -, -, -, -, hclk, -⟩ := hs
    rw [hclk] at he
    cases he

/-! ### The device INIT commits -/

theorem freshChannel_wf {r : ConfigRecord} {c : Chan} (h : ValidRecord p c r) (ty : StripType) :
    (freshChannel (recordConfig r ty)).wf := by
  obtain ⟨hcount, -, -, -, hfreq, -⟩ := h
  exact ⟨Nat.pos_of_ne_zero hcount, (supportedFreqs_iff _).mpr hfreq, List.length_replicate, rfl⟩

/-- The device of a plan is well formed on a base that meets 20_memory.md R88. -/
theorem initPlan_device_wf {rs : List ConfigRecord} {q : InitPlan} {base : Word} (hq : initPlan p rs = some q)
    (hb : baseOk p q.rsize base = true) : (q.device base).wf p := by
  have hv : ValidConfig p rs := by
    by_contra h
    rw [initPlan_of_invalid h] at hq
    cases hq
  obtain ⟨r0, -, t0, -, h0, -, ⟨-, e⟩ | ⟨r1, t1, rfl, -, h1, e⟩⟩ := initPlan_of_valid hv <;>
    (rw [e] at hq; cases hq)
  · exact ⟨freshChannel_wf h0 t0, fun k hk => (nomatch hk), rfl, rfl, hb⟩
  · obtain ⟨-, -, hpin, hfreq, -⟩ := hv
    refine ⟨freshChannel_wf h0 t0, fun k hk => ?_, rfl, rfl, hb⟩
    obtain rfl := Option.some.inj hk
    exact ⟨freshChannel_wf h1 t1, congrArg BitVec.toNat hfreq.symm, fun e => hpin (BitVec.eq_of_toInt_eq e.symm)⟩

/-! ### A buffer written -/

theorem Channel.wf.setPix {k : Channel} (h : k.wf) {x : List Word} (hx : x.length = k.cfg.count) :
    ({ k with pix := x } : Channel).wf := by
  obtain ⟨hcount, hfreq, -, hwords⟩ := h
  exact ⟨hcount, hfreq, hx, hwords⟩

theorem Device.setPix_maxWords (d : Device) (c : Chan) (x : List Word) : (d.setPix c x).maxWords = d.maxWords := by
  cases c
  · rfl
  · unfold Device.maxWords Device.setPix
    cases d.ch1 <;> rfl

/-- A device stays well formed when a buffer of the channel's own length is written (10_state.md R29). -/
theorem Device.wf.setPix (h : d.wf p) {c : Chan} {k : Channel} (hk : d.chan c = some k) {x : List Word}
    (hx : x.length = k.cfg.count) : (d.setPix c x).wf p where
  ch0 := by
    cases c with
    | c0 =>
      cases hk
      exact h.ch0.setPix hx
    | c1 => exact h.ch0
  ch1 := by
    intro k' hk'
    cases c with
    | c0 => exact h.ch1 k' hk'
    | c1 =>
      obtain ⟨k0, hk0, rfl⟩ := Option.map_eq_some_iff.mp hk'
      obtain rfl : k = k0 := Option.some.inj (hk.symm.trans hk0)
      obtain ⟨hwf, hfreq, hpin⟩ := h.ch1 k hk0
      exact ⟨hwf.setPix hx, hfreq, hpin⟩
  slot := by rw [Device.setPix_slot, Device.setPix_maxWords, h.slot]
  rsize := by rw [Device.setPix_rsize, Device.setPix_nch, Device.setPix_slot, h.rsize]
  base := by rw [Device.setPix_rsize, Device.setPix_rbase, h.base]

/-! ### The region written -/

theorem Device.holds_nil (d : Device) : d.Holds [] := ⟨Memory.wf_nil, fun _ hc => nomatch hc⟩

theorem Device.Holds.setPix {m : Memory} (h : d.Holds m) (c : Chan) (x : List Word) : (d.setPix c x).Holds m := by
  unfold Device.Holds
  rw [Device.setPix_rbase, Device.setPix_rsize]
  exact h

/-- ARM writes inside the region (42_dma_sequencer.md R262). -/
theorem Device.Holds.armMem {m : Memory} (h : d.Holds m) (hd : d.wf p) : d.Holds (d.armMem p m) := by
  obtain ⟨hwf, hin⟩ := h
  refine ⟨armMem_wf hwf, fun c hc => ?_⟩
  rcases armMem_mem hd hc with hc | hc
  · exact hin c hc
  · exact hc

theorem Device.Holds.writeWord {m : Memory} (h : d.Holds m) {a : Nat} (v : Word) (ha : d.rbase.toNat ≤ a)
    (hb : a + 4 ≤ d.rbase.toNat + d.rsize) : d.Holds (Memory.writeWord m a v) := by
  obtain ⟨hwf, hin⟩ := h
  refine ⟨Memory.wf_writeWord hwf a v, fun c hc => ?_⟩
  rcases Memory.mem_writeWord hc with hc | hc
  · exact hin c hc
  · omega

/-- A writable address that is no FIFO register lies in the region (42_dma_sequencer.md R284). -/
theorem State.writable_region {a : Word} (hl : s.life = .active d) (hw : s.writable a.toNat = true)
    (h0 : a ≠ s.config.fif0Bus) (h1 : a ≠ s.config.fif1Bus) :
    d.rbase.toNat ≤ a.toNat ∧ a.toNat + 4 ≤ d.rbase.toNat + d.rsize := by
  simp only [State.writable, State.readable, hl, Bool.or_eq_true, Bool.and_eq_true, decide_eq_true_eq] at hw
  rcases hw with (hw | hw) | hw
  · exact hw
  · exact absurd (BitVec.eq_of_toNat_eq hw) h0
  · exact absurd (BitVec.eq_of_toNat_eq hw) h1

/-! ### The device invariant, agent by agent -/

/-- The sequencer's registers may change while it runs. -/
theorem DeviceInv.setDma (hs : DeviceInv s) (ha : s.dma.active = true) (y : Dma) : DeviceInv (s.setDma y) := by
  obtain ⟨d, hl⟩ := hs.active_of_dma ha
  exact hs.active hl hl rfl rfl id fun _ => id

theorem DeviceInv.xfer (hs : DeviceInv s) (hx : s.xferEnabled = true) : DeviceInv s.xfer := by
  obtain ⟨ha, -⟩ := (State.xferEnabled_iff s).mp hx
  obtain ⟨d, hl⟩ := hs.active_of_dma ha
  have frame := AgentFrame.xfer s
  refine hs.active hl (frame.life.trans hl) frame.owned frame.config id fun _ hm => ?_
  rcases State.xfer_cases s with ⟨-, e⟩ | ⟨-, hw, e⟩ <;> rw [e]
  · exact hm
  · rcases State.deliver_cases s (Memory.readWord s.mem s.dma.sourceAd.toNat) with ⟨c, -, e⟩ | ⟨h0, h1, e⟩ <;> rw [e]
    · have push : ∀ v, (s.pushFifo c v).mem = s.mem := by
        intro v
        rcases State.pushFifo_cases s c v with ⟨-, e⟩ | ⟨-, e⟩ <;> rw [e] <;> simp
      rw [State.setDma_mem, push]
      exact hm
    · obtain ⟨hlow, hhigh⟩ := State.writable_region hl hw h0 h1
      exact hm.writeWord _ hlow hhigh

theorem DeviceInv.nextBlock (hs : DeviceInv s) (ha : s.dma.active = true) : DeviceInv s.nextBlock := by
  unfold State.nextBlock
  split <;> exact hs.setDma ha _

/-- SHIFT and GAP need a running serializer (43_pwm_serializer.md R303). -/
theorem DeviceInv.serTurn (hs : DeviceInv s) (c : Chan) : DeviceInv (s.serTurn c) := by
  have running : ∀ x, s.runs c = true → DeviceInv (s.setSer c x) := by
    intro x hr
    obtain ⟨d, hl⟩ := hs.active_of_runs hr
    exact hs.active hl (by simpa using hl) (by simp) (by simp) id fun _ hm => by simpa using hm
  rcases State.serTurn_cases s c with ⟨w, rest, hr, -, e⟩ | ⟨hr, -, -, -, e⟩ | ⟨-, -, e⟩ <;> rw [e]
  · exact running _ hr
  · exact running _ hr
  · exact hs

/-- FINI leaves nothing owned and nothing running (40_controller_commands.md R171). -/
theorem release_deviceInv (hw : s.waiting = false) : DeviceInv s.release := by
  rw [State.release_eq]
  exact ⟨Memory.wf_nil, rfl, rfl, hw, rfl, rfl, rfl, fun c => by cases c <;> exact ⟨rfl, rfl⟩⟩

/-- A host command keeps the device invariant; while a WAIT holds it is that WAIT's next test. -/
theorem CommandEffect.deviceInv {i : Instr} (h : CommandEffect s i t) (hs : DeviceInv s)
    (hw : s.waiting = true → i = .wait) : DeviceInv t := by
  cases h with
  | result _ r => exact hs
  | drawn _ r => exact hs
  | init _ rs q base hq ho hb =>
    rw [State.commit_programHardware_eq]
    exact (deviceInv_active rfl).mpr ⟨rfl, initPlan_device_wf hq hb, Device.holds_nil _⟩
  | fini d hl =>
    refine release_deviceInv (s := s) ?_
    cases hwait : s.waiting
    · rfl
    · cases hw hwait
  | pix _ d ch k x hl hk hx =>
    refine hs.active hl rfl rfl rfl (fun hd => hd.setPix hk ?_) fun _ hm => hm.setPix ch x
    obtain ⟨-, -, hlen, -⟩ := Device.chan_wf hd hk
    rcases hx with hx | ⟨n, v, rfl⟩
    · exact hx
    · rw [List.length_set, hlen]
  | render d hl hc =>
    exact hs.active hl ((State.arm_life s d).trans hl) (State.arm_owned s d) (State.arm_config s d) id
      fun hd hm => (State.arm_mem s d).symm ▸ hm.armMem hd
  | clear d ch k hl hk hc =>
    have zeroed : d.wf s.config → (d.setPix ch (List.replicate k.cfg.count 0)).wf s.config :=
      fun hd => hd.setPix hk List.length_replicate
    exact hs.active hl (State.arm_life _ _) (State.arm_owned _ _) (State.arm_config _ _) zeroed
      fun hd hm => (State.arm_mem _ _).symm ▸ (hm.setPix ch _).armMem (zeroed hd)
  | cleared d ch k hl hk hc =>
    exact hs.active hl rfl rfl rfl (fun hd => hd.setPix hk List.length_replicate) fun _ hm => hm.setPix ch _
  | waited d r hl hr => exact hs.active hl hl rfl rfl id fun _ => id
  | holds d hl hr => exact hs.active hl hl rfl rfl id fun _ => id

/-- Settles O49: the sequencer and the serializers run only while Active and write only inside the region, and among the
commands INIT alone makes a device and FINI alone takes it away. -/
theorem stepKeepsTheDevice : Obligations.StepKeepsTheDevice := by
  unfold Obligations.StepKeepsTheDevice
  intro s t hs h
  have hs' : DeviceInv s.dropTurn := hs
  have loading : s.loadEnabled = true → s.dropTurn.dma.active = true :=
    fun hl => ((State.loadEnabled_iff s).mp hl).1
  cases step_effect h with
  | inputs a e => exact hs
  | command a e i _ hi hw hx => exact (exec_command_effect hi hx).deviceInv hs hw
  | loadStop cause hl => exact hs'.setDma (loading hl) _
  | loadIllegal ws hl =>
    obtain ⟨y, e⟩ := s.dropTurn.loadIllegal_setDma ws
    exact e ▸ hs'.setDma (loading hl) y
  | load ws b _ hl hf hd hx =>
    obtain ⟨y, rfl⟩ := execCb_setDma hx
    exact hs'.setDma (loading hl) y
  | xfer hx => exact hs'.xfer hx
  | next hn => exact hs'.nextBlock ((State.nextEnabled_iff s).mp hn).1
  | stall hst =>
    obtain ⟨ha, -⟩ := (State.stallEnabled_iff s).mp hst
    exact hs'.setDma ha _
  | ser c => exact hs'.serTurn c

end

end Sys2Proof.Machine

/-! PROOFS. The statements of 30_encoding.md: the decoder and the encoder are each other's inverse, and exactly the reserved
words and the wrong argument shapes are refused. -/

namespace Sys2Proof

/-! ### A host command and its words (30_encoding.md R111, R115, R124) -/

/-- A host command's words are a CMD word and the arguments its operands are taken from. -/
theorem encode_command {i : Instr} (hi : i.cls = .command) :
    ∃ op ch args, (op.takesChannel = true ∨ ch = .c0) ∧ encode i = commandWord op ch :: args ∧
      operandsOf op ch args = some i := by
  cases i with
  | cb b => cases hi
  | init rs =>
    have cut : operandsOf .init .c0 (rs.flatMap ConfigRecord.words) = some (.init rs) := by
      rw [operandsOf, recordsOf_flatMap, Option.map_some]
    exact ⟨.init, .c0, _, .inr rfl, rfl, cut⟩
  | init1 pin count bright => exact ⟨.init1, .c0, _, .inr rfl, rfl, rfl⟩
  | fini => exact ⟨.fini, .c0, _, .inr rfl, rfl, rfl⟩
  | setpixel ch index color => exact ⟨.setpixel, ch, _, .inl rfl, rfl, rfl⟩
  | setbitmap ch colors => exact ⟨.setbitmap, ch, _, .inl rfl, rfl, rfl⟩
  | clear ch => exact ⟨.clear, ch, _, .inl rfl, rfl, rfl⟩
  | render => exact ⟨.render, .c0, _, .inr rfl, rfl, rfl⟩
  | wait => exact ⟨.wait, .c0, _, .inr rfl, rfl, rfl⟩

/-- The command an argument list makes is encoded as its CMD word and that list. -/
theorem encode_of_operandsOf {op : Opcode} {ch : Chan} {args : List Word} {i : Instr}
    (hch : op.takesChannel = true ∨ ch = .c0) (h : operandsOf op ch args = some i) : encode i = commandWord op ch :: args := by
  cases op
  case init =>
    obtain rfl : ch = .c0 := hch.resolve_left Bool.false_ne_true
    obtain ⟨rs, hrs, rfl⟩ := Option.map_eq_some_iff.mp h
    rw [encode, recordsOf_eq_some hrs]
  case init1 =>
    obtain rfl : ch = .c0 := hch.resolve_left Bool.false_ne_true
    obtain ⟨pin, count, bright, rfl, rfl⟩ := threeOperands_some h
    rfl
  case setpixel =>
    obtain ⟨index, color, rfl, rfl⟩ := twoOperands_some h
    rfl
  case setbitmap =>
    cases h
    rfl
  case clear =>
    obtain ⟨rfl, rfl⟩ := noOperands_some h
    rfl
  all_goals
    obtain rfl : ch = .c0 := hch.resolve_left Bool.false_ne_true
    obtain ⟨rfl, rfl⟩ := noOperands_some h
    rfl

theorem decodeBlock_words (b : ControlBlock) : decodeBlock b.words = .ok (.cb b) := by
  have clean : ¬b.ti.toWord &&& tiReserved ≠ 0 := fun h => h (toWord_reserved b.ti)
  rw [ControlBlock.words, decodeBlock, if_neg clean, ofWord_toWord]

/-- Settles O1: a host command is decoded by its CMD word and its operands, a control block by its TI word. -/
theorem decodeOfEncodeIsIdentity : Obligations.DecodeOfEncodeIsIdentity := by
  unfold Obligations.DecodeOfEncodeIsIdentity
  intro i
  cases hi : i.cls with
  | command =>
    obtain ⟨op, ch, args, hch, he, ho⟩ := encode_command hi
    rw [he, decode_command_cons, decodeCommand_commandWord op ch args hch, ho]
  | block =>
    cases i with
    | cb b => exact decodeBlock_words b
    | _ => cases hi

/-- Settles O2: the CMD word and the argument list of a decoded command are its encoding's, and a decoded TI word has no bit
outside its fields. -/
theorem decodedWordsAreTheEncoding : Obligations.DecodedWordsAreTheEncoding := by
  unfold Obligations.DecodedWordsAreTheEncoding
  constructor
  · intro ws i h
    cases ws with
    | nil =>
      rw [decode_command_nil] at h
      cases h
    | cons w args =>
      rw [decode_command_cons] at h
      obtain ⟨op, ch, hch, rfl, ho⟩ := decodeCommand_ok h
      exact encode_of_operandsOf hch ho
  · intro ws i h
    rw [decode_block] at h
    obtain ⟨ti, src, dst, len, stride, nextcb, rest, rfl, clean, rfl⟩ := decodeBlock_ok h
    refine ⟨rfl, ?_⟩
    simp only [encode, ControlBlock.words, toWord_ofWord clean, List.take_succ_cons, List.take_zero]

/-- Settles O5: the tables' words are closed, and the decoder computes. -/
theorem writtenOutWordsDecode : Obligations.WrittenOutWordsDecode := by
  unfold Obligations.WrittenOutWordsDecode
  exact ⟨rfl, rfl, rfl, rfl, rfl, rfl, rfl, rfl, rfl, rfl, rfl, rfl, rfl, rfl⟩

end Sys2Proof

namespace Sys2Proof.Machine

/-! ### Reserved words (30_encoding.md R114) -/

theorem commandWord_toNat (op : Opcode) (ch : Chan) : (commandWord op ch).toNat = op.code + 16 * ch.toNat := by
  cases op <;> cases ch <;> rfl

theorem Opcode.exists_code {n : Nat} (h1 : 1 ≤ n) (h8 : n ≤ 8) : ∃ op : Opcode, op.code = n := by
  interval_cases n
  exacts [⟨.init, rfl⟩, ⟨.init1, rfl⟩, ⟨.fini, rfl⟩, ⟨.setpixel, rfl⟩, ⟨.setbitmap, rfl⟩, ⟨.clear, rfl⟩, ⟨.render, rfl⟩,
    ⟨.wait, rfl⟩]

theorem Opcode.takesChannel_of_code {op : Opcode} (h : op.code = 4 ∨ op.code = 5 ∨ op.code = 6) :
    op.takesChannel = true := by
  revert h
  cases op <;> decide

/-- The CMD words that are not reserved are those of the encoder: one for each opcode and each channel it may name. -/
theorem not_reservedWord_iff (w : Word) :
    ¬ReservedWord w ↔ ∃ op ch, (op.takesChannel = true ∨ ch = .c0) ∧ w = commandWord op ch := by
  constructor
  · intro h
    unfold ReservedWord at h
    obtain ⟨op, hop⟩ := Opcode.exists_code (n := w.toNat % 16) (by omega) (by omega)
    by_cases hch : w.toNat / 16 % 2 = 1
    · refine ⟨op, .c1, .inl (Opcode.takesChannel_of_code (by omega)), BitVec.eq_of_toNat_eq ?_⟩
      rw [commandWord_toNat, Chan.toNat]
      omega
    · refine ⟨op, .c0, .inr rfl, BitVec.eq_of_toNat_eq ?_⟩
      rw [commandWord_toNat, Chan.toNat]
      omega
  · rintro ⟨op, ch, hch, rfl⟩
    unfold ReservedWord
    rw [commandWord_toNat]
    revert hch
    cases op <;> cases ch <;> decide

theorem decodeCommand_of_reservedWord {w : Word} (h : ReservedWord w) (args : List Word) :
    decodeCommand w args = .error .reservedEncoding := by
  unfold decodeCommand
  split
  · rfl
  split
  · rfl
  split
  · rfl
  rename_i hrsvd _ op hop hch
  have hw := eq_commandWord (by simpa using hrsvd) (opcodeOf_eq_some hop)
  refine absurd h ((not_reservedWord_iff w).mpr ⟨op, _, ?_, hw⟩)
  cases ht : op.takesChannel
  · simp only [ht, Bool.not_false, Bool.and_true, Bool.not_eq_true] at hch
    exact .inr (by rw [hch]; rfl)
  · exact .inl rfl

/-! ### Argument shapes (30_encoding.md R115) -/

theorem noOperands_eq_none_iff (i : Instr) (args : List Word) : noOperands i args = none ↔ args.length ≠ 0 := by
  cases args <;> simp [noOperands]

theorem twoOperands_eq_none_iff (ch : Chan) (args : List Word) : twoOperands ch args = none ↔ args.length ≠ 2 := by
  unfold twoOperands
  split
  · simp
  · rename_i h
    simpa [List.length_eq_two] using h

theorem threeOperands_eq_none_iff (args : List Word) : threeOperands args = none ↔ args.length ≠ 3 := by
  unfold threeOperands
  split
  · simp
  · rename_i h
    simpa [List.length_eq_three] using h

/-- An argument list makes a command exactly when it has the shape of the opcode. -/
theorem operandsOf_eq_none_iff (op : Opcode) (ch : Chan) (args : List Word) :
    operandsOf op ch args = none ↔ ¬ShapeOk (commandWord op ch) args.length := by
  have opc : (commandWord op ch).toNat % 16 = op.code := by
    rw [commandWord_toNat]
    cases op <;> cases ch <;> rfl
  unfold ShapeOk
  rw [opc]
  cases op <;>
    simp [operandsOf, Opcode.code, recordsOf_eq_none_iff, noOperands_eq_none_iff, twoOperands_eq_none_iff,
      threeOperands_eq_none_iff]

/-! ### The CMD write (60_exceptions.md R351) -/

theorem initDevice_refused {rs : List ConfigRecord} {s : State} {r : Refusal} (h : initDevice rs s = .refused r) :
    r = .pcmPin := by
  unfold initDevice at h
  split at h
  · cases h
    rfl
  · split at h <;> cases h

/-- No instruction's meaning refuses but INIT's, and that for a PCM pin alone (40_controller_commands.md R157). -/
theorem exec_refused {i : Instr} {s : State} {r : Refusal} (h : exec i s = .refused r) : r = .pcmPin := by
  cases i
  case init => exact initDevice_refused h
  case init1 => exact initDevice_refused h
  all_goals
    simp only [exec, execFini, execSetpixel, execSetbitmap, execClear, execRender, execWait, execCb] at h
    repeat' split at h
    all_goals cases h

theorem AboutToIssue.waiting {s : State} {w : Word} (h : AboutToIssue s w) : s.waiting = false := by
  obtain ⟨-, waiting, -⟩ := h
  exact waiting

theorem step_of_decodeCommand_error {s : State} {w : Word} {e : DecodeError} (h : AboutToIssue s w)
    (hd : decodeCommand w s.argq = .error e) : step s = .refused (refusalOf e) := by
  rw [step_of_issue h]
  simp [State.issue, h.waiting, decode_command_cons, hd]

theorem step_of_decodeCommand_ok {s : State} {w : Word} {i : Instr} (h : AboutToIssue s w)
    (hd : decodeCommand w s.argq = .ok i) : step s = exec i s.issued := by
  rw [step_of_issue h]
  simp [State.issue, State.issued, h.waiting, decode_command_cons, hd]

theorem step_of_reservedWord {s : State} {w : Word} (h : AboutToIssue s w) (hw : ReservedWord w) :
    step s = .refused .reservedEncoding :=
  step_of_decodeCommand_error h (decodeCommand_of_reservedWord hw s.argq)

/-- A word that is not reserved is refused for its arguments' shape, or its command runs with ARGQ emptied. -/
theorem step_of_not_reservedWord {s : State} {w : Word} (h : AboutToIssue s w) (hw : ¬ReservedWord w) :
    (¬ShapeOk w s.argq.length ∧ step s = .refused .argumentShape) ∨
      (ShapeOk w s.argq.length ∧ ∃ i, step s = exec i s.issued) := by
  obtain ⟨op, ch, hch, rfl⟩ := (not_reservedWord_iff w).mp hw
  have hd := decodeCommand_commandWord op ch s.argq hch
  have shape := operandsOf_eq_none_iff op ch s.argq
  cases ho : operandsOf op ch s.argq with
  | none =>
    rw [ho] at hd
    exact .inl ⟨shape.mp ho, step_of_decodeCommand_error h hd⟩
  | some i =>
    rw [ho] at hd
    have fits : ShapeOk (commandWord op ch) s.argq.length := by
      by_contra hs
      cases ho.symm.trans (shape.mpr hs)
    exact .inr ⟨fits, i, step_of_decodeCommand_ok h hd⟩

/-- Settles O3: the decoder rejects a reserved word as such, and what it reads from any other word is not refused so. -/
theorem reservedCommandWordsAreRefused : Obligations.ReservedCommandWordsAreRefused := by
  unfold Obligations.ReservedCommandWordsAreRefused
  intro s w h
  refine ⟨fun refused => ?_, step_of_reservedWord h⟩
  by_contra hw
  rcases step_of_not_reservedWord h hw with ⟨-, e⟩ | ⟨-, i, e⟩
  · cases e.symm.trans refused
  · cases exec_refused (e.symm.trans refused)

/-- Settles O4: reserved words come first, and a command that runs had its shape. -/
theorem wrongArgumentShapesAreRefused : Obligations.WrongArgumentShapesAreRefused := by
  unfold Obligations.WrongArgumentShapesAreRefused
  intro s w h
  constructor
  · intro refused
    have hw : ¬ReservedWord w := fun hw => by cases (step_of_reservedWord h hw).symm.trans refused
    rcases step_of_not_reservedWord h hw with ⟨hs, -⟩ | ⟨-, i, e⟩
    · exact ⟨hw, hs⟩
    · cases exec_refused (e.symm.trans refused)
  · rintro ⟨hw, hs⟩
    rcases step_of_not_reservedWord h hw with ⟨-, e⟩ | ⟨fits, -⟩
    · exact e
    · exact absurd fits hs

end Sys2Proof.Machine

/-! PROOFS. The statements of 40_controller_commands.md: how a command comes to run, where it faults, INIT and INIT1
check by check, FINI, the buffer commands, RENDER and WAIT. For each way a command ends there is one lemma that says its
next state, and the statements read their clauses off it. -/

namespace Sys2Proof.Machine

/-! ### The command port (R150, R185) -/

/-- While a WAIT holds and no second thread's access is pending, the host's turn tests it again (R182). -/
theorem step_of_hold {s : State} (ht : s.turn = .host) (hw : s.waiting = true)
    (hq : ∀ e rest, s.env.hostq = e :: rest → e.secondThread = false) : step s = exec .wait s.dropTurn := by
  rw [step_of_host ht]
  unfold State.hostTurn
  split
  · simp [hw]
  · rename_i e rest he
    simp [hw, hq e rest he]

/-- Settles O6: the decoder's instruction runs with ARGQ emptied, and a WAIT that holds runs again. -/
theorem stepRunsTheIssuedCommand : Obligations.StepRunsTheIssuedCommand := by
  unfold Obligations.StepRunsTheIssuedCommand
  exact ⟨fun s w i h hd => step_of_decodeCommand_ok h hd, fun s => step_of_hold⟩

/-- Settles O8: the second thread's access is carried out, and a CMD write among them finds the WAIT holding. -/
theorem commandDuringWaitIsRefused : Obligations.CommandDuringWaitIsRefused := by
  unfold Obligations.CommandDuringWaitIsRefused
  intro s w rest ht hw hq
  rw [step_of_access ht hq (.inr rfl)]
  simp [State.access, State.issue, hw]

section

variable {s : State} {d : Device}

/-! ### Where a command faults (R151) -/

/-- The commands that act on a device INIT has committed (R151). -/
def NeedsDevice : Instr → Prop
  | .setpixel _ _ _ => True
  | .setbitmap _ _ => True
  | .clear _ => True
  | .render => True
  | .wait => True
  | _ => False

theorem exec_of_not_active {i : Instr} (hi : NeedsDevice i) (h : ∀ d, s.life ≠ .active d) :
    exec i s = .fault .notInitialized := by
  cases hl : s.life with
  | active d => exact absurd hl (h d)
  | _ =>
    cases i with
    | setpixel | setbitmap | clear | render | wait =>
      simp [exec, execSetpixel, execSetbitmap, execClear, execRender, execWait, hl]
    | _ => exact hi.elim

theorem initDevice_ne_fault (rs : List ConfigRecord) (s : State) (r : Fault) : initDevice rs s ≠ .fault r := by
  unfold initDevice
  split
  · exact nofun
  · split <;> exact nofun

/-- A command that faults needs a device and has none. -/
theorem exec_fault {i : Instr} {r : Fault} (h : exec i s = .fault r) : NeedsDevice i ∧ ∀ d, s.life ≠ .active d := by
  cases i with
  | init rs => exact absurd h (initDevice_ne_fault rs s r)
  | init1 pin count bright => exact absurd h (initDevice_ne_fault _ s r)
  | fini =>
    simp only [exec, execFini] at h
    split at h <;> cases h
  | cb b =>
    simp only [exec, execCb] at h
    split at h <;> cases h
  | setpixel ch index color =>
    refine ⟨trivial, fun d hl => ?_⟩
    rw [exec, execSetpixel_active hl] at h
    split at h
    · cases h
    · split at h <;> cases h
  | setbitmap ch colors =>
    refine ⟨trivial, fun d hl => ?_⟩
    rw [exec, execSetbitmap_active hl] at h
    split at h
    · cases h
    · split at h <;> cases h
  | clear ch =>
    refine ⟨trivial, fun d hl => ?_⟩
    rw [exec, execClear_active hl] at h
    split at h <;> cases h
  | render =>
    refine ⟨trivial, fun d hl => ?_⟩
    rw [exec, execRender_active hl] at h
    cases h
  | wait =>
    refine ⟨trivial, fun d hl => ?_⟩
    rw [exec, execWait_active hl] at h
    split at h <;> cases h

/-- Settles O10: the five commands fault without a device, and nothing else faults. -/
theorem dataCommandsFaultOutsideActive : Obligations.DataCommandsFaultOutsideActive := by
  unfold Obligations.DataCommandsFaultOutsideActive
  refine ⟨fun s h => ?_, fun i s r h => ?_⟩
  · exact ⟨fun _ _ _ => exec_of_not_active trivial h, fun _ _ => exec_of_not_active trivial h,
      fun _ => exec_of_not_active trivial h, exec_of_not_active trivial h, exec_of_not_active trivial h⟩
  · obtain ⟨hi, hl⟩ := exec_fault h
    exact ⟨hl, by cases i <;> exact hi⟩

/-! ### INIT's checks (R154 to R161) -/

/-- Settles O13: the PCM check comes before every other. -/
theorem initWithPcmPinIsRefused : Obligations.InitWithPcmPinIsRefused := by
  unfold Obligations.InitWithPcmPinIsRefused
  intro s rs r g hr hg hpin
  have h : rs.any (pcmRecord s.config) = true := List.any_eq_true.mpr ⟨r, hr, pcmRecord_of_mem hg hpin⟩
  simp [exec, execInit, initDevice, h]

theorem exec_init_of_invalid {rs : List ConfigRecord} (hn : NoPcmPin s.config rs) (hv : ¬ValidConfig s.config rs) :
    exec (.init rs) s = .next { s with result := ⟨.configError, 0⟩ } := by
  simp [exec, execInit, initDevice, pcmRecord_any_false hn, initPlan_of_invalid hv, State.report_eq]

/-- From its claim on INIT reports no ConfigError. -/
theorem claim_code_ne_configError (s : State) (q : InitPlan) : (s.claim q).result.code ≠ .configError := by
  unfold State.claim
  split
  · exact nofun
  split
  · exact nofun
  split
  · exact nofun
  split
  · exact nofun
  split <;> exact nofun

/-- Settles O14: a list has a plan exactly when it is valid. -/
theorem initReportsConfigError : Obligations.InitReportsConfigError := by
  unfold Obligations.InitReportsConfigError
  intro s rs hn
  refine ⟨exec_init_of_invalid hn, fun t hv h => ?_⟩
  obtain ⟨q, -, e⟩ := exec_init_of_valid hn hv
  cases e.symm.trans h
  exact claim_code_ne_configError s q

/-! ### INIT's claim (R163 to R167) -/

/-- Settles O15: OWNED is tested first, then the other owner's draw. -/
theorem initReportsHardwareBusy : Obligations.InitReportsHardwareBusy := by
  unfold Obligations.InitReportsHardwareBusy
  intro s rs hn hv
  obtain ⟨q, -, e⟩ := exec_init_of_valid hn hv
  exact ⟨fun h => by rw [e, claim_of_owned q h], fun h ho => by rw [e, claim_of_otherOwner q h ho]⟩

/-- Settles O16: the allocation's draw and the plan's RSIZE, in the numbers of its records. -/
theorem initReportsResourceError : Obligations.InitReportsResourceError := by
  unfold Obligations.InitReportsResourceError
  intro s rs hn hv h ho
  obtain ⟨q, hq, e⟩ := exec_init_of_valid hn hv
  obtain ⟨-, hsize, -⟩ := initPlan_geometry hv hq
  exact ⟨fun hm ha => by rw [e, claim_of_tooLarge h ho ha (hsize ▸ hm)],
    fun ha => by rw [e, claim_of_allocFails h ho ha]⟩

/-! ### INIT's commit (R168, R169) -/

/-- The configuration a plan has for channel c. -/
def InitPlan.cfg (q : InitPlan) : Chan → Option ChannelConfig
  | .c0 => some q.cfg0
  | .c1 => q.cfg1

theorem InitPlan.device_chan (q : InitPlan) (base : Word) (c : Chan) :
    (q.device base).chan c = (q.cfg c).map freshChannel := by cases c <;> rfl

theorem InitPlan.device_nch (q : InitPlan) (base : Word) : (q.device base).nch = q.nch := by
  simp [Device.nch, InitPlan.nch, InitPlan.device]

theorem InitPlan.serializer_of_some {q : InitPlan} {c : Chan} {k : ChannelConfig} (h : q.cfg c = some k)
    (x : Serializer) :
    q.serializer c x =
      { x with pwen := true, pola := k.invert, werr := false, gapo := false, fifo := [],
               marks := x.marks ++ [⟨k, x.wire.length⟩] } := by
  cases c with
  | c0 =>
    cases h
    rfl
  | c1 =>
    have h : q.cfg1 = some k := h
    simp only [InitPlan.serializer, h]

theorem InitPlan.serializer_of_none {q : InitPlan} {c : Chan} (h : q.cfg c = none) (x : Serializer) :
    q.serializer c x = { x with pwen := false, pola := false, werr := false, gapo := false, fifo := [] } := by
  cases c with
  | c0 => cases h
  | c1 =>
    have h : q.cfg1 = none := h
    simp only [InitPlan.serializer, h]

/-- Whichever channels a plan has, its serializers end empty and clear, with LASTGAP and the stream kept (R169). -/
theorem InitPlan.serializer_frame (q : InitPlan) (c : Chan) (x : Serializer) :
    (q.serializer c x).fifo = [] ∧ (q.serializer c x).werr = false ∧ (q.serializer c x).gapo = false ∧
      (q.serializer c x).lastGap = x.lastGap ∧ (q.serializer c x).wire = x.wire := by
  cases h : q.cfg c with
  | some k => rw [InitPlan.serializer_of_some h]; exact ⟨rfl, rfl, rfl, rfl, rfl⟩
  | none => rw [InitPlan.serializer_of_none h]; exact ⟨rfl, rfl, rfl, rfl, rfl⟩

/-- A valid list's plan, record by record. -/
theorem initPlan_cfg {p : Config} {rs : List ConfigRecord} {q : InitPlan} (hv : ValidConfig p rs)
    (hq : initPlan p rs = some q) (c : Chan) :
    (∀ r, rs[c.toNat]? = some r →
        ValidRecord p c r ∧ ∃ ty, stripTypeOf r.stype.toNat = some ty ∧ q.cfg c = some (recordConfig r ty)) ∧
      (rs[c.toNat]? = none → q.cfg c = none) := by
  obtain ⟨r0, -, t0, ht0, h0, -, ⟨rfl, e⟩ | ⟨r1, t1, rfl, ht1, h1, e⟩⟩ := initPlan_of_valid hv <;>
    obtain rfl := Option.some.inj (e.symm.trans hq) <;> cases c
  · exact ⟨fun r hr => by cases hr; exact ⟨h0, t0, ht0, rfl⟩, nofun⟩
  · exact ⟨nofun, fun _ => rfl⟩
  · exact ⟨fun r hr => by cases hr; exact ⟨h0, t0, ht0, rfl⟩, nofun⟩
  · exact ⟨fun r hr => by cases hr; exact ⟨h1, t1, ht1, rfl⟩, nofun⟩

/-- A valid list's plan has the divisor of its first record, in the range of DIVI (R161). -/
theorem initPlan_divi {p : Config} {rs : List ConfigRecord} {q : InitPlan} (hv : ValidConfig p rs)
    (hq : initPlan p rs = some q) {r : ConfigRecord} (hr : rs[0]? = some r) :
    q.divi = (p.fSrc + 3 * r.freq.toNat / 2) / (3 * r.freq.toNat) ∧ q.divi ≤ 4095 := by
  obtain ⟨r0, hr0, t0, -, -, ⟨-, hd⟩, h⟩ := initPlan_of_valid hv
  obtain rfl := Option.some.inj (hr0.symm.trans hr)
  obtain ⟨-, e⟩ | ⟨r1, t1, -, -, -, e⟩ := h <;> obtain rfl := Option.some.inj (e.symm.trans hq) <;> exact ⟨rfl, hd⟩

/-- The field of CLKDIV holds a divisor in its range (10_state.md R37). -/
theorem clkdiv_field_toNat {n : Nat} (h : n ≤ 4095) :
    ((BitVec.ofNat 32 n <<< 12).extractLsb' 12 12).toNat = n := by
  simp only [BitVec.extractLsb'_toNat, BitVec.toNat_shiftLeft, BitVec.toNat_ofNat, Nat.shiftLeft_eq,
    Nat.shiftRight_eq_div_pow]
  omega

theorem freshChannel_fromRecord {p : Config} {c : Chan} {r : ConfigRecord} {ty : StripType} (h : ValidRecord p c r)
    (ht : stripTypeOf r.stype.toNat = some ty) : FromRecord r (freshChannel (recordConfig r ty)) where
  pin := rfl
  count := rfl
  bright := by
    obtain ⟨-, hb, -⟩ := h
    exact Nat.mod_eq_of_lt (Nat.lt_succ_of_le hb)
  invert := by simp [freshChannel, recordConfig]
  stype := ht
  freq := rfl
  pix := rfl
  words := frameWords_recordConfig ht

/-- The state INIT leaves when it commits a plan at the drawn base. -/
def State.afterInit (s : State) (q : InitPlan) : State :=
  { s.dropDraw with
    life := .active (q.device s.initDraw.rbase)
    owned := true
    result := ⟨.ok, 0⟩
    mem := []
    ser0 := q.serializer .c0 s.ser0
    ser1 := q.serializer .c1 s.ser1
    dmac := true
    clk := ⟨true, (BitVec.ofNat 32 q.divi <<< 12).extractLsb' 12 12⟩
    dma := Dma.cleared }

theorem State.afterInit_ser (s : State) (q : InitPlan) (c : Chan) :
    (s.afterInit q).ser c = q.serializer c (s.ser c) := by cases c <;> rfl

/-- INIT of a valid list on a free peripheral with an allocation that fits (R168, R169). -/
theorem exec_init_of_free {rs : List ConfigRecord} (hn : NoPcmPin s.config rs) (hv : ValidConfig s.config rs)
    (h : s.owned = false) (ho : s.initDraw.otherOwner = false) (ha : s.initDraw.allocFails = false)
    (hm : configRsize rs ≤ s.config.maxRegionBytes)
    (hb : BaseConstraint s.config (configRsize rs) s.initDraw.rbase) :
    ∃ q, initPlan s.config rs = some q ∧ exec (.init rs) s = .next (s.afterInit q) := by
  obtain ⟨q, hq, e⟩ := exec_init_of_valid hn hv
  obtain ⟨-, hsize, -⟩ := initPlan_geometry hv hq
  rw [← hsize] at hm hb
  refine ⟨q, hq, ?_⟩
  rw [e, claim_of_free h ho hm ha ((baseOk_iff _ _ _).mpr hb), State.commit_programHardware_eq]
  rfl

/-- Settles O17: the plan's device, registers and serializers, record by record. -/
theorem initCommitsTheDevice : Obligations.InitCommitsTheDevice := by
  unfold Obligations.InitCommitsTheDevice
  intro s rs hn hv h ho ha hm hb
  obtain ⟨q, hq, e⟩ := exec_init_of_free hn hv h ho ha hm hb
  obtain ⟨hslot, hsize, hnch⟩ := initPlan_geometry hv hq
  have plan := initPlan_cfg hv hq
  refine ⟨s.afterInit q, q.device s.initDraw.rbase, e, rfl, rfl, rfl, ?nch, hslot, hsize, rfl, ?chan, ?noChan,
    fun _ => rfl, rfl, ?divi, rfl, rfl, ?frame, ?enabled, ?disabled, ?marked, ?unmarked, rfl, rfl, rfl, rfl⟩
  case nch => rw [InitPlan.device_nch, hnch]
  case chan =>
    intro c r hr
    obtain ⟨hrec, ty, hty, hc⟩ := (plan c).1 r hr
    exact ⟨_, by rw [InitPlan.device_chan, hc, Option.map_some], freshChannel_fromRecord hrec hty⟩
  case noChan =>
    intro c hr
    rw [InitPlan.device_chan, (plan c).2 hr, Option.map_none]
  case divi =>
    intro r hr
    obtain ⟨hd, hle⟩ := initPlan_divi hv hq hr
    exact (clkdiv_field_toNat hle).trans hd
  case frame =>
    intro c
    rw [State.afterInit_ser]
    exact q.serializer_frame c (s.ser c)
  case enabled =>
    intro c r hr
    obtain ⟨-, ty, -, hc⟩ := (plan c).1 r hr
    rw [State.afterInit_ser, InitPlan.serializer_of_some hc]
    exact ⟨rfl, decide_eq_true_iff⟩
  case disabled =>
    intro c hr
    rw [State.afterInit_ser, InitPlan.serializer_of_none ((plan c).2 hr)]
    exact ⟨rfl, rfl⟩
  case marked =>
    intro c k hk
    rw [InitPlan.device_chan] at hk
    obtain ⟨cfg, hc, rfl⟩ := Option.map_eq_some_iff.mp hk
    rw [State.afterInit_ser, InitPlan.serializer_of_some hc]
    rfl
  case unmarked =>
    intro c hk
    rw [InitPlan.device_chan, Option.map_eq_none_iff] at hk
    rw [State.afterInit_ser, InitPlan.serializer_of_none hk]

/-- Settles O18: INIT1's record is written out, and what INIT commits from it is read off O17. -/
theorem initOneUsesTheDefaults : Obligations.InitOneUsesTheDefaults := by
  unfold Obligations.InitOneUsesTheDefaults
  intro s pin count bright
  have same : exec (.init1 pin count bright) s = exec (.init [⟨pin, count, bright, 0, 0, 800000⟩]) s := rfl
  refine ⟨same, fun hn hv h ho ha hm hb => ?_⟩
  obtain ⟨t, e, hx, hlife, -, hres, hnch, -, -, -, hchan, -⟩ := initCommitsTheDevice s _ hn hv h ho ha hm hb
  obtain ⟨k, hk, hrec⟩ := hchan .c0 _ rfl
  obtain rfl : e.ch0 = k := Option.some.inj hk
  refine ⟨t, e, same.trans hx, hlife, hres, hnch, hrec.pin, hrec.count, hrec.bright, ?_, ?_, hrec.freq, hrec.pix⟩
  · rw [← Bool.not_eq_true, hrec.invert]
    exact nofun
  · exact (Option.some.inj hrec.stype).symm

/-! ### FINI (R171, R172) -/

theorem exec_fini_of_not_active (h : ∀ d, s.life ≠ .active d) :
    exec .fini s = .next { s with result := ⟨.ok, 0⟩ } := by
  show execFini s = _
  unfold execFini
  split
  · rename_i d hl
    exact absurd hl (h d)
  · rfl

/-- Settles O19: the registers FINI writes, and RESULT alone without a device. -/
theorem finiReleasesTheDevice : Obligations.FiniReleasesTheDevice := by
  unfold Obligations.FiniReleasesTheDevice
  refine ⟨fun s d hl => ?_, fun s => exec_fini_of_not_active⟩
  refine ⟨_, execFini_active hl, ?_⟩
  rw [State.release_eq]
  exact ⟨rfl, rfl, rfl, rfl, rfl, rfl, fun c => by cases c <;> rfl, fun _ => rfl, rfl,
    ⟨rfl, rfl, rfl, rfl, rfl, rfl, rfl⟩⟩

/-! ### SETPIXEL, SETBITMAP and CLEAR (R173 to R178) -/

theorem Device.onlyPix_setPix (d : Device) (c : Chan) (p : List Word) : OnlyPix d (d.setPix c p) c p where
  this := by rw [Device.setPix_chan, if_pos rfl]
  other := fun e he => by rw [Device.setPix_chan, if_neg he]
  slot := Device.setPix_slot d c p
  rsize := Device.setPix_rsize d c p
  rbase := Device.setPix_rbase d c p

/-- Writing a buffer and RESULT leaves the hardware, the region and the port as they were (R174). -/
theorem keeps_of_life_result (s : State) (l : Life) (r : Result) :
    KeepsHardware s { s with life := l, result := r } ∧ KeepsMemory s { s with life := l, result := r } ∧
      KeepsPort s { s with life := l, result := r } :=
  ⟨⟨fun c => by cases c <;> rfl, rfl, rfl, rfl⟩, fun _ => rfl, ⟨rfl, rfl, rfl, rfl, rfl, rfl, rfl⟩⟩

variable {ch : Chan} {k : Channel}

theorem exec_setpixel_of_configured (hl : s.life = .active d) (hk : d.chan ch = some k) (index color : Word) :
    exec (.setpixel ch index color) s =
      if index.toNat < k.cfg.count then
        .next { s with life := .active (d.setPix ch (k.pix.set index.toNat color)), result := ⟨.ok, 0⟩ }
      else .next { s with result := ⟨.indexError, 0⟩ } := by
  simp only [exec, execSetpixel_active hl, hk]
  rfl

theorem exec_setbitmap_of_configured (hl : s.life = .active d) (hk : d.chan ch = some k) (colors : List Word) :
    exec (.setbitmap ch colors) s =
      if colors.length = k.cfg.count then .next { s with life := .active (d.setPix ch colors), result := ⟨.ok, 0⟩ }
      else .next { s with result := ⟨.lengthMismatchError, 0⟩ } := by
  simp only [exec, execSetbitmap_active hl, hk]
  rfl

theorem exec_clear_of_configured (hl : s.life = .active d) (hk : d.chan ch = some k) :
    exec (.clear ch) s =
      .next
        (State.renderBody { s with life := .active (d.setPix ch (List.replicate k.cfg.count 0)) }
          (d.setPix ch (List.replicate k.cfg.count 0))) := by
  simp only [exec, execClear_active hl, hk]
  rfl

theorem exec_render_of_active (hl : s.life = .active d) : exec .render s = .next (s.renderBody d) :=
  execRender_active hl

/-- Settles O20: the pixel's buffer is all SETPIXEL writes. -/
theorem setpixelWritesOnePixel : Obligations.SetpixelWritesOnePixel := by
  unfold Obligations.SetpixelWritesOnePixel
  intro s d ch index color k hl hk hi
  have hx := exec_setpixel_of_configured hl hk index color
  rw [if_pos hi] at hx
  exact ⟨_, _, hx, rfl, rfl, d.onlyPix_setPix ch _, rfl, keeps_of_life_result s _ _⟩

/-- Settles O21: each check that fails writes RESULT alone. -/
theorem bufferCommandErrors : Obligations.BufferCommandErrors := by
  unfold Obligations.BufferCommandErrors
  intro s d ch hl
  refine ⟨fun hk => ⟨fun index color => ?_, fun colors => ?_, ?_⟩,
    fun k hk => ⟨fun index color hi => ?_, fun colors hc => ?_⟩⟩
  · simp only [exec, execSetpixel_active hl, hk, State.report_eq]
  · simp only [exec, execSetbitmap_active hl, hk, State.report_eq]
  · simp only [exec, execClear_active hl, hk, State.report_eq]
  · rw [exec_setpixel_of_configured hl hk, if_neg (Nat.not_lt.mpr hi)]
  · rw [exec_setbitmap_of_configured hl hk, if_neg hc]

/-- Settles O22: the channel's buffer is all SETBITMAP writes. -/
theorem setbitmapReplacesTheBuffer : Obligations.SetbitmapReplacesTheBuffer := by
  unfold Obligations.SetbitmapReplacesTheBuffer
  intro s d ch colors k hl hk hc
  have hx := exec_setbitmap_of_configured hl hk colors
  rw [if_pos hc] at hx
  exact ⟨_, _, hx, rfl, rfl, d.onlyPix_setPix ch _, rfl, keeps_of_life_result s _ _⟩

/-! ### The render (R179 to R181) -/

/-- What a render reports turns on completion alone (R180). -/
theorem renderBody_result (s : State) (d : Device) :
    (s.renderBody d).result = if s.complete d then ⟨.ok, 0⟩ else ⟨.transmissionError, 0⟩ := by
  unfold State.renderBody
  split <;> rfl

theorem renderBody_code_iff (s : State) (d : Device) :
    (s.renderBody d).result.code = .transmissionError ↔ s.complete d = false := by
  rw [renderBody_result]
  cases s.complete d <;> simp

/-- Zeroing a buffer neither ends nor starts a transmission. -/
theorem complete_setPix (s : State) (d : Device) (c : Chan) (p : List Word) :
    State.complete { s with life := .active (d.setPix c p) } (d.setPix c p) = s.complete d :=
  State.complete_congr rfl rfl (Device.setPix_rbase d c p)

/-- A render leaves the device as it found it (R179, R180). -/
theorem renderBody_life (s : State) (d : Device) : (s.renderBody d).life = s.life := by
  unfold State.renderBody
  split
  · exact State.arm_life s d
  · rfl

/-- Settles O23: the render runs in the state with the buffer zeroed, and reports what completion was before. -/
theorem clearZeroesThenRenders : Obligations.ClearZeroesThenRenders := by
  unfold Obligations.ClearZeroesThenRenders
  intro s d ch k hl hk
  have result := renderBody_result { s with life := .active (d.setPix ch (List.replicate k.cfg.count 0)) }
    (d.setPix ch (List.replicate k.cfg.count 0))
  rw [complete_setPix] at result
  refine ⟨_, _, exec_clear_of_configured hl hk, renderBody_life _ _, d.onlyPix_setPix ch _, exec_render_of_active rfl,
    fun hc => ?_, fun hc => ?_⟩ <;> rw [result, hc] <;> rfl

/-- Settles O25: one render serves RENDER and CLEAR, and the zeroed buffer leaves completion as it was. -/
theorem renderInFlightIsRejected : Obligations.RenderInFlightIsRejected := by
  unfold Obligations.RenderInFlightIsRejected
  intro s d hl
  refine ⟨fun hc => ?_, fun t ht => ?_, fun ch k hk => ⟨fun hc => ⟨_, d.onlyPix_setPix ch _, ?_⟩, fun t ht => ?_⟩⟩
  · rw [exec_render_of_active hl, renderBody_inFlight hc]
  · cases (exec_render_of_active hl).symm.trans ht
    exact renderBody_code_iff s d
  · rw [exec_clear_of_configured hl hk, renderBody_inFlight ((complete_setPix s d ch _).trans hc)]
  · cases (exec_clear_of_configured hl hk).symm.trans ht
    rw [renderBody_code_iff, complete_setPix]

/-! ### The chain ARM writes, word by word (42_dma_sequencer.md R262 to R266) -/

section

variable {p : Config} {m : Memory}

theorem armMem_cb0 (hm : Memory.wf m) :
    wordsAt (d.armMem p m) d.rbase.toNat 8 =
      [0x00010140, d.rbase + 0x80, p.fif0Bus, BitVec.ofNat 32 (4 * d.ch0.words), 0,
        d.rbase + (if d.ch1.isSome then 0x20 else 0x40), 0, 0] := by
  have next : addrWord (d.afterData .c0) = d.rbase + (if d.ch1.isSome then 0x20 else 0x40) := by
    unfold Device.afterData Device.afterCb0
    cases d.ch1.isSome
    · exact addrWord_base d 0x40
    · exact addrWord_base d 0x20
  have h := armMem_data (p := p) hm (show d.chan .c0 = some d.ch0 from rfl)
  rw [dataBlock_words, slotAddr_c0, next] at h
  exact h

theorem armMem_cb1 (hm : Memory.wf m) (hk : d.ch1 = some k) :
    wordsAt (d.armMem p m) (d.rbase.toNat + 0x20) 8 =
      [0x00020140, d.rbase + 0x80 + BitVec.ofNat 32 (4 * d.slot), p.fif1Bus, BitVec.ofNat 32 (4 * k.words), 0,
        d.rbase + 0x40, 0, 0] := by
  have next : addrWord (d.afterData .c1) = d.rbase + 0x40 := addrWord_base d 0x40
  have h := armMem_data (p := p) hm (show d.chan .c1 = some k from hk)
  rw [dataBlock_words, slotAddr_c1, next] at h
  exact h

theorem armMem_cbt (hm : Memory.wf m) :
    wordsAt (d.armMem p m) (d.rbase.toNat + 0x40) 8 =
      [0x00000111, d.rbase + 0x60, d.rbase + 0x64, 4, 0, 0, 0, 0] := by
  have zero : addrWord d.zeroAddr = d.rbase + 0x60 := addrWord_base d 0x60
  have flag : addrWord d.cflagAddr = d.rbase + 0x64 := addrWord_base d 0x64
  have h := armMem_flag (d := d) (p := p) hm
  rw [flagBlock_words, zero, flag] at h
  exact h

theorem armMem_flags (hm : Memory.wf m) : wordsAt (d.armMem p m) (d.rbase.toNat + 0x60) 2 = [0, 1] := by
  have zero : Memory.readWord (d.armMem p m) (d.rbase.toNat + 0x60) = 0 := armMem_zero hm
  have flag : Memory.readWord (d.armMem p m) (d.rbase.toNat + 0x60 + 4) = 1 := armMem_cflag hm
  rw [Memory.wordsAt_succ, Memory.wordsAt_succ, Memory.wordsAt_zero, zero, flag]

end

/-- Settles O24: ARM's writes are all of RENDER when nothing is in flight. -/
theorem renderArmsTheChain : Obligations.RenderArmsTheChain := by
  unfold Obligations.RenderArmsTheChain
  intro s d hm hd hl he hc
  obtain ⟨-, ha⟩ := (State.complete_iff s d).mp hc
  have hx := exec_render_of_active hl
  rw [renderBody_complete hc, State.arm_eq s d ha he, State.report_eq] at hx
  refine ⟨_, hx, ?_⟩
  dsimp only [State.cflag]
  exact ⟨rfl, armMem_armed hm, fun c k hk => armMem_slot hd hm hk, armMem_cb0 hm, fun k hk => armMem_cb1 hm hk,
    armMem_cbt hm, armMem_flags hm, armMem_cflag hm, fun a h => armMem_outside hd hm h, rfl,
    fun c => by cases c <;> rfl, rfl, rfl, ⟨rfl, rfl⟩, ⟨rfl, rfl, rfl, rfl, rfl, rfl, rfl⟩⟩

/-! ### WAIT (R182 to R184) -/

/-- Drained says that no configured channel's FIFO holds a word (R184). -/
theorem State.drained_iff (s : State) (d : Device) :
    s.drained d = true ↔ ∀ c k, d.chan c = some k → (s.ser c).fifo = [] := by
  have chan : ∀ c, s.chanDrained d c = true ↔ ∀ k, d.chan c = some k → (s.ser c).fifo = [] := by
    intro c
    cases h : d.chan c <;> simp [State.chanDrained, h]
  rw [State.drained, Bool.and_eq_true, chan, chan]
  exact ⟨fun h c => by cases c; exacts [h.1, h.2], fun h => ⟨h .c0, h .c1⟩⟩

theorem exec_wait_of_result {r : Result} (hl : s.life = .active d) (h : s.waitResult d = some r) :
    exec .wait s = .next { s with result := r, waiting := false } := by
  simp only [exec, execWait_active hl, h]
  rfl

theorem exec_wait_of_none (hl : s.life = .active d) (h : s.waitResult d = none) :
    exec .wait s = .next { s with waiting := true } := by
  simp only [exec, execWait_active hl, h]
  rfl

/-- WAIT's tests in order, after completion has failed (R182, R183). -/
theorem State.waitResult_of_unfinished (h : ¬(s.complete d = true ∧ s.drained d = true)) :
    s.waitResult d =
      if s.dma.error then some ⟨.timeoutError, s.dma.errcause.setWidth 16⟩
      else if s.transportStuck d then some ⟨.timeoutError, 0⟩
      else none := by
  unfold State.waitResult
  rw [if_neg (by rwa [Bool.and_eq_true])]
  rfl

/-- Settles O26: completion and draining are WAIT's first test. -/
theorem waitReturnsWhenDrained : Obligations.WaitReturnsWhenDrained := by
  unfold Obligations.WaitReturnsWhenDrained
  intro s d hl hf ha hd
  refine exec_wait_of_result hl ?_
  unfold State.waitResult
  rw [if_pos (by rw [(State.complete_iff s d).mpr ⟨hf, ha⟩, (State.drained_iff s d).mpr hd]; rfl)]
  rfl

/-- Settles O27: an error comes before a stuck transport, and without either WAIT holds. -/
theorem waitTimesOutOrHolds : Obligations.WaitTimesOutOrHolds := by
  unfold Obligations.WaitTimesOutOrHolds
  intro s d hl hu
  have tests := State.waitResult_of_unfinished hu
  refine ⟨fun he => exec_wait_of_result hl ?_, fun he hs => exec_wait_of_result hl ?_,
    fun he hs => exec_wait_of_none hl ?_⟩
  · rw [tests, if_pos he]
  · rw [tests, if_neg (by rw [he]; exact Bool.false_ne_true), if_pos ((State.transportStuck_iff s d he).mpr hs)]
  · rw [tests, if_neg (by rw [he]; exact Bool.false_ne_true), if_neg (mt (State.transportStuck_iff s d he).mp hs)]

end

end Sys2Proof.Machine

/-! PROOFS. The statements of 41_bitstream_encoder.md: the scaled component, and a frame's lengths, its packing into words, its
low runs, and what it does not depend on. -/

namespace Sys2Proof.Machine

/-! ### The scaled component (R223) -/

theorem mul_div_255_le (v : Nat) {b : Nat} (hb : b ≤ 255) : v * b / 255 ≤ v :=
  Nat.div_le_of_le_mul (Nat.mul_comm 255 v ▸ Nat.mul_le_mul_left v hb)

/-- The quotient fits the byte. -/
theorem scale_toNat (v b : Byte) : (scale v b).toNat = v.toNat * b.toNat / 255 := by
  have hle := mul_div_255_le v.toNat (Nat.le_of_lt_succ b.isLt)
  rw [scale, BitVec.toNat_ofNat, Nat.mod_eq_of_lt (Nat.lt_of_le_of_lt hle v.isLt)]

theorem scale_full (v : Byte) : scale v 255 = v := by
  apply BitVec.eq_of_toNat_eq
  rw [scale_toNat]
  exact Nat.mul_div_cancel v.toNat (by decide : 0 < 255)

theorem scale_dark (v : Byte) : scale v 0 = 0 := by
  apply BitVec.eq_of_toNat_eq
  rw [scale_toNat]
  exact Nat.zero_div 255

theorem scale_comm (v b : Byte) : scale v b = scale b v := by
  rw [scale, scale, Nat.mul_comm]

/-- Settles O43: 0 and 255 are stated for the brightness, and the scale of R223 is symmetric. -/
theorem scaleBounds : Obligations.ScaleBounds := by
  unfold Obligations.ScaleBounds
  intro v b
  refine ⟨scale_toNat v b, ?_, scale_full v, scale_dark v, ?_, ?_⟩
  · rw [scale_toNat]
    exact mul_div_255_le _ (Nat.le_of_lt_succ b.isLt)
  · rw [scale_comm, scale_dark]
  · rw [scale_comm, scale_full]

/-! ### The frame (R226 to R233) -/

/-- Settles O44: the padding fills the last word, so the slots are those of the WORDS words. -/
theorem frameLengths : Obligations.FrameLengths := by
  unfold Obligations.FrameLengths
  intro pix cfg h
  obtain ⟨hfill, hpad⟩ := frame_fills_words h
  refine ⟨encodeFrame_length pix cfg, ?_, hfill, hpad, frameSlots_length h⟩
  rw [dataSlots_length, h, Nat.mul_assoc]

/-- Settles O45: the words are the packing of a slot list that fills them. -/
theorem slotsFillWordsFromTheTop : Obligations.SlotsFillWordsFromTheTop := by
  unfold Obligations.SlotsFillWordsFromTheTop
  intro pix cfg m h hm
  exact packWords_getElem? (frameWords cfg) (frameSlots pix cfg) m (frameSlots_length h) hm

/-- The reset code and the padding are one run of low slots. -/
theorem frameSlots_eq_data_append_low (pix : List Word) (cfg : ChannelConfig) :
    frameSlots pix cfg = dataSlots pix cfg ++ List.replicate (resetSlots cfg.freq + padSlots pix cfg) false := by
  rw [frameSlots, List.append_assoc, List.replicate_append_replicate]

/-- Settles O46: the data is the bit codes of the pixels' bits, and no two codes side by side have three low slots in a row. -/
theorem noLongLowRunInData : Obligations.NoLongLowRunInData := by
  unfold Obligations.NoLongLowRunInData
  intro pix cfg
  refine ⟨⟨pixBits pix cfg, dataSlots_eq_pixBits pix cfg⟩, fun b => ?_, fun i => ?_,
    ⟨_, Nat.le_add_right _ _, frameSlots_eq_data_append_low pix cfg⟩⟩
  · cases b <;> rfl
  · rw [dataSlots_eq_pixBits]
    exact bitcodes_no_low_run (pixBits pix cfg) i

/-! ### What a frame does not depend on (R222, R232) -/

/-- The frame reads the buffer through its data only. -/
theorem encodeFrame_congr_data {pix pix' : List Word} {cfg : ChannelConfig} (h : dataSlots pix cfg = dataSlots pix' cfg) :
    encodeFrame pix cfg = encodeFrame pix' cfg := by
  simp only [encodeFrame, frameSlots, padSlots, h]

/-- The bytes of a pixel of a 3-colour strip are components other than W. -/
theorem pixbytes_congr_of_three {c c' : Word} {cfg : ChannelConfig} (ht : stripNcol cfg.stype = 3)
    (h : c.toNat % 2 ^ 24 = c'.toNat % 2 ^ 24) : pixbytes c cfg = pixbytes c' cfg := by
  apply List.map_congr_left
  intro l hl
  rw [comp_congr h l (stripOrder_no_white ht l hl)]

/-- A 3-colour strip's data is that of the pixels cut to bits 23:0. -/
theorem dataSlots_lowBits {cfg : ChannelConfig} (ht : stripNcol cfg.stype = 3) (pix : List Word) :
    dataSlots ((pix.map (fun c => c.toNat % 2 ^ 24)).map (BitVec.ofNat 32)) cfg = dataSlots pix cfg := by
  have low : ∀ c : Word, pixbytes (BitVec.ofNat 32 (c.toNat % 2 ^ 24)) cfg = pixbytes c cfg := by
    intro c
    apply pixbytes_congr_of_three ht
    rw [BitVec.toNat_ofNat]
    omega
  simp only [dataSlots, List.flatMap_map, low]

/-- Settles O47: `invert` is no field that the encoder reads. -/
theorem darkFramesAndIgnoredBits : Obligations.DarkFramesAndIgnoredBits := by
  unfold Obligations.DarkFramesAndIgnoredBits
  refine ⟨fun _ _ => dataSlots_dark, fun pix pix' cfg ht h => encodeFrame_congr_data ?_, fun _ _ _ => rfl⟩
  rw [← dataSlots_lowBits ht pix, h, dataSlots_lowBits ht pix']

end Sys2Proof.Machine

/-! PROOFS. The statements of 42_dma_sequencer.md: LOAD check by check, XFER, NEXT, STALL and pacing, and the windows' writes.
Each turn of the sequencer has one lemma that says its next state, and the statements read their clauses off it. -/

namespace Sys2Proof.Machine

section

variable {s t : State}

/-! ### LOAD, by what it reads (R277, R278) -/

theorem step_load {ws : List Word} {i : Instr} (ht : s.turn = .dma) (hl : s.loadEnabled = true)
    (hf : s.fetchBlock = .ok ws) (hd : decode .block ws = .ok i) : step s = exec i s.dropTurn := by
  rw [step_of_dma ht]
  unfold State.dmaTurn
  simp only [State.dropTurn_loadEnabled, hl, if_true, State.dropTurn_fetchBlock, hf, hd, Fetch.outcome_run]

theorem step_load_stop {cause : BitVec 3} (ht : s.turn = .dma) (hl : s.loadEnabled = true)
    (hf : s.fetchBlock = .error cause) : step s = .next (s.dropTurn.stop cause) := by
  rw [step_of_dma ht]
  unfold State.dmaTurn
  simp only [State.dropTurn_loadEnabled, hl, if_true, State.dropTurn_fetchBlock, hf, Fetch.outcome_done]

theorem step_load_illegal {ws : List Word} {e : DecodeError} (ht : s.turn = .dma) (hl : s.loadEnabled = true)
    (hf : s.fetchBlock = .ok ws) (hd : decode .block ws = .error e) : step s = .next (s.dropTurn.loadIllegal ws) := by
  rw [step_of_dma ht]
  unfold State.dmaTurn
  simp only [State.dropTurn_loadEnabled, hl, if_true, State.dropTurn_fetchBlock, hf, hd, Fetch.outcome_done]

theorem State.fetchBlock_of_misaligned (h : s.dma.conblkAd.toNat % 32 ≠ 0) : s.fetchBlock = .error 1 := by
  unfold State.fetchBlock
  exact if_pos h

theorem State.fetchBlock_of_unreadable (ha : s.dma.conblkAd.toNat % 32 = 0)
    (hr : ∃ k < 6, s.readable (s.dma.conblkAd.toNat + 4 * k) = false) : s.fetchBlock = .error 2 := by
  obtain ⟨k, hk, hr⟩ := hr
  cases hf : s.fetchBlock with
  | ok ws =>
    obtain ⟨-, readable, -⟩ := State.fetchBlock_ok hf
    rw [readable k hk] at hr
    cases hr
  | error cause =>
    unfold State.fetchBlock at hf
    rw [if_neg (not_not.mpr ha)] at hf
    split at hf <;> cases hf
    rfl

theorem decodeBlock_of_reserved {ti src dst len stride nextcb : Word} (h : ti &&& tiReserved ≠ 0) :
    decodeBlock [ti, src, dst, len, stride, nextcb] = .error .reservedTi := if_pos h

theorem decodeBlock_of_clean {ti src dst len stride nextcb : Word} (h : ti &&& tiReserved = 0) :
    decodeBlock [ti, src, dst, len, stride, nextcb] =
      .ok (.cb ⟨TransferInfo.ofWord ti, src, dst, len, stride, nextcb⟩) := if_neg (not_not.mpr h)

/-- Settles O7: the words read are those at CONBLK_AD, and the decoder's instruction runs. -/
theorem stepRunsTheLoadedBlock : Obligations.StepRunsTheLoadedBlock := by
  unfold Obligations.StepRunsTheLoadedBlock
  intro s i ht ha hp hs hal hr hd
  exact step_load ht ((State.loadEnabled_iff s).mpr ⟨ha, hs, hp⟩) (State.fetchBlock_of_readable hal hr) hd

/-! ### LOAD of a block (R278 rows 3 and 4) -/

/-- The DMA window with the current-block registers loaded (R277). -/
def Dma.latched (x : Dma) (ti src dst len stride nextcb : Word) : Dma :=
  { x with ti := ti, sourceAd := src, destAd := dst, txfrLen := len, stride := stride, nextConbk := nextcb }

/-- The DMA window after the LOAD of a valid block (R277). -/
def Dma.loaded (x : Dma) (b : ControlBlock) : Dma :=
  { x.latched b.ti.toWord b.sourceAd b.destAd b.txfrLen b.stride b.nextConbk with dphase := .xfer }

theorem exec_cb_of_wellFormed {b : ControlBlock} (h : b.wellFormed = true) (s : State) :
    exec (.cb b) s = .next { s with dma := s.dma.loaded b } := by
  rcases execCb_cases b s with ⟨-, e⟩ | ⟨hw, -⟩
  · exact e
  · rw [h] at hw
    cases hw

theorem exec_cb_of_cause {b : ControlBlock} {cause : BitVec 3} (h : loadCause b = some cause) (s : State) :
    exec (.cb b) s =
      .next
        { s with
          dma :=
            (s.dma.latched b.ti.toWord b.sourceAd b.destAd b.txfrLen b.stride b.nextConbk).stoppedWith cause } := by
  simp only [exec, execCb, h]
  rfl

theorem loadCause_of_ti {b : ControlBlock} (h : ¬tiOk b.ti = true) : loadCause b = some 3 := by
  simp [loadCause, h]

theorem loadCause_of_lengths {b : ControlBlock} (ht : tiOk b.ti = true) (hl : ¬lengthsOk b = true) :
    loadCause b = some 4 := by
  simp [loadCause, ht, hl]

/-- Settles O28: the LOAD of a valid block writes the DMA window only. -/
theorem loadOfAValidBlockEntersXfer : Obligations.LoadOfAValidBlockEntersXfer := by
  unfold Obligations.LoadOfAValidBlockEntersXfer
  intro s b hb
  exact ⟨_, exec_cb_of_wellFormed hb s, rfl, fun c => by cases c <;> rfl, rfl, rfl, rfl, fun _ => rfl, ⟨rfl, rfl⟩,
    ⟨rfl, rfl, rfl, rfl, rfl, rfl, rfl⟩⟩

/-- Settles O29: a reserved TI bit makes the words no instruction; any other words are a block, whose TI is tested before its
lengths and addresses. -/
theorem loadChecksInOrder : Obligations.LoadChecksInOrder := by
  unfold Obligations.LoadChecksInOrder
  intro s ti src dst len stride nextcb ht ha hp hs
  have hl := (State.loadEnabled_iff s).mpr ⟨ha, hs, hp⟩
  refine ⟨fun hm => step_load_stop ht hl (State.fetchBlock_of_misaligned hm),
    fun hal hr => step_load_stop ht hl (State.fetchBlock_of_unreadable hal hr), fun hal hr hw => ?_⟩
  have hf := State.fetchBlock_of_readable hal hr
  rw [hw] at hf
  have run : ti &&& tiReserved = 0 →
      step s = exec (.cb ⟨TransferInfo.ofWord ti, src, dst, len, stride, nextcb⟩) s.dropTurn :=
    fun hz => step_load ht hl hf (decodeBlock_of_clean hz)
  refine ⟨s.dma.latched ti src dst len stride nextcb, rfl, fun hbad => ?_, fun hz hmap hline hbad => ?_, fun hv => ?_⟩
  · by_cases hz : ti &&& tiReserved = 0
    · have hti : ¬tiOk (TransferInfo.ofWord ti) = true := by
        rw [tiOk_ofWord]
        rintro ⟨hmap, hline⟩
        rcases hbad with hbad | hbad | hbad
        · exact hbad hz
        · omega
        · exact hline hbad
      rw [run hz, exec_cb_of_cause (loadCause_of_ti hti), toWord_ofWord hz]
      rfl
    · exact step_load_illegal ht hl hf (decodeBlock_of_reserved hz)
  · have hlen : ¬lengthsOk ⟨TransferInfo.ofWord ti, src, dst, len, stride, nextcb⟩ = true := by
      rw [lengthsOk_iff]
      dsimp only
      omega
    rw [run hz, exec_cb_of_cause (loadCause_of_lengths ((tiOk_ofWord ti).mpr ⟨hmap, hline⟩) hlen), toWord_ofWord hz]
    rfl
  · obtain ⟨hz, hmap, hline, hlen⟩ := hv
    have hb := (controlBlock_wellFormed_iff ⟨TransferInfo.ofWord ti, src, dst, len, stride, nextcb⟩).mpr
      ⟨(tiOk_ofWord ti).mpr ⟨hmap, hline⟩, (lengthsOk_iff _).mpr hlen⟩
    rw [run hz, exec_cb_of_wellFormed hb, Dma.loaded, toWord_ofWord hz]
    rfl

/-! ### XFER (R279) -/

theorem State.pushFifo_of_room {c : Chan} (h : (s.ser c).fifo.length < s.config.fifoDepth) (v : Word) :
    s.pushFifo c v = s.setSer c { s.ser c with fifo := (s.ser c).fifo ++ [v] } := if_pos h

theorem State.pushFifo_of_full {c : Chan} (h : s.config.fifoDepth ≤ (s.ser c).fifo.length) (v : Word) :
    s.pushFifo c v = s.setSer c { s.ser c with werr := true } := if_neg (Nat.not_lt.mpr h)

/-- A push changes one serializer only (10_state.md R35). -/
theorem State.pushFifo_frame (s : State) (c : Chan) (v : Word) :
    (s.pushFifo c v).mem = s.mem ∧ (s.pushFifo c v).result = s.result ∧ (s.pushFifo c v).argq = s.argq ∧
      ∀ c', c' ≠ c → (s.pushFifo c v).ser c' = s.ser c' := by
  rcases State.pushFifo_cases s c v with ⟨-, e⟩ | ⟨-, e⟩ <;> rw [e] <;>
    exact ⟨by simp, by simp, by simp, fun c' hc => State.setSer_ser_ne _ _ hc⟩

theorem State.deliver_of_memory (h0 : s.dma.destAd ≠ s.config.fif0Bus) (h1 : s.dma.destAd ≠ s.config.fif1Bus)
    (v : Word) : s.deliver v = { s with mem := Memory.writeWord s.mem s.dma.destAd.toNat v } := by
  unfold State.deliver
  rw [if_neg h0, if_neg h1]
  rfl

theorem State.deliver_result_argq (s : State) (v : Word) :
    (s.deliver v).result = s.result ∧ (s.deliver v).argq = s.argq := by
  rcases State.deliver_cases s v with ⟨c, -, e⟩ | ⟨-, -, e⟩ <;> rw [e]
  · obtain ⟨-, hr, ha, -⟩ := s.pushFifo_frame c v
    exact ⟨hr, ha⟩
  · exact ⟨rfl, rfl⟩

theorem State.xfer_of_unmapped (h : s.readable s.dma.sourceAd.toNat = false ∨ s.writable s.dma.destAd.toNat = false) :
    s.xfer = s.stop 2 := by
  rcases State.xfer_cases s with ⟨-, e⟩ | ⟨hr, hw, -⟩
  · exact e
  · rw [hr, hw] at h
    simp at h

theorem State.xfer_of_mapped (hr : s.readable s.dma.sourceAd.toNat = true) (hw : s.writable s.dma.destAd.toNat = true) :
    s.xfer = (s.deliver (Memory.readWord s.mem s.dma.sourceAd.toNat)).setDma s.dma.advance := by
  rcases State.xfer_cases s with ⟨h, -⟩ | ⟨-, -, e⟩
  · rw [hr, hw] at h
    simp at h
  · exact e

/-- Settles O30: the destination decides between a push and a word of the region. -/
theorem xferMovesOneWord : Obligations.XferMovesOneWord := by
  unfold Obligations.XferMovesOneWord
  intro s hm ht hx
  rw [step_xfer ht hx]
  refine ⟨fun h => by rw [State.xfer_of_unmapped (s := s.dropTurn) h]; rfl, fun hr hw => ⟨_, rfl, ?_⟩⟩
  have frame := (AgentFrame.dropTurn s).trans (.xfer s.dropTurn)
  have kept := s.dropTurn.deliver_result_argq (Memory.readWord s.mem s.dma.sourceAd.toNat)
  have e := State.xfer_of_mapped (s := s.dropTurn) hr hw
  refine ⟨by rw [e]; rfl, by rw [e]; exact kept.1, frame.waiting, by rw [e]; exact kept.2, frame.dmac, frame.clk,
    ⟨frame.life, frame.owned⟩, fun c hb hc => ?_, fun h0 h1 => ?_⟩
  · rw [e, State.deliver_bus (s := s.dropTurn) _ hb hc]
    obtain ⟨hmem, -, -, hother⟩ := s.dropTurn.pushFifo_frame c (Memory.readWord s.mem s.dma.sourceAd.toNat)
    refine ⟨fun a => congrArg (Memory.read · a) hmem, fun c' hne => ?_, fun hroom => ?_, fun hfull => ?_⟩
    · simpa using hother c' hne
    · rw [State.pushFifo_of_room (s := s.dropTurn) (by simpa using hroom)]
      simp
    · rw [State.pushFifo_of_full (s := s.dropTurn) (by simpa using hfull)]
      simp
  · rw [e, State.deliver_of_memory (s := s.dropTurn) h0 h1]
    exact ⟨fun c => by cases c <;> rfl, Memory.readWord_writeWord_same hm _ _,
      fun a ha => Memory.read_writeWord_of_outside hm _ ha⟩

/-! ### NEXT (R281) -/

theorem State.nextBlock_of_last (h : s.dma.nextConbk = 0) :
    s.nextBlock =
      { s with
        dma := { s.dma with int := s.dma.int || s.dma.ti.getLsbD 0, active := false, ended := true, dphase := .idle } } :=
  if_pos h

theorem State.nextBlock_of_more (h : s.dma.nextConbk ≠ 0) :
    s.nextBlock =
      { s with
        dma := { s.dma with int := s.dma.int || s.dma.ti.getLsbD 0, conblkAd := s.dma.nextConbk, dphase := .load } } :=
  if_neg h

/-- Settles O31: NEXTCONBK decides between the chain's end and its next block. -/
theorem nextEndsOrFollowsTheChain : Obligations.NextEndsOrFollowsTheChain := by
  unfold Obligations.NextEndsOrFollowsTheChain
  intro s ht ha hs hp hl
  rw [step_next ht ((State.nextEnabled_iff s).mpr ⟨ha, hs, hp, hl⟩)]
  exact ⟨fun h => by rw [State.nextBlock_of_last (s := s.dropTurn) h]; rfl,
    fun h => by rw [State.nextBlock_of_more (s := s.dropTurn) h]; rfl⟩

/-! ### STALL and pacing (R275, R280, R283) -/

theorem step_stall (ht : s.turn = .stall) (h : s.stallEnabled = true) : step s = .next s.dropTurn.stall := by
  rw [step_of_stall ht]
  unfold State.stallTurn
  rw [State.dropTurn_stallEnabled, if_pos h]

/-- A sequencer that is not in a chain, or is stalled, takes no step (R275). -/
theorem step_of_not_live (ht : s.turn = .dma) (h : s.dmaLive = false) : step s = .next s.dropTurn :=
  step_dma_rest ht (by simp [State.loadEnabled, h]) (by simp [State.xferEnabled, h]) (by simp [State.nextEnabled, h])

/-- No turn of a healthy launch stalls the sequencer. -/
theorem DmaEffect.not_stalled {x y : Dma} (h : DmaEffect true x y) (hx : x.stalled = false) : y.stalled = false := by
  cases h with
  | stalled ha hs hh => cases hh
  | cleared => rfl
  | _ => exact hx

/-- Settles O32: STALL is the one turn that sets STALLED, and it needs an unhealthy launch. -/
theorem stallOnlyWhenUnhealthy : Obligations.StallOnlyWhenUnhealthy := by
  unfold Obligations.StallOnlyWhenUnhealthy
  refine ⟨fun s ht ha hs hh => step_stall ht ((State.stallEnabled_iff s).mpr ⟨ha, hs, hh⟩),
    fun s ht hs => step_of_not_live ht (by simp [State.dmaLive, hs]), fun s t hh hs h => ?_⟩
  have effect := step_dma_effect h
  rw [hh] at effect
  exact effect.not_stalled hs

/-- Settles O33: the block's PERMAP names the one line that could ask for a word. -/
theorem pacedTransferWaits : Obligations.PacedTransferWaits := by
  unfold Obligations.PacedTransferWaits
  refine ⟨fun s c ht ha hp hl hpaced hline hidle => ?_, fun s ht ha => step_of_not_live ht (by simp [State.dmaLive, ha])⟩
  have quiet : ¬s.lineDreq = true := by
    rw [State.lineDreq, State.info, (requestLine_iff s.dma.ti c).mpr hline]
    dsimp only
    rw [State.dreq_iff]
    rintro ⟨hd, hroom⟩
    rcases hidle with hidle | hidle
    · rw [hd] at hidle
      cases hidle
    · omega
  refine step_dma_rest ht (loadEnabled_of_xfer hp) ?_ ?_
  · rw [← Bool.not_eq_true, State.xferEnabled_iff]
    rintro ⟨-, -, -, -, paced⟩
    exact quiet (paced hpaced)
  · rw [← Bool.not_eq_true, State.nextEnabled_iff]
    rintro ⟨-, -, -, hz⟩
    exact hl hz

end

/-! ### Writes of the windows by offset (10_state.md R31 to R39, R48) -/

section

variable {s : State} {v : Word} {offset : Nat}

theorem pwmWrite_reserved (h : offset ∉ [0x00, 0x04, 0x08, 0x18, 0x28]) : pwmWrite offset v s = s := by
  unfold pwmWrite
  split <;> first | rfl | exact absurd (by decide) h

theorem clkWrite_reserved (h : offset ∉ [0x00, 0x04]) : clkWrite offset v s = s := by
  unfold clkWrite
  split <;> first | rfl | exact absurd (by decide) h

theorem dmaWrite_reserved (h : offset ∉ [0x00, 0x04]) : dmaWrite offset v s = s := by
  unfold dmaWrite
  split <;> first | rfl | exact absurd (by decide) h

theorem pwmWrite_fifo (c : Chan) : pwmWrite (0x18 + 16 * c.toNat) v s = s.pushFifo c v := by cases c <;> rfl

/-- A write of CS without RESET that starts nothing: END and INT alone are cleared (42_dma_sequencer.md R276). -/
theorem Dma.writeCs_of_not_starting {x : Dma} (h31 : v.getLsbD 31 = false)
    (h : v.getLsbD 0 = false ∨ x.active = true ∨ x.error = true) :
    x.writeCs v = { x with ended := x.ended && !v.getLsbD 1, int := x.int && !v.getLsbD 2 } := by
  rcases h with h | h | h <;>
    simp only [Dma.writeCs, Dma.start, h31, h, Bool.false_eq_true, if_false, Bool.true_or, Bool.or_true, if_true, ite_self]

theorem Dma.writeCs_of_starting {x : Dma} (h31 : v.getLsbD 31 = false) (h0 : v.getLsbD 0 = true)
    (ha : x.active = false) (he : x.error = false) :
    x.writeCs v =
      { x with ended := x.ended && !v.getLsbD 1, int := x.int && !v.getLsbD 2, active := true, dphase := .load } := by
  simp only [Dma.writeCs, Dma.start, h31, h0, ha, he, Bool.false_eq_true, if_false, Bool.or_false, if_true]

/-- Bits 23:12 of a word (10_state.md R37). -/
theorem extractLsb'_divi (v : Word) : v.extractLsb' 12 12 = BitVec.ofNat 12 (v.toNat / 4096) := by
  apply BitVec.eq_of_toNat_eq
  simp [BitVec.extractLsb'_toNat, Nat.shiftRight_eq_div_pow]

end

/-- Settles O40, offset by offset. -/
theorem registerWriteRules : Obligations.RegisterWriteRules := by
  unfold Obligations.RegisterWriteRules
  intro s v
  have reset : v.toNat < 2 ^ 31 → v.getLsbD 31 = false := fun h => Nat.testBit_lt_two_pow h
  refine ⟨rfl, rfl, rfl, fun c => ?_, fun _ => pwmWrite_reserved, rfl, fun hb => ?_, fun hb => ?_,
    fun _ => clkWrite_reserved, fun ha => ?_, fun ha => ?_, fun hv h => ?_, fun hv h0 ha he => ?_, rfl,
    fun _ => dmaWrite_reserved⟩
  · rw [pwmWrite_fifo]
    exact ⟨fun h => State.pushFifo_of_room h v, fun h => State.pushFifo_of_full h v⟩
  · exact if_pos hb
  · rw [← extractLsb'_divi]
    exact if_neg (by simp [hb])
  · exact if_pos ha
  · exact if_neg (by simp [ha])
  · exact congrArg s.setDma (Dma.writeCs_of_not_starting (reset hv) h)
  · exact congrArg s.setDma (Dma.writeCs_of_starting (reset hv) h0 ha he)

end Sys2Proof.Machine

/-! PROOFS. The chain ARM builds (42_dma_sequencer.md section 4). On an armed chain the sequencer stands at one of five kinds of
points (`OnChain`) and takes one of six steps from them (`ChainStep`); the chain's invariant and its step counts are read
off those. -/

namespace Sys2Proof.Machine

/-! ### The blocks of a chain (R262, R265, R266) -/

section

variable {p : Config} {d : Device} {m : Memory} {c : Chan} {k : Channel}

/-- The FIFO registers are word aligned and distinct (93_implementation_defined.md section 1.3). -/
theorem Config.wf_fifBus (h : p.wf = true) : (∀ c, (fifBus p c).toNat % 4 = 0) ∧ p.fif0Bus ≠ p.fif1Bus := by
  simp only [Config.wf, Bool.and_eq_true, decide_eq_true_eq] at h
  obtain ⟨⟨⟨-, h0⟩, h1⟩, hne⟩ := h
  exact ⟨fun c => by cases c; exacts [h0, h1], hne⟩

theorem Device.cbAddr_bound (d : Device) (c : Chan) : d.rbase.toNat ≤ d.cbAddr c ∧ d.cbAddr c + 0x20 ≤ d.cbtAddr := by
  unfold Device.cbtAddr
  cases c <;> simp only [Device.cbAddr] <;> omega

/-- The block after a data block is CB1, or the terminal block (R262). -/
theorem Device.afterData_cases (d : Device) (c : Chan) :
    (∃ k, d.ch1 = some k ∧ c = .c0 ∧ d.afterData c = d.cbAddr .c1) ∨
      ((c = .c0 → d.ch1 = none) ∧ d.afterData c = d.cbtAddr) := by
  cases c with
  | c0 =>
    unfold Device.afterData Device.afterCb0
    cases h : d.ch1 with
    | none => exact .inr ⟨fun _ => rfl, rfl⟩
    | some k => exact .inl ⟨k, rfl, rfl, rfl⟩
  | c1 => exact .inr ⟨nofun, rfl⟩

theorem afterData_ne_zero (hd : d.wf p) (c : Chan) : addrWord (d.afterData c) ≠ 0 := by
  intro h
  have h := congrArg BitVec.toNat h
  rcases d.afterData_cases c with ⟨k, -, -, e⟩ | ⟨-, e⟩ <;> rw [e] at h
  · rw [cbAddr_toNat hd] at h
    cases h
  · rw [cbtAddr_toNat hd] at h
    cases h

/-- A data slot is word aligned and ends inside the 32-bit space. -/
theorem slotAddr_facts (hd : d.wf p) (hk : d.chan c = some k) :
    d.slotAddr c % 4 = 0 ∧ d.slotAddr c + 4 * k.words ≤ d.rbase.toNat + d.rsize ∧ d.rbase.toNat + 0x80 ≤ d.slotAddr c ∧
      d.rbase.toNat + d.rsize ≤ 2 ^ 32 := by
  obtain ⟨hal, -, hend, -⟩ := Device.base_facts hd
  obtain ⟨hlow, hhigh, -⟩ := Device.slotAddr_bound hd hk
  have hw := Device.words_le_slot hd hk
  refine ⟨?_, by omega, hlow, hend⟩
  cases c <;> simp only [Device.slotAddr, Chan.toNat] <;> omega

/-- ARM's data blocks are valid. -/
theorem dataBlock_wellFormed (hp : p.wf = true) (hd : d.wf p) (hk : d.chan c = some k) (n : Nat) :
    (d.dataBlock p c k n).wellFormed = true := by
  obtain ⟨hal, hin, hlow, hend⟩ := slotAddr_facts hd hk
  have hpos := Device.words_pos hd hk
  rw [controlBlock_wellFormed_iff, lengthsOk_iff]
  refine ⟨by cases c <;> rfl, ?_, ?_, rfl, ?_, (Config.wf_fifBus hp).1 c⟩
  · show (BitVec.ofNat 32 (4 * k.words)).toNat ≠ 0
    rw [BitVec.toNat_ofNat]
    omega
  · show (BitVec.ofNat 32 (4 * k.words)).toNat % 4 = 0
    rw [BitVec.toNat_ofNat]
    omega
  · show (addrWord (d.slotAddr c)).toNat % 4 = 0
    rw [addrWord_toNat (by omega)]
    exact hal

/-- The fixed words of the region lie inside the 32-bit space, word aligned and clear of the FIFO registers. -/
theorem zeroAddr_toNat (hd : d.wf p) : (addrWord d.zeroAddr).toNat = d.zeroAddr := by
  obtain ⟨-, -, hend, -⟩ := Device.base_facts hd
  have hsize := Device.rsize_ge hd
  exact addrWord_toNat (by unfold Device.zeroAddr; omega)

theorem cflagAddr_toNat (hd : d.wf p) : (addrWord d.cflagAddr).toNat = d.cflagAddr := by
  obtain ⟨-, -, hend, -⟩ := Device.base_facts hd
  have hsize := Device.rsize_ge hd
  exact addrWord_toNat (by unfold Device.cflagAddr; omega)

theorem cflagAddr_ne_fifBus (hd : d.wf p) (c : Chan) : addrWord d.cflagAddr ≠ fifBus p c := by
  intro h
  have e := cflagAddr_toNat hd
  obtain ⟨-, -, -, h0, h1⟩ := Device.base_facts hd
  have hsize := Device.rsize_ge hd
  rw [h] at e
  unfold Device.cflagAddr at e
  cases c <;> simp only [fifBus] at e <;> omega

/-- ARM's terminal block is valid. -/
theorem flagBlock_wellFormed (hd : d.wf p) : d.flagBlock.wellFormed = true := by
  obtain ⟨hal, -⟩ := Device.base_facts hd
  rw [controlBlock_wellFormed_iff, lengthsOk_iff]
  refine ⟨rfl, ?_⟩
  show (4#32).toNat ≠ 0 ∧ (4#32).toNat % 4 = 0 ∧ (0#32).toNat = 0 ∧ (addrWord d.zeroAddr).toNat % 4 = 0 ∧
    (addrWord d.cflagAddr).toNat % 4 = 0
  rw [zeroAddr_toNat hd, cflagAddr_toNat hd]
  unfold Device.zeroAddr Device.cflagAddr
  refine ⟨by decide, by decide, by decide, by omega, by omega⟩

/-- The chain stays armed when CFLAG is written (R268). -/
theorem Armed.writeFlag (h : Armed p d m) (hm : Memory.wf m) (v : Word) :
    Armed p d (Memory.writeWord m d.cflagAddr v) where
  data := fun c k hk => by
    have hb := d.cbAddr_bound c
    unfold Device.cbtAddr at hb
    rw [blockAt, Memory.wordsAt_writeWord_of_apart hm v (by unfold Device.cflagAddr; omega)]
    exact h.data c k hk
  flag := by
    rw [blockAt, Memory.wordsAt_writeWord_of_apart hm v (by unfold Device.cbtAddr Device.cflagAddr; omega)]
    exact h.flag
  zero := by
    rw [Memory.readWord_writeWord_of_apart hm v (by unfold Device.zeroAddr Device.cflagAddr; omega)]
    exact h.zero

/-! ### A block in transfer (R279) -/

variable {x : Dma} {n : Nat}

/-- The fields of a data block's TI (R265). -/
theorem InData.info (h : InData p d x c k n) :
    TransferInfo.ofWord x.ti = ⟨false, false, true, true, BitVec.ofNat 5 (c.toNat + 1)⟩ := by
  obtain ⟨-, -, -, -, hti, -⟩ := h
  rw [hti, ofWord_toWord]
  rfl

/-- The fields of the terminal block's TI (R266). -/
theorem InFlag.info (h : InFlag d x n) : TransferInfo.ofWord x.ti = ⟨true, true, false, true, 0⟩ := by
  obtain ⟨-, -, -, hti, -⟩ := h
  rw [hti, ofWord_toWord]
  rfl

theorem InData.phase (h : InData p d x c k n) : x.dphase = .xfer := by
  obtain ⟨hp, -⟩ := h
  exact hp

theorem InData.nextConbk (h : InData p d x c k n) : x.nextConbk = addrWord (d.afterData c) := by
  obtain ⟨-, -, -, -, -, -, -, hnext, -⟩ := h
  exact hnext

theorem InData.txfrLen_toNat (hd : d.wf p) (h : InData p d x c k n) : x.txfrLen.toNat = 4 * n := by
  obtain ⟨-, hk, hn, -, -, -, -, -, hlen, -⟩ := h
  obtain ⟨-, hin, hlow, hend⟩ := slotAddr_facts hd hk
  rw [hlen, BitVec.toNat_ofNat]
  omega

theorem InFlag.txfrLen_toNat (h : InFlag d x n) : x.txfrLen.toNat = 4 * n := by
  obtain ⟨-, hn, -, -, -, -, hlen, -⟩ := h
  rw [hlen, BitVec.toNat_ofNat]
  omega

theorem InData.sourceAd_toNat (hd : d.wf p) (h : InData p d x c k (n + 1)) :
    x.sourceAd.toNat = d.slotAddr c + 4 * (k.words - (n + 1)) := by
  obtain ⟨-, hk, hn, -, -, -, -, -, -, hsrc⟩ := h
  obtain ⟨-, hin, hlow, hend⟩ := slotAddr_facts hd hk
  rw [hsrc, addrWord_toNat (by omega)]

theorem InData.of_load (hk : d.chan c = some k) (hx : x.conblkAd = addrWord (d.cbAddr c)) :
    InData p d (x.loaded (d.dataBlock p c k (d.afterData c))) c k k.words :=
  ⟨rfl, hk, Nat.le_refl _, hx, rfl, rfl, rfl, rfl, rfl, by rw [Nat.sub_self]; rfl⟩

theorem InFlag.of_load (hx : x.conblkAd = addrWord d.cbtAddr) : InFlag d (x.loaded d.flagBlock) 1 :=
  ⟨rfl, Nat.le_refl _, hx, rfl, rfl, rfl, rfl, fun _ => ⟨rfl, rfl⟩⟩

theorem ofNat_four_mul_succ_sub (n : Nat) : BitVec.ofNat 32 (4 * (n + 1)) - 4#32 = BitVec.ofNat 32 (4 * n) := by
  rw [Nat.mul_succ, BitVec.ofNat_add, BitVec.add_sub_cancel]

theorem InData.advance (h : InData p d x c k (n + 1)) : InData p d x.advance c k n := by
  have hinfo := h.info
  obtain ⟨hp, hk, hn, hx, hti, hstride, hdst, hnext, hlen, hsrc⟩ := h
  refine ⟨hp, hk, Nat.le_of_succ_le hn, hx, hti, hstride, ?_, hnext, ?_, ?_⟩
  · simp only [Dma.advance, hinfo, Bool.false_eq_true, if_false, hdst]
  · simp only [Dma.advance, hlen, ofNat_four_mul_succ_sub]
  · simp only [Dma.advance, hinfo, if_true, hsrc, addrWord]
    rw [← BitVec.ofNat_add]
    congr 1
    omega

theorem InFlag.advance (h : InFlag d x 1) : InFlag d x.advance 0 := by
  obtain ⟨hp, -, hx, hti, hstride, hnext, hlen, -⟩ := h
  refine ⟨hp, Nat.zero_le _, hx, hti, hstride, hnext, ?_, nofun⟩
  simp only [Dma.advance, hlen]
  rfl

/-! ### The points of a chain and the steps between them -/

/-- Where the sequencer x of a device with the region m stands: at rest with CFLAG = 0, about to load a data block or the
terminal block, or in one of them with n words to move. -/
inductive OnChain (p : Config) (d : Device) (m : Memory) (x : Dma) : Prop
  | rest (ha : x.active = false) (hp : x.dphase = .idle) (hf : Memory.readWord m d.cflagAddr = 0)
  | atData (c : Chan) (k : Channel) (hk : d.chan c = some k) (ha : x.active = true) (hm : Armed p d m)
      (hp : x.dphase = .load) (hx : x.conblkAd = addrWord (d.cbAddr c))
  | atFlag (ha : x.active = true) (hm : Armed p d m) (hp : x.dphase = .load) (hx : x.conblkAd = addrWord d.cbtAddr)
  | inData (c : Chan) (k : Channel) (n : Nat) (ha : x.active = true) (hm : Armed p d m) (h : InData p d x c k n)
  | inFlag (n : Nat) (ha : x.active = true) (hm : Armed p d m) (h : InFlag d x n)
      (hf : n = 0 → Memory.readWord m d.cflagAddr = 0)

/-- The chain's invariant at an active device: its parts, without LIFE. -/
structure Chained (s : State) (d : Device) : Prop where
  error : s.dma.error = false
  device : d.wf s.config
  clock : s.clockRuns = true
  dmac : s.dmac = true
  pwen : ∀ c k, d.chan c = some k → (s.ser c).pwen = true
  point : OnChain s.config d s.mem s.dma

variable {s t : State}

theorem chainInv_active (hl : s.life = .active d) : ChainInv s ↔ Chained s d := by
  unfold ChainInv
  rw [hl]
  dsimp only
  constructor
  · rintro ⟨he, hd, hclk, hdmac, hpwen, h⟩
    refine ⟨he, hd, hclk, hdmac, hpwen, ?_⟩
    cases ha : s.dma.active <;> rw [ha] at h
    · exact .rest ha h.1 h.2
    · obtain ⟨hm, ⟨hp, ⟨c, k, hk, hx⟩ | hx⟩ | ⟨c, k, n, h⟩ | ⟨n, h, hf⟩⟩ := h
      · exact .atData c k hk ha hm hp hx
      · exact .atFlag ha hm hp hx
      · exact .inData c k n ha hm h
      · exact .inFlag n ha hm h hf
  · rintro ⟨he, hd, hclk, hdmac, hpwen, h⟩
    refine ⟨he, hd, hclk, hdmac, hpwen, ?_⟩
    cases h with
    | rest ha hp hf => rw [ha]; exact ⟨hp, hf⟩
    | atData c k hk ha hm hp hx => rw [ha]; exact ⟨hm, .inl ⟨hp, .inl ⟨c, k, hk, hx⟩⟩⟩
    | atFlag ha hm hp hx => rw [ha]; exact ⟨hm, .inl ⟨hp, .inr hx⟩⟩
    | inData c k n ha hm h => rw [ha]; exact ⟨hm, .inr (.inl ⟨c, k, n, h⟩)⟩
    | inFlag n ha hm h hf => rw [ha]; exact ⟨hm, .inr (.inr ⟨n, h, hf⟩)⟩

/-- The invariant reads the clock, data requests, the serializers' enables, the region and the sequencer. -/
theorem Chained.congr (h : Chained s d) (hconfig : t.config = s.config) (hclk : t.clk = s.clk) (hdmac : t.dmac = s.dmac)
    (hpwen : ∀ c, (t.ser c).pwen = (s.ser c).pwen) (he : t.dma.error = s.dma.error)
    (hx : OnChain s.config d t.mem t.dma) : Chained t d where
  error := he.trans h.error
  device := hconfig ▸ h.device
  clock := by
    unfold State.clockRuns
    rw [hclk]
    exact h.clock
  dmac := hdmac.trans h.dmac
  pwen := fun c k hk => (hpwen c).trans (h.pwen c k hk)
  point := hconfig ▸ hx

theorem Chained.of_frame (h : Chained s d) (hf : AgentFrame s t) (he : t.dma.error = s.dma.error)
    (hx : OnChain s.config d t.mem t.dma) : Chained t d :=
  h.congr hf.config hf.clk hf.dmac (fun c => (hf.ser c).1) he hx

theorem Chained.setLifeResult (h : Chained s d) (l : Life) (r : Result) :
    Chained { s with life := l, result := r } d :=
  h.congr rfl rfl rfl (fun c => by cases c <;> rfl) rfl h.point

/-- The step the sequencer takes from each point of an armed chain, with the state it leaves (R277, R279, R281). -/
inductive ChainStep (s : State) (d : Device) : State → Prop
  | loadData (c : Chan) (k : Channel) (hk : d.chan c = some k) (hp : s.dma.dphase = .load)
      (hx : s.dma.conblkAd = addrWord (d.cbAddr c)) :
      ChainStep s d (s.setDma (s.dma.loaded (d.dataBlock s.config c k (d.afterData c))))
  | loadFlag (hp : s.dma.dphase = .load) (hx : s.dma.conblkAd = addrWord d.cbtAddr) :
      ChainStep s d (s.setDma (s.dma.loaded d.flagBlock))
  /-- A word of the slot is pushed; the FIFO had room for it (R280). -/
  | push (c : Chan) (k : Channel) (n : Nat) (h : InData s.config d s.dma c k (n + 1))
      (hroom : (s.ser c).fifo.length < s.config.fifoDepth) :
      ChainStep s d
        ((s.setSer c
            { s.ser c with fifo := (s.ser c).fifo ++ [Memory.readWord s.mem s.dma.sourceAd.toNat] }).setDma
          s.dma.advance)
  /-- The word ZERO is moved to CFLAG. -/
  | clearFlag (h : InFlag d s.dma 1) :
      ChainStep s d ((s.setMem (Memory.writeWord s.mem d.cflagAddr 0)).setDma s.dma.advance)
  | follow (c : Chan) (k : Channel) (int : Bool) (h : InData s.config d s.dma c k 0) :
      ChainStep s d (s.setDma { s.dma with int := int, conblkAd := addrWord (d.afterData c), dphase := .load })
  | finish (int : Bool) (h : InFlag d s.dma 0) (hf : Memory.readWord s.mem d.cflagAddr = 0) :
      ChainStep s d (s.setDma { s.dma with int := int, active := false, ended := true, dphase := .idle })

/-! ### Every step of the sequencer on a chain is one of these -/

/-- A step of the sequencer other than STALL is enabled (R275). -/
def State.SequencerEnabled (s : State) : Prop := s.loadEnabled = true ∨ s.xferEnabled = true ∨ s.nextEnabled = true

theorem State.SequencerEnabled.live (h : s.SequencerEnabled) : s.dma.active = true ∧ s.dma.stalled = false := by
  rcases h with h | h | h
  · obtain ⟨ha, hs, -⟩ := (State.loadEnabled_iff s).mp h
    exact ⟨ha, hs⟩
  · obtain ⟨ha, hs, -⟩ := (State.xferEnabled_iff s).mp h
    exact ⟨ha, hs⟩
  · obtain ⟨ha, hs, -⟩ := (State.nextEnabled_iff s).mp h
    exact ⟨ha, hs⟩

theorem State.SequencerEnabled.load (h : s.SequencerEnabled) (hp : s.dma.dphase = .load) : s.loadEnabled = true := by
  obtain ⟨ha, hs⟩ := h.live
  exact (State.loadEnabled_iff s).mpr ⟨ha, hs, hp⟩

theorem State.SequencerEnabled.next (h : s.SequencerEnabled) (hp : s.dma.dphase = .xfer) (hl : s.dma.txfrLen = 0) :
    s.nextEnabled = true := by
  obtain ⟨ha, hs⟩ := h.live
  exact (State.nextEnabled_iff s).mpr ⟨ha, hs, hp, hl⟩

theorem State.SequencerEnabled.xfer (h : s.SequencerEnabled) (hp : s.dma.dphase = .xfer) (hl : s.dma.txfrLen ≠ 0) :
    s.xferEnabled = true := by
  rcases h with h | h | h
  · rw [loadEnabled_of_xfer hp] at h
    cases h
  · exact h
  · obtain ⟨-, -, -, hz⟩ := (State.nextEnabled_iff s).mp h
    exact absurd hz hl

theorem State.readable_of_active (hl : s.life = .active d) {a : Nat} (h1 : d.rbase.toNat ≤ a)
    (h2 : a + 4 ≤ d.rbase.toNat + d.rsize) : s.readable a = true := by
  unfold State.readable
  simp [hl, h1, h2]

/-- A LOAD of a valid block that stands at CONBLK_AD. -/
theorem step_load_of_blockAt {b : ControlBlock} {a : Nat} (ht : s.turn = .dma) (he : s.loadEnabled = true)
    (hl : s.life = .active d) (hx : s.dma.conblkAd.toNat = a) (hal : a % 32 = 0) (h1 : d.rbase.toNat ≤ a)
    (h2 : a + 24 ≤ d.rbase.toNat + d.rsize) (hb : blockAt s.mem a b) (hw : b.wellFormed = true) :
    step s = .next (s.dropTurn.setDma (s.dma.loaded b)) := by
  subst hx
  have hf := State.fetchBlock_of_readable hal fun k hk => State.readable_of_active hl (by omega) (by omega)
  rw [hb] at hf
  rw [step_load ht he hf (decodeBlock_words b), exec_cb_of_wellFormed hw]
  rfl

/-- An XFER of a data block pushes the slot's next word: the block is paced, so the FIFO has room (R280). -/
theorem step_xfer_of_inData (hp : s.config.wf = true) (hc : Chained s d) (ht : s.turn = .dma)
    (hl : s.life = .active d) (he : s.xferEnabled = true) (h : InData s.config d s.dma c k (n + 1)) :
    (s.ser c).fifo.length < s.config.fifoDepth ∧
      step s =
        .next
          ((s.dropTurn.setSer c
              { s.ser c with fifo := (s.ser c).fifo ++ [Memory.readWord s.mem s.dma.sourceAd.toNat] }).setDma
            s.dma.advance) := by
  have hinfo := h.info
  have hsrc := h.sourceAd_toNat hc.device
  obtain ⟨-, hk, hn, -, -, -, hdst, -⟩ := h
  obtain ⟨-, hin, hlow, -⟩ := slotAddr_facts hc.device hk
  have hroom : (s.ser c).fifo.length < s.config.fifoDepth := by
    obtain ⟨-, -, -, -, paced⟩ := (State.xferEnabled_iff s).mp he
    have asked := paced (by rw [State.info, hinfo])
    have line : requestLine s.info = some c := by
      rw [State.info, hinfo]
      cases c <;> rfl
    rw [State.lineDreq, line] at asked
    exact ((State.dreq_iff s c).mp asked).2
  have hr : s.readable s.dma.sourceAd.toNat = true := State.readable_of_active hl (by omega) (by omega)
  have hw : s.writable s.dma.destAd.toNat = true := by
    unfold State.writable
    rw [hdst]
    cases c <;> simp [fifBus]
  refine ⟨hroom, ?_⟩
  rw [step_xfer ht he, State.xfer_of_mapped (s := s.dropTurn) hr hw,
    State.deliver_bus (s := s.dropTurn) _ hdst fun _ => (Config.wf_fifBus hp).2,
    State.pushFifo_of_room (s := s.dropTurn) (by simpa using hroom)]
  simp

/-- The XFER of the terminal block writes 0 to CFLAG (R268). -/
theorem step_xfer_of_inFlag (hc : Chained s d) (hm : Armed s.config d s.mem) (ht : s.turn = .dma)
    (hl : s.life = .active d) (he : s.xferEnabled = true) (h : InFlag d s.dma 1) :
    step s = .next ((s.dropTurn.setMem (Memory.writeWord s.mem d.cflagAddr 0)).setDma s.dma.advance) := by
  obtain ⟨-, -, -, -, -, -, -, had⟩ := h
  obtain ⟨hsrc, hdst⟩ := had rfl
  have hz := zeroAddr_toNat hc.device
  have hf := cflagAddr_toNat hc.device
  have hsize := Device.rsize_ge hc.device
  have hr : s.readable s.dma.sourceAd.toNat = true := by
    rw [hsrc, hz]
    unfold Device.zeroAddr
    exact State.readable_of_active hl (by omega) (by omega)
  have hw : s.writable s.dma.destAd.toNat = true := by
    have : s.readable d.cflagAddr = true := by
      unfold Device.cflagAddr
      exact State.readable_of_active hl (by omega) (by omega)
    rw [hdst, hf, State.writable, this]
    rfl
  have off : ∀ c, s.dropTurn.dma.destAd ≠ fifBus s.config c := fun c => by
    rw [State.dropTurn_dma, hdst]
    exact cflagAddr_ne_fifBus hc.device c
  rw [step_xfer ht he, State.xfer_of_mapped (s := s.dropTurn) hr hw,
    State.deliver_of_memory (s := s.dropTurn) (off .c0) (off .c1)]
  simp only [State.dropTurn_dma, State.dropTurn_mem, hsrc, hz, hdst, hf, hm.zero]
  rfl

theorem Chained.chainStep (hp : s.config.wf = true) (hc : Chained s d) (hl : s.life = .active d) (ht : s.turn = .dma)
    (he : s.SequencerEnabled) (h : step s = .next t) : ChainStep s.dropTurn d t := by
  have hd := hc.device
  obtain ⟨hal, hbase, hend, -⟩ := Device.base_facts hd
  have hsize := Device.rsize_ge hd
  have answer : ∀ {u}, step s = .next u → ChainStep s.dropTurn d u → ChainStep s.dropTurn d t := by
    intro u hu hstep
    cases h.symm.trans hu
    exact hstep
  cases hc.point with
  | rest ha =>
    rw [he.live.1] at ha
    cases ha
  | atData c k hk ha hm hph hx =>
    have hb := d.cbAddr_bound c
    unfold Device.cbtAddr at hb
    exact answer
      (step_load_of_blockAt ht (he.load hph) hl (by rw [hx, cbAddr_toNat hd])
        (by cases c <;> simp only [Device.cbAddr] <;> omega) hb.1 (by omega) (hm.data c k hk)
        (dataBlock_wellFormed hp hd hk _))
      (.loadData c k hk hph hx)
  | atFlag ha hm hph hx =>
    exact answer
      (step_load_of_blockAt ht (he.load hph) hl (by rw [hx, cbtAddr_toNat hd])
        (by unfold Device.cbtAddr; omega) (by unfold Device.cbtAddr; omega) (by unfold Device.cbtAddr; omega) hm.flag
        (flagBlock_wellFormed hd))
      (.loadFlag hph hx)
  | inData c k n ha hm hin =>
    have hlen := hin.txfrLen_toNat hd
    cases n with
    | zero =>
      have hz : s.dma.txfrLen = 0 := BitVec.eq_of_toNat_eq hlen
      have hmore : s.dma.nextConbk ≠ 0 := hin.nextConbk ▸ afterData_ne_zero hd c
      have hu := step_next ht (he.next hin.phase hz)
      rw [State.nextBlock_of_more (s := s.dropTurn) hmore, State.dropTurn_dma, hin.nextConbk] at hu
      exact answer hu (.follow c k _ hin)
    | succ n =>
      have hnz : s.dma.txfrLen ≠ 0 := by
        intro hz
        rw [hz] at hlen
        simp at hlen
      obtain ⟨hroom, hu⟩ := step_xfer_of_inData hp hc ht hl (he.xfer hin.phase hnz) hin
      refine answer hu ?_
      have := ChainStep.push (s := s.dropTurn) c k n hin (by simpa using hroom)
      simpa using this
  | inFlag n ha hm hin hf =>
    have hlen := hin.txfrLen_toNat
    have ⟨hph, hn, _, _, _, hlast, _⟩ := hin
    obtain rfl | rfl : n = 0 ∨ n = 1 := by omega
    · have hu := step_next ht (he.next hph (BitVec.eq_of_toNat_eq hlen))
      rw [State.nextBlock_of_last (s := s.dropTurn) hlast] at hu
      exact answer hu (.finish _ hin (hf rfl))
    · have hnz : s.dma.txfrLen ≠ 0 := by
        intro hz
        rw [hz] at hlen
        cases hlen
      exact answer (step_xfer_of_inFlag hc hm ht hl (he.xfer hph hnz) hin) (.clearFlag hin)

end

section

variable {p : Config} {d : Device} {m : Memory} {x : Dma} {c : Chan} {k : Channel} {s t : State}

/-! ### The sequencer's steps keep the chain (R268, R270, R280) -/

theorem OnChain.armed (h : OnChain p d m x) (ha : x.active = true) : Armed p d m := by
  cases h with
  | rest hn =>
    rw [ha] at hn
    cases hn
  | _ => assumption

theorem ChainStep.frame (h : ChainStep s d t) : AgentFrame s t := by
  cases h with
  | push c k n h hroom =>
    refine AgentFrame.trans (t := s.setSer c _) ?_ (.setDma _ _)
    exact .setSer s c rfl rfl rfl
  | clearFlag h => exact (AgentFrame.setMem s _).trans (.setDma _ _)
  | _ => exact .setDma s _

theorem ChainStep.error (h : ChainStep s d t) : t.dma.error = s.dma.error := by
  cases h <;> rfl

/-- No step along the chain drops a word. -/
theorem ChainStep.werr (h : ChainStep s d t) (c : Chan) : (t.ser c).werr = (s.ser c).werr := by
  cases h with
  | push e k n h hroom => cases c <;> cases e <;> rfl
  | _ => cases c <;> rfl

/-- A step along the chain leads to its next point. -/
theorem ChainStep.onChain (h : ChainStep s d t) (ha : s.dma.active = true) (hm : Memory.wf s.mem)
    (harm : Armed s.config d s.mem) : OnChain s.config d t.mem t.dma := by
  cases h with
  | loadData c k hk hp hx => exact .inData c k k.words ha harm (.of_load hk hx)
  | loadFlag hp hx => exact .inFlag 1 ha harm (.of_load hx) nofun
  | push c k n h hroom =>
    rw [State.setDma_mem, State.setSer_mem]
    exact .inData c k n ha harm h.advance
  | clearFlag h =>
    exact .inFlag 0 ha (harm.writeFlag hm 0) h.advance fun _ => Memory.readWord_writeWord_same hm _ _
  | follow c k int h =>
    rcases d.afterData_cases c with ⟨k1, hk1, -, e⟩ | ⟨-, e⟩
    · exact .atData .c1 k1 hk1 ha harm rfl (congrArg addrWord e)
    · exact .atFlag ha harm rfl (congrArg addrWord e)
  | finish int h hf => exact .rest rfl rfl hf

/-- A step of the sequencer keeps the chain's invariant and drops no word (R287). -/
theorem ChainInv.sequencer (hp : s.config.wf = true) (hs : DeviceInv s) (hc : ChainInv s) (ht : s.turn = .dma)
    (he : s.SequencerEnabled) (h : step s = .next t) :
    ChainInv t ∧ ∀ c, (t.ser c).werr = true → (s.ser c).werr = true := by
  obtain ⟨ha, -⟩ := he.live
  obtain ⟨d, hl⟩ := hs.active_of_dma ha
  obtain ⟨-, -, hm, -⟩ := (deviceInv_active hl).mp hs
  have chained := (chainInv_active hl).mp hc
  have hstep := chained.chainStep hp hl ht he h
  have frame := (AgentFrame.dropTurn s).trans hstep.frame
  refine ⟨(chainInv_active (frame.life.trans hl)).mpr (chained.of_frame frame hstep.error
    (hstep.onChain ha hm (chained.point.armed ha))), fun c hw => ?_⟩
  rw [hstep.werr, State.dropTurn_ser] at hw
  exact hw

/-! ### The serializers and the host keep the chain -/

theorem State.serTurn_mem (s : State) (c : Chan) : (s.serTurn c).mem = s.mem := by
  rcases State.serTurn_cases s c with ⟨w, rest, -, -, h⟩ | ⟨-, -, -, -, h⟩ | ⟨-, -, h⟩ <;> rw [h] <;> simp

theorem State.serTurn_werr (s : State) (e c : Chan) : ((s.serTurn e).ser c).werr = (s.ser c).werr := by
  rcases State.serTurn_cases s e with ⟨w, rest, -, -, h⟩ | ⟨-, -, -, -, h⟩ | ⟨-, -, h⟩ <;> rw [h] <;>
    cases c <;> cases e <;> rfl

/-- SHIFT and GAP touch neither the sequencer nor the region. -/
theorem ChainInv.serTurn (hs : DeviceInv s) (hc : ChainInv s) (c : Chan) : ChainInv (s.serTurn c) := by
  by_cases hr : s.runs c = true
  · obtain ⟨d, hl⟩ := hs.active_of_runs hr
    have chained := (chainInv_active hl).mp hc
    have frame := AgentFrame.serTurn s c
    refine (chainInv_active (frame.life.trans hl)).mpr (chained.of_frame frame ?_ ?_)
    · rw [State.serTurn_dma]
    · rw [State.serTurn_dma, State.serTurn_mem]
      exact chained.point
  · rcases State.serTurn_cases s c with ⟨w, rest, h, -⟩ | ⟨h, -⟩ | ⟨-, -, e⟩
    · exact absurd h hr
    · exact absurd h hr
    · rw [e]
      exact hc

/-! The chain reads a device's geometry and frame lengths, never its buffers. -/

@[simp] theorem Device.setPix_cbAddr (d : Device) (c e : Chan) (w : List Word) :
    (d.setPix c w).cbAddr e = d.cbAddr e := by cases e <;> simp [Device.cbAddr]
@[simp] theorem Device.setPix_cbtAddr (d : Device) (c : Chan) (w : List Word) : (d.setPix c w).cbtAddr = d.cbtAddr := by
  simp [Device.cbtAddr]
@[simp] theorem Device.setPix_zeroAddr (d : Device) (c : Chan) (w : List Word) :
    (d.setPix c w).zeroAddr = d.zeroAddr := by simp [Device.zeroAddr]
@[simp] theorem Device.setPix_cflagAddr (d : Device) (c : Chan) (w : List Word) :
    (d.setPix c w).cflagAddr = d.cflagAddr := by simp [Device.cflagAddr]
@[simp] theorem Device.setPix_slotAddr (d : Device) (c e : Chan) (w : List Word) :
    (d.setPix c w).slotAddr e = d.slotAddr e := by simp [Device.slotAddr]
@[simp] theorem Device.setPix_afterData (d : Device) (c e : Chan) (w : List Word) :
    (d.setPix c w).afterData e = d.afterData e := by
  have h : (d.setPix c w).ch1.isSome = d.ch1.isSome := by cases c <;> simp [Device.setPix]
  cases e <;> simp [Device.afterData, Device.afterCb0, h]
@[simp] theorem Device.setPix_flagBlock (d : Device) (c : Chan) (w : List Word) :
    (d.setPix c w).flagBlock = d.flagBlock := by simp [Device.flagBlock]

theorem Device.setPix_dataBlock (d : Device) (c e : Chan) (w : List Word) {k k' : Channel} (h : k'.words = k.words)
    (n : Nat) : (d.setPix c w).dataBlock p e k' n = d.dataBlock p e k n := by simp [Device.dataBlock, h]

theorem Armed.setPix (h : Armed p d m) (c : Chan) (w : List Word) : Armed p (d.setPix c w) m where
  data := fun e k' hk' => by
    obtain ⟨k, hk, -, hw⟩ := Device.setPix_chan_some hk'
    rw [Device.setPix_cbAddr, Device.setPix_afterData, Device.setPix_dataBlock d c e w hw.symm]
    exact h.data e k hk
  flag := by
    rw [Device.setPix_cbtAddr, Device.setPix_flagBlock]
    exact h.flag
  zero := by
    rw [Device.setPix_zeroAddr]
    exact h.zero

theorem InData.setPix {n : Nat} (h : InData p d x c k n) (e : Chan) (w : List Word) :
    ∃ k', InData p (d.setPix e w) x c k' n := by
  obtain ⟨hp, hk, hn, hx, hti, hstride, hdst, hnext, hlen, hsrc⟩ := h
  obtain ⟨k', hk', -, hw⟩ := Device.chan_setPix_some (c := e) w hk
  refine ⟨k', hp, hk', hw ▸ hn, ?_, ?_, hstride, hdst, ?_, hlen, ?_⟩
  · rw [Device.setPix_cbAddr, hx]
  · rw [Device.setPix_afterData, Device.setPix_dataBlock d e c w hw, hti]
  · rw [Device.setPix_afterData, hnext]
  · rw [Device.setPix_slotAddr, hw, hsrc]

theorem OnChain.setPix (h : OnChain p d m x) (e : Chan) (w : List Word) : OnChain p (d.setPix e w) m x := by
  cases h with
  | rest ha hp hf => exact .rest ha hp (by rwa [Device.setPix_cflagAddr])
  | atData c k hk ha hm hp hx =>
    obtain ⟨k', hk', -⟩ := Device.chan_setPix_some (c := e) w hk
    exact .atData c k' hk' ha (hm.setPix e w) hp (by rwa [Device.setPix_cbAddr])
  | atFlag ha hm hp hx => exact .atFlag ha (hm.setPix e w) hp (by rwa [Device.setPix_cbtAddr])
  | inData c k n ha hm h =>
    obtain ⟨k', h'⟩ := h.setPix e w
    exact .inData c k' n ha (hm.setPix e w) h'
  | inFlag n ha hm h hf =>
    refine .inFlag n ha (hm.setPix e w) ?_ (by rwa [Device.setPix_cflagAddr])
    unfold InFlag
    rw [Device.setPix_cbtAddr, Device.setPix_flagBlock, Device.setPix_zeroAddr, Device.setPix_cflagAddr]
    exact h

theorem Chained.setPix (h : Chained s d) (hk : d.chan c = some k) {w : List Word} (hw : w.length = k.cfg.count) :
    Chained s (d.setPix c w) where
  error := h.error
  device := h.device.setPix hk hw
  clock := h.clock
  dmac := h.dmac
  pwen := fun e k' hk' => by
    obtain ⟨k0, hk0, -⟩ := Device.setPix_chan_some hk'
    exact h.pwen e k0 hk0
  point := h.point.setPix c w

/-- ARM puts the sequencer before CB0 (R262, R267). -/
theorem Chained.arm (h : Chained s d) (hm : Memory.wf s.mem) (hc : s.complete d = true) : Chained (s.arm d) d := by
  obtain ⟨-, ha⟩ := (State.complete_iff s d).mp hc
  have first : d.rbase = addrWord (d.cbAddr .c0) := by simp [Device.cbAddr, addrWord]
  have armed : Armed s.config d (d.armMem s.config s.mem) := armMem_armed hm
  refine h.congr (by simp) (by simp) (by simp) (by simp) (by simp) ?_
  rw [State.arm_mem, State.arm_eq s d ha h.error]
  exact .atData .c0 d.ch0 rfl rfl armed rfl first

/-- An empty region reads 0 (20_memory.md R89). -/
theorem Memory.readWord_nil (a : Nat) : Memory.readWord [] a = 0 := by
  simp only [Memory.readWord, Memory.read_nil]
  rfl

/-- The divisor INIT programs is one the clock runs with (10_state.md R37, 40_controller_commands.md R161). -/
theorem initPlan_divi_range {rs : List ConfigRecord} {q : InitPlan} (hq : initPlan p rs = some q) :
    2 ≤ q.divi ∧ q.divi ≤ 4095 := by
  have hv : ValidConfig p rs := by
    by_contra h
    rw [initPlan_of_invalid h] at hq
    cases hq
  obtain ⟨r0, hr0, -, -, -, ⟨hlow, -⟩, -⟩ := initPlan_of_valid hv
  obtain ⟨e, hhigh⟩ := initPlan_divi hv hq hr0
  exact ⟨e ▸ hlow, hhigh⟩

/-- INIT leaves the sequencer at rest, CFLAG 0 and the configured serializers running (40_controller_commands.md R168,
R169). -/
theorem chained_of_init {rs : List ConfigRecord} {q : InitPlan} {base : Word} (hq : initPlan s.config rs = some q)
    (hb : baseOk s.config q.rsize base = true) : Chained ((s.commit q base).programHardware q) (q.device base) := by
  obtain ⟨hlow, hhigh⟩ := initPlan_divi_range hq
  rw [State.commit_programHardware_eq]
  refine ⟨rfl, initPlan_device_wf hq hb, ?_, rfl, fun c k hk => ?_, .rest rfl rfl (Memory.readWord_nil _)⟩
  · simp only [State.clockRuns, clkdiv_field_toNat hhigh, hlow, decide_true, Bool.and_self]
  · rw [InitPlan.device_chan] at hk
    obtain ⟨cfg, hcfg, -⟩ := Option.map_eq_some_iff.mp hk
    have e := InitPlan.serializer_of_some hcfg (s.ser c)
    have hon : (q.serializer c (s.ser c)).pwen = true := by rw [e]
    cases c <;> exact hon

theorem CommandEffect.chainInv {i : Instr} (h : CommandEffect s i t) (hs : DeviceInv s) (hc : ChainInv s) :
    ChainInv t := by
  cases h with
  | result _ r => exact hc
  | drawn _ r => exact hc
  | init _ rs q base hq ho hb =>
    refine (chainInv_active ?_).mpr ((chained_of_init (s := s.dropDraw) hq hb).setLifeResult _ _)
    rw [State.commit_programHardware_eq]
    rfl
  | fini d hl =>
    rw [State.release_eq]
    exact ⟨rfl, rfl⟩
  | pix _ d ch k w hl hk hw =>
    have chained := (chainInv_active hl).mp hc
    refine (chainInv_active rfl).mpr ((chained.setPix hk ?_).setLifeResult _ _)
    obtain ⟨-, -, hlen, -⟩ := Device.chan_wf chained.device hk
    rcases hw with hw | ⟨n, v, rfl⟩
    · exact hw
    · rw [List.length_set, hlen]
  | render d hl hcomplete =>
    obtain ⟨-, -, hm, -⟩ := (deviceInv_active hl).mp hs
    exact (chainInv_active ((State.arm_life s d).trans hl)).mpr
      ((((chainInv_active hl).mp hc).arm hm hcomplete).setLifeResult _ _)
  | clear d ch k hl hk hcomplete =>
    obtain ⟨-, -, hm, -⟩ := (deviceInv_active hl).mp hs
    have zeroed := ((chainInv_active hl).mp hc).setPix hk (w := List.replicate k.cfg.count 0) List.length_replicate
    refine (chainInv_active (State.arm_life _ _)).mpr
      (((zeroed.setLifeResult (.active (d.setPix ch (List.replicate k.cfg.count 0))) s.result).arm hm ?_).setLifeResult _ _)
    rw [← hcomplete]
    exact State.complete_congr rfl rfl (Device.setPix_rbase d ch _)
  | cleared d ch k hl hk hcomplete =>
    exact (chainInv_active rfl).mpr
      ((((chainInv_active hl).mp hc).setPix hk List.length_replicate).setLifeResult _ _)
  | waited d r hl hr => exact hc
  | holds d hl hr => exact hc

/-- No host command sets WERR (10_state.md R32). -/
theorem CommandEffect.werr {i : Instr} (h : CommandEffect s i t) (c : Chan) (ht : (t.ser c).werr = true) :
    (s.ser c).werr = true := by
  cases h with
  | init _ rs q base hq ho hb =>
    obtain ⟨-, hw, -⟩ := q.serializer_frame c (s.ser c)
    rw [State.commit_programHardware_eq] at ht
    cases c <;> exact absurd (hw.symm.trans ht) Bool.false_ne_true
  | fini d hl =>
    rw [State.release_eq] at ht
    cases c <;> exact ht
  | render d hl hc => simpa [State.report] using ht
  | clear d ch k hl hk hc =>
    simp only [State.report, State.setResult_ser, State.arm_ser] at ht
    cases c <;> exact ht
  | _ => cases c <;> exact ht

/-- Settles O55: the sequencer's steps follow the chain, and no other turn moves the sequencer but a command that arms,
resets or leaves it. -/
theorem armedChainNeverErrs : Obligations.ArmedChainNeverErrs := by
  unfold Obligations.ArmedChainNeverErrs
  intro s t hp hs hc h
  have same : ∀ u : State, (∀ c, u.ser c = s.ser c) → ∀ c, (u.ser c).werr = true → (s.ser c).werr = true :=
    fun u e c hw => e c ▸ hw
  cases step_effect h with
  | inputs a e => exact ⟨hc, same _ fun c => by cases c <;> rfl⟩
  | command a e i _ hi hw hx =>
    have effect := exec_command_effect hi hx
    exact ⟨effect.chainInv hs hc, fun c hw => by have := effect.werr c hw; cases c <;> exact this⟩
  | loadStop cause hl hf ht => exact hc.sequencer hp hs ht (.inl hl) h
  | loadIllegal ws hl hf hd ht => exact hc.sequencer hp hs ht (.inl hl) h
  | load ws b _ hl hf hd hx ht => exact hc.sequencer hp hs ht (.inl hl) h
  | xfer hx ht => exact hc.sequencer hp hs ht (.inr (.inl hx)) h
  | next hn ht => exact hc.sequencer hp hs ht (.inr (.inr hn)) h
  | stall hst ht => exact ⟨hc, same _ fun c => by cases c <;> rfl⟩
  | ser e ht =>
    refine ⟨ChainInv.serTurn (s := s.dropTurn) hs hc e, fun c hw => ?_⟩
    rw [State.serTurn_werr, State.dropTurn_ser] at hw
    exact hw

end

section

variable {p : Config} {d : Device} {c : Chan} {k : Channel} {s t : State}

/-! ### The steps left at each point of a chain (R288) -/

/-- WORDS of channel c; 0 where it is not configured. -/
def Device.wordsOf (d : Device) (c : Chan) : Nat := ((d.chan c).map Channel.words).getD 0

theorem Device.wordsOf_of_some (hk : d.chan c = some k) : d.wordsOf c = k.words := by
  unfold Device.wordsOf
  rw [hk]
  rfl

/-- The steps of the blocks after channel c's: a LOAD, the XFERs and a NEXT of each. -/
def Device.stepsAfter (d : Device) : Chan → Nat
  | .c0 => d.wordsOf .c1 + 2 * d.nch + 1
  | .c1 => 3

theorem Device.nch_pos (d : Device) : 0 < d.nch := by
  unfold Device.nch
  split <;> decide

/-- Before channel c's block all of its slot is to be sent, after it nothing. -/
theorem unsent_length_of_load (c : Chan) (ha : s.dma.active = true) (hp : s.dma.dphase = .load) :
    (s.unsent d c).length = if s.dma.conblkAd.toNat ≤ d.cbAddr c then d.wordsOf c else 0 := by
  cases hk : d.chan c with
  | none => simp [unsent_of_none hk, Device.wordsOf, hk]
  | some k =>
    rw [unsent_of_load hk ha hp, Device.wordsOf_of_some hk, apply_ite List.length, Memory.wordsAt_length]
    rfl

theorem unsent_length_of_own_xfer (hk : d.chan c = some k) (ha : s.dma.active = true) (hp : s.dma.dphase = .xfer)
    (hx : s.dma.conblkAd.toNat = d.cbAddr c) : (s.unsent d c).length = s.dma.txfrLen.toNat / 4 := by
  rw [unsent_of_xfer hk ha hp, if_pos hx, Memory.wordsAt_length]

theorem unsent_length_of_other_xfer (ha : s.dma.active = true) (hp : s.dma.dphase = .xfer)
    (hx : s.dma.conblkAd.toNat ≠ d.cbAddr c) :
    (s.unsent d c).length = if s.dma.conblkAd.toNat < d.cbAddr c then d.wordsOf c else 0 := by
  cases hk : d.chan c with
  | none => simp [unsent_of_none hk, Device.wordsOf, hk]
  | some k =>
    rw [unsent_of_xfer hk ha hp, if_neg hx, Device.wordsOf_of_some hk, apply_ite List.length, Memory.wordsAt_length]
    rfl

theorem chainSteps_of_idle (h : s.dma.active = false) : s.chainSteps d = 0 := by
  simp [State.chainSteps, h]

theorem chainSteps_atFlag (hd : d.wf p) (ha : s.dma.active = true) (hp : s.dma.dphase = .load)
    (hx : s.dma.conblkAd = addrWord d.cbtAddr) : s.chainSteps d = 3 := by
  simp [State.chainSteps, ha, hp, hx, cbtAddr_toNat hd]

theorem chainSteps_inFlag {n : Nat} (hd : d.wf p) (ha : s.dma.active = true) (h : InFlag d s.dma n) :
    s.chainSteps d = n + 1 := by
  have hlen := h.txfrLen_toNat
  obtain ⟨hp, -, hx, -⟩ := h
  simp [State.chainSteps, ha, hp, hx, cbtAddr_toNat hd, hlen]

theorem chainSteps_atData (hd : d.wf p) (hk : d.chan c = some k) (ha : s.dma.active = true)
    (hp : s.dma.dphase = .load) (hx : s.dma.conblkAd = addrWord (d.cbAddr c)) :
    s.chainSteps d = k.words + 2 + d.stepsAfter c := by
  have hx : s.dma.conblkAd.toNat = d.cbAddr c := by rw [hx, cbAddr_toNat hd]
  have h0 := unsent_length_of_load (d := d) .c0 ha hp
  have h1 := unsent_length_of_load (d := d) .c1 ha hp
  have hw := Device.wordsOf_of_some hk
  cases c <;> simp [State.chainSteps, ha, hp, hx, h0, h1, hw, Device.cbtAddr, Device.cbAddr, Device.stepsAfter]
  omega

theorem chainSteps_inData {n : Nat} (hd : d.wf p) (ha : s.dma.active = true) (h : InData p d s.dma c k n) :
    s.chainSteps d = n + 1 + d.stepsAfter c := by
  have hlen := h.txfrLen_toNat hd
  obtain ⟨hp, hk, -, hx, -⟩ := h
  have hx : s.dma.conblkAd.toNat = d.cbAddr c := by rw [hx, cbAddr_toNat hd]
  have own := unsent_length_of_own_xfer hk ha hp hx
  cases c with
  | c0 =>
    have other := unsent_length_of_other_xfer (d := d) (c := .c1) ha hp (by rw [hx]; simp [Device.cbAddr])
    have hn := d.nch_pos
    simp [State.chainSteps, ha, hp, hx, hlen, own, other, Device.cbtAddr, Device.cbAddr, Device.stepsAfter]
    omega
  | c1 =>
    have other := unsent_length_of_other_xfer (d := d) (c := .c0) ha hp (by rw [hx]; simp [Device.cbAddr])
    simp [State.chainSteps, ha, hp, hx, hlen, own, other, Device.cbtAddr, Device.cbAddr, Device.stepsAfter]

/-- At the LOAD that follows channel c's block the steps left are those of the blocks after it. -/
theorem chainSteps_afterData (hd : d.wf p) (c : Chan) (ha : s.dma.active = true) (hp : s.dma.dphase = .load)
    (hx : s.dma.conblkAd = addrWord (d.afterData c)) : s.chainSteps d = d.stepsAfter c := by
  rcases d.afterData_cases c with ⟨k1, hk1, rfl, e⟩ | ⟨hlast, e⟩ <;> rw [e] at hx
  · rw [chainSteps_atData (c := .c1) hd hk1 ha hp hx]
    simp [Device.stepsAfter, Device.wordsOf, Device.chan, Device.nch, hk1]
  · rw [chainSteps_atFlag hd ha hp hx]
    cases c with
    | c0 => simp [Device.stepsAfter, Device.wordsOf, Device.chan, Device.nch, hlast rfl]
    | c1 => rfl

/-- Every step along the chain lowers the count by one. -/
theorem ChainStep.chainSteps (h : ChainStep s d t) (hd : d.wf s.config) (ha : s.dma.active = true) :
    t.chainSteps d + 1 = s.chainSteps d := by
  cases h with
  | loadData c k hk hp hx =>
    rw [chainSteps_atData hd hk ha hp hx,
      chainSteps_inData (s := s.setDma (s.dma.loaded _)) hd ha (.of_load hk hx)]
    omega
  | loadFlag hp hx =>
    rw [chainSteps_atFlag hd ha hp hx, chainSteps_inFlag (s := s.setDma (s.dma.loaded _)) hd ha (.of_load hx)]
  | push c k n h hroom =>
    rw [chainSteps_inData hd ha h, chainSteps_inData (s := (s.setSer c _).setDma s.dma.advance) hd ha h.advance]
    omega
  | clearFlag h =>
    rw [chainSteps_inFlag hd ha h, chainSteps_inFlag (s := (s.setMem _).setDma s.dma.advance) hd ha h.advance]
  | follow c k int h =>
    have after := chainSteps_afterData (d := d)
      (s := s.setDma { s.dma with int := int, conblkAd := addrWord (d.afterData c), dphase := .load }) hd c ha rfl rfl
    rw [chainSteps_inData hd ha h, after]
    omega
  | finish int h hf => rw [chainSteps_inFlag hd ha h, chainSteps_of_idle rfl]

/-- RENDER leaves every step of the chain. -/
theorem chainSteps_render (hc : Chained s d) (hl : s.life = .active d) (hcomplete : s.complete d = true)
    (h : exec .render s = .next t) : t.chainSteps d = d.ch0.words + 2 + d.stepsAfter .c0 := by
  obtain ⟨-, ha⟩ := (State.complete_iff s d).mp hcomplete
  rw [exec_render_of_active hl, renderBody_complete hcomplete, State.arm_eq s d ha hc.error] at h
  cases h
  exact chainSteps_atData (c := .c0) hc.device rfl rfl rfl (by simp [State.report, Device.cbAddr, addrWord])

/-- SHIFT, GAP and STALL leave what the count reads. -/
theorem chainSteps_congr (hm : t.mem = s.mem) (hd : t.dma = s.dma) : t.chainSteps d = s.chainSteps d := by
  simp only [State.chainSteps, State.unsent, hm, hd]

/-- Settles O58: each point of the chain has its count, one more than the next point's. -/
theorem chainStepCounts : Obligations.ChainStepCounts := by
  unfold Obligations.ChainStepCounts
  refine ⟨fun s t d hs hc hl hcomplete h => ?_, fun s t d hp hs hc hl ht he h => ?_, fun s t d hl ht h => ?_,
    fun s d _ hc hl => ?_⟩
  · rw [chainSteps_render ((chainInv_active hl).mp hc) hl hcomplete h]
    cases hch : d.ch1 <;> simp [Device.stepsAfter, Device.wordsOf, Device.chan, hch] <;> omega
  · have chained := (chainInv_active hl).mp hc
    exact (chained.chainStep hp hl ht he h).chainSteps chained.device (State.SequencerEnabled.live he).1
  · rcases ht with ht | ⟨c, ht⟩
    · rw [step_of_stall ht] at h
      cases h
      unfold State.stallTurn
      split <;> rfl
    · rw [step_of_ser ht] at h
      cases h
      exact chainSteps_congr (by rw [State.serTurn_mem]; rfl) (by rw [State.serTurn_dma]; rfl)
  · have chained := (chainInv_active hl).mp hc
    have hd := chained.device
    refine ⟨fun h => ?_, chainSteps_of_idle⟩
    cases chained.point with
    | rest ha => exact ha
    | atData c k hk ha hm hp hx =>
      rw [chainSteps_atData hd hk ha hp hx] at h
      omega
    | atFlag ha hm hp hx =>
      rw [chainSteps_atFlag hd ha hp hx] at h
      cases h
    | inData c k n ha hm hin =>
      rw [chainSteps_inData hd ha hin] at h
      omega
    | inFlag n ha hm hin =>
      rw [chainSteps_inFlag hd ha hin] at h
      cases h

end

end Sys2Proof.Machine

/-! PROOFS. The statements of 43_pwm_serializer.md: a frame read back by the reference strip; SHIFT, GAP and rest; and the
levels of a channel, which no step of a chain changes and a render extends by its frame. -/

namespace Sys2Proof.Machine

/-! ### A frame at the strip (R308 to R312, R314) -/

section

variable {pix : List Word} {cfg : ChannelConfig}

/-- A frame's slots on the wire, with the channel's polarity. -/
def sentFrame (pix : List Word) (cfg : ChannelConfig) : List WireEvent :=
  (frameSlots pix cfg).map (fun b => .lvl (b ^^ cfg.invert))

/-- The LEDs a frame is to show: each pixel's scaled components in the strip's order. -/
def scaledPixels (pix : List Word) (cfg : ChannelConfig) : List Led :=
  pix.map (fun c => (stripOrder cfg.stype).map (fun l => (l, scale (comp c l) cfg.bright)))

theorem scaledPixels_length (pix : List Word) (cfg : ChannelConfig) : (scaledPixels pix cfg).length = pix.length :=
  List.length_map _

theorem pixBits_ne_nil (hpix : pix ≠ []) (cfg : ChannelConfig) : pixBits pix cfg ≠ [] := by
  rw [← List.length_pos_iff, pixBits_length]
  exact Nat.mul_pos (List.length_pos_iff.mpr hpix) (Nat.mul_pos (stripNcol_pos _) (by decide))

/-- A frame is whole pixels. -/
theorem pixBits_length_mod (pix : List Word) (cfg : ChannelConfig) :
    (pixBits pix cfg).length % (8 * stripNcol cfg.stype) = 0 := by
  rw [pixBits_length, Nat.mul_comm 8]
  exact Nat.mul_mod_left _ _

/-- A frame is one latched segment: its data, whose low tail the reset code continues (R309, R312). -/
theorem segments_sentFrame (hpix : pix ≠ []) (hf : cfg.freq = 400000 ∨ cfg.freq = 800000) :
    ∃ levels, segments cfg.freq (logical cfg.invert (sentFrame pix cfg)) = [⟨levels, true⟩] ∧
      segmentBits levels = some (pixBits pix cfg) := by
  obtain ⟨hmin, hreset⟩ := resetMin_le_resetSlots hf
  have hlow : resetMin cfg.freq ≤ resetSlots cfg.freq + padSlots pix cfg := Nat.le_add_right_of_le hreset
  obtain ⟨levels, z, hz, hne, hlevels, hread⟩ := segmentsFrom_bitcodes _ hmin _ (pixBits_ne_nil hpix cfg) [] 0
    (Nat.zero_le _) (fun _ => rfl) (levelEvents (List.replicate (resetSlots cfg.freq + padSlots pix cfg) false))
  refine ⟨levels, ?_, segmentBits_of_bitcodes hz (by simpa using hlevels)⟩
  rw [sentFrame, logical_levels, frameSlots_eq_data_append_low, levelEvents_append, dataSlots_eq_pixBits, segments, hread]
  exact segmentsFrom_quiet _ _ _ _ (Nat.le_add_left_of_le hlow) hne

/-- A latched segment of whole pixels is shown from the pin on; the LEDs beyond keep what they showed (R311, R314). -/
theorem showSegment_of_whole {t : StripType} {levels bits : List Bool} (view : StripView)
    (hb : segmentBits levels = some bits) (hw : bits.length % (8 * stripNcol t) = 0) :
    showSegment t view ⟨levels, true⟩ =
      (decodePixels t bits).map some ++ view.drop (decodePixels t bits).length := by
  simp [showSegment, hb, hw]

theorem showWire_sentFrame (hpix : pix ≠ []) (hf : cfg.freq = 400000 ∨ cfg.freq = 800000) (view : StripView) :
    showWire cfg view (sentFrame pix cfg) = (scaledPixels pix cfg).map some ++ view.drop pix.length := by
  obtain ⟨levels, hseg, hbits⟩ := segments_sentFrame hpix hf
  rw [showWire, hseg, List.foldl_cons, List.foldl_nil, showSegment_of_whole view hbits (pixBits_length_mod pix cfg),
    decodePixels_pixBits, ← scaledPixels, scaledPixels_length]

/-- Settles O48: the frame is one latched segment of whole pixels, shown over what its strip showed before. -/
theorem frameDecodesToScaledPixels : Obligations.FrameDecodesToScaledPixels := by
  unfold Obligations.FrameDecodesToScaledPixels
  intro pix cfg view hlen hcount hf
  have hpix : pix ≠ [] := by
    rw [← List.length_pos_iff, hlen]
    exact hcount
  have shown : ∀ v, showWire cfg v (sentFrame pix cfg) =
      pix.map (fun c => some ((stripOrder cfg.stype).map (fun l => (l, scale (comp c l) cfg.bright)))) ++
        v.drop pix.length := by
    intro v
    rw [showWire_sentFrame hpix hf, scaledPixels, List.map_map]
    rfl
  obtain ⟨levels, hseg, hbits⟩ := segments_sentFrame hpix hf
  refine ⟨⟨levels, pixBits pix cfg, hseg, hbits, decodePixels_pixBits pix cfg⟩, shown view, fun x before hx => ?_⟩
  refine ⟨(x.view_of_sections hx).trans (shown _), fun pin hpin => ?_⟩
  rw [hx, stripOn_concat, if_neg (Ne.symm hpin)]

end

/-! ### A serializer's turn (R302, R303, R305, R306) -/

section

variable {s t : State} {c : Chan}

theorem State.shiftEnabled_iff (s : State) (c : Chan) :
    s.shiftEnabled c = true ↔ Running s c ∧ (s.ser c).fifo ≠ [] := by
  rw [State.shiftEnabled, Bool.and_eq_true, State.runs_iff, Bool.not_eq_true', List.isEmpty_eq_false_iff, Running]

theorem State.gapEnabled_iff (s : State) (c : Chan) :
    s.gapEnabled c = true ↔
      Running s c ∧ (s.ser c).fifo = [] ∧ (s.ser c).lastGap = false ∧ ¬s.feeding c = true := by
  simp only [State.gapEnabled, Bool.and_eq_true, State.runs_iff, List.isEmpty_iff, Bool.not_eq_true', and_assoc, Running,
    Bool.not_eq_true]

theorem step_shift {w : Word} {rest : List Word} (ht : s.turn = .ser c) (hr : Running s c)
    (hf : (s.ser c).fifo = w :: rest) :
    step s =
      .next
        (s.dropTurn.setSer c
          { s.ser c with fifo := rest, wire := (s.ser c).wire ++ wordLevels w (s.ser c).pola, lastGap := false }) := by
  have enabled : s.shiftEnabled c = true := (s.shiftEnabled_iff c).mpr ⟨hr, by simp [hf]⟩
  rw [step_of_ser ht, State.serTurn, State.dropTurn_shiftEnabled, if_pos enabled, State.shift, State.dropTurn_ser,
    Serializer.shift, hf]

theorem step_gap (ht : s.turn = .ser c) (h : s.gapEnabled c = true) :
    step s =
      .next (s.dropTurn.setSer c { s.ser c with wire := (s.ser c).wire ++ [.gap], gapo := true, lastGap := true }) := by
  have empty : ¬s.shiftEnabled c = true := by
    obtain ⟨-, hempty, -⟩ := (s.gapEnabled_iff c).mp h
    intro hs
    obtain ⟨-, hf⟩ := (s.shiftEnabled_iff c).mp hs
    exact hf hempty
  rw [step_of_ser ht, State.serTurn, State.dropTurn_shiftEnabled, if_neg empty, State.dropTurn_gapEnabled, if_pos h,
    State.recordGap, State.dropTurn_ser, Serializer.recordGap]

theorem step_ser_rest (ht : s.turn = .ser c) (hs : ¬s.shiftEnabled c = true) (hg : ¬s.gapEnabled c = true) :
    step s = .next s.dropTurn := by
  rw [step_of_ser ht, State.serTurn, State.dropTurn_shiftEnabled, if_neg hs, State.dropTurn_gapEnabled, if_neg hg]

/-- Settles O36: each reason to rest denies both enabling conditions. -/
theorem serializerRests : Obligations.SerializerRests := by
  unfold Obligations.SerializerRests
  intro s c ht h
  have idle : ¬Running s c ∨ (s.ser c).fifo = [] ∧ ((s.ser c).lastGap = true ∨ s.feeding c = true) := by
    rw [s.feeding_iff]
    rcases h with h | h | h | h
    · exact .inl fun ⟨henab, _, _⟩ => absurd (h.symm.trans henab) Bool.false_ne_true
    · exact .inl fun ⟨_, hdivi, _⟩ => Nat.not_lt.mpr hdivi h
    · exact .inl fun ⟨_, _, hpwen⟩ => absurd (h.symm.trans hpwen) Bool.false_ne_true
    · exact .inr h
  refine step_ser_rest ht (fun hs => ?_) (fun hg => ?_)
  · obtain ⟨hr, hf⟩ := (s.shiftEnabled_iff c).mp hs
    exact idle.elim (· hr) fun ⟨hempty, _⟩ => hf hempty
  · obtain ⟨hr, -, hlast, hfeed⟩ := (s.gapEnabled_iff c).mp hg
    rcases idle with h | ⟨-, h | h⟩
    · exact h hr
    · exact absurd (hlast.symm.trans h) Bool.false_ne_true
    · exact hfeed h

/-- The bits of a word in the order they are sent, each inverted when the polarity is set (R305). -/
def sentBits (w : Word) (pola : Bool) : List Bool := (List.range 32).map (fun k => w.getLsbD (31 - k) ^^ pola)

theorem wordLevels_eq_sentBits (w : Word) (pola : Bool) : wordLevels w pola = (sentBits w pola).map .lvl := by
  rw [sentBits, List.map_map]
  rfl

theorem sentBits_length (w : Word) (pola : Bool) : (sentBits w pola).length = 32 := by simp [sentBits]

theorem sentBits_getElem? (w : Word) (pola : Bool) {k : Nat} (hk : k < 32) :
    (sentBits w pola)[k]? = some (w.getLsbD (31 - k) ^^ pola) := by simp [sentBits, hk]

/-- Settles O34: the word's levels join the stream, and so the latest INIT's section. -/
theorem shiftEmitsOneWord : Obligations.ShiftEmitsOneWord := by
  unfold Obligations.ShiftEmitsOneWord
  intro s c w rest ht henab hdivi hpwen hf
  have hstep := step_shift ht ⟨henab, hdivi, hpwen⟩ hf
  rw [wordLevels_eq_sentBits] at hstep
  refine ⟨_, hstep, by simp, by simp,
    ⟨sentBits w (s.ser c).pola, sentBits_length _ _, by simp, fun k hk => sentBits_getElem? _ _ hk,
      fun hm d ch hl hch => ?_⟩,
    by simp, by simp, by simp, by simp, by simp, fun c' hc' => by rw [State.setSer_ser_ne _ _ hc', State.dropTurn_ser],
    by simp, by simp, by simp, by simp, by simp, by simp, by simp, by simp, fun a => by simp, by simp, by simp⟩
  obtain ⟨marked, configured⟩ := hm c
  obtain ⟨hpola, m, hlast, hcfg⟩ := configured d ch hl hch
  refine ⟨by rw [← wordLevels_eq_sentBits, hpola, logical_wordLevels], ?_⟩
  rw [← hcfg]
  exact marked.sections_append hlast (by simp) (by simp)

end

/-! ### What a channel has still to push (42_dma_sequencer.md R288) -/

section

variable {p : Config} {d : Device} {c e : Chan} {k : Channel} {n : Nat} {s t : State}

/-- The frame in channel c's data slot; no words where the channel is not configured. -/
def State.slotFrame (s : State) (d : Device) (c : Chan) : List Word :=
  match d.chan c with
  | some k => wordsAt s.mem (d.slotAddr c) k.words
  | none => []

theorem State.slotFrame_of_some (hk : d.chan c = some k) :
    s.slotFrame d c = wordsAt s.mem (d.slotAddr c) k.words := by
  unfold State.slotFrame
  rw [hk]

theorem unsent_at_load (ha : s.dma.active = true) (hp : s.dma.dphase = .load) :
    s.unsent d c = if s.dma.conblkAd.toNat ≤ d.cbAddr c then s.slotFrame d c else [] := by
  cases hk : d.chan c with
  | none => simp [unsent_of_none hk, State.slotFrame, hk]
  | some k => rw [unsent_of_load hk ha hp, State.slotFrame_of_some hk]

/-- About to load channel e's block: the frames from channel e's on. -/
theorem unsent_atData (hd : d.wf p) (ha : s.dma.active = true) (hp : s.dma.dphase = .load)
    (hx : s.dma.conblkAd = addrWord (d.cbAddr e)) :
    s.unsent d c = if d.cbAddr e ≤ d.cbAddr c then s.slotFrame d c else [] := by
  rw [unsent_at_load ha hp, hx, cbAddr_toNat hd]

/-- At the terminal block: nothing. -/
theorem unsent_atFlag (hd : d.wf p) (hx : s.dma.conblkAd = addrWord d.cbtAddr) : s.unsent d c = [] := by
  have hb := d.cbAddr_bound c
  have hx : s.dma.conblkAd.toNat = d.cbtAddr := by rw [hx, cbtAddr_toNat hd]
  unfold State.unsent
  rw [hx]
  split
  · rfl
  split
  · split
    · exact if_neg (by omega)
    · rw [if_neg (by omega), if_neg (by omega)]
    · rfl
  · rfl

/-- About to load the block after channel e's: the frames after channel e's. -/
theorem unsent_afterData (hd : d.wf p) (ha : s.dma.active = true) (hp : s.dma.dphase = .load)
    (hx : s.dma.conblkAd = addrWord (d.afterData e)) :
    s.unsent d c = if d.cbAddr e < d.cbAddr c then s.slotFrame d c else [] := by
  rcases d.afterData_cases e with ⟨k1, -, rfl, h⟩ | ⟨hlast, h⟩ <;> rw [h] at hx
  · rw [unsent_atData hd ha hp hx]
    cases c <;> simp [Device.cbAddr]
  · rw [unsent_atFlag hd hx]
    cases e with
    | c0 =>
      cases c with
      | c0 => exact (if_neg (Nat.lt_irrefl _)).symm
      | c1 => simp [State.slotFrame, Device.chan, hlast rfl]
    | c1 =>
      have last : ¬d.cbAddr .c1 < d.cbAddr c := by cases c <;> simp [Device.cbAddr]
      exact (if_neg last).symm

/-- In channel c's own block: the last n words of its frame. -/
theorem unsent_inData (hd : d.wf p) (ha : s.dma.active = true) (h : InData p d s.dma c k n) :
    s.unsent d c = wordsAt s.mem (d.slotAddr c + 4 * (k.words - n)) n := by
  have hlen := h.txfrLen_toNat hd
  have hsrc : ∀ m, n = m + 1 → s.dma.sourceAd.toNat = d.slotAddr c + 4 * (k.words - n) := by
    rintro m rfl
    exact h.sourceAd_toNat hd
  obtain ⟨hp, hk, -, hx, -⟩ := h
  rw [unsent_of_xfer hk ha hp, if_pos (by rw [hx, cbAddr_toNat hd]), hlen, Nat.mul_div_cancel_left n (by decide : 0 < 4)]
  cases n with
  | zero => rfl
  | succ m => rw [hsrc m rfl]

theorem cbAddr_ne (d : Device) (h : c ≠ e) : d.cbAddr c ≠ d.cbAddr e := by
  cases c <;> cases e <;> simp_all [Device.cbAddr]

/-- In channel e's block: of another channel, the frame if its block comes later. -/
theorem unsent_inData_other (hd : d.wf p) (ha : s.dma.active = true) (h : InData p d s.dma e k n) (hce : c ≠ e) :
    s.unsent d c = if d.cbAddr e < d.cbAddr c then s.slotFrame d c else [] := by
  obtain ⟨hp, -, -, hx, -⟩ := h
  have hx : s.dma.conblkAd.toNat = d.cbAddr e := by rw [hx, cbAddr_toNat hd]
  cases hk : d.chan c with
  | none => simp [unsent_of_none hk, State.slotFrame, hk]
  | some k => rw [unsent_of_xfer hk ha hp, hx, if_neg (cbAddr_ne d (Ne.symm hce)), State.slotFrame_of_some hk]

/-- Outside channel c's own block none of its frame is pushed, or all of it is. -/
theorem Chained.unsent_nil_or_frame (hc : Chained s d)
    (h : ∀ k n, s.dma.active = true → ¬InData s.config d s.dma c k n) :
    s.unsent d c = [] ∨ s.unsent d c = s.slotFrame d c := by
  have hd := hc.device
  have whole : ∀ q : Prop, [Decidable q] → (if q then s.slotFrame d c else []) = [] ∨
      (if q then s.slotFrame d c else []) = s.slotFrame d c := by
    intro q _
    split
    · exact .inr rfl
    · exact .inl rfl
  cases hc.point with
  | rest ha => exact .inl (unsent_of_idle ha)
  | atData e k hk ha hm hp hx =>
    rw [unsent_atData hd ha hp hx]
    exact whole _
  | atFlag ha hm hp hx => exact .inl (unsent_atFlag hd hx)
  | inData e k n ha hm hin =>
    have hce : c ≠ e := by
      rintro rfl
      exact h k n ha hin
    rw [unsent_inData_other hd ha hin hce]
    exact whole _
  | inFlag n ha hm hin =>
    obtain ⟨-, -, hx, -⟩ := hin
    exact .inl (unsent_atFlag hd hx)

theorem unsent_congr (hm : t.mem = s.mem) (hd : t.dma = s.dma) : t.unsent d c = s.unsent d c := by
  simp only [State.unsent, hm, hd]

@[simp] theorem State.setSer_unsent (s : State) (e : Chan) (x : Serializer) (d : Device) (c : Chan) :
    (s.setSer e x).unsent d c = s.unsent d c := unsent_congr (by simp) (by simp)

/-- A turn that records a Gap found the FIFO empty and the serializer not fed (R303). -/
theorem gapEnabled_of_records (ht : s.turn = .ser c) (h : step s = .next t)
    (hw : (t.ser c).wire = (s.ser c).wire ++ [.gap]) : s.gapEnabled c = true := by
  by_contra hg
  by_cases hs : s.shiftEnabled c = true
  · obtain ⟨hr, hf⟩ := (s.shiftEnabled_iff c).mp hs
    obtain ⟨w, rest, hf⟩ := List.exists_cons_of_ne_nil hf
    cases h.symm.trans (step_shift ht hr hf)
    have hlen := congrArg List.length hw
    simp [wordLevels] at hlen
  · cases h.symm.trans (step_ser_rest ht hs hg)
    simp at hw

/-- Settles O35: on a healthy launch a serializer in the middle of its frame is being fed. -/
theorem gapRecordsOneIdle : Obligations.GapRecordsOneIdle := by
  unfold Obligations.GapRecordsOneIdle
  refine ⟨fun s c ht henab hdivi hpwen hf hlast hfeed => ?_, fun s t d c k hh hdma hc hl hk ht h hwire => ?_⟩
  · rw [← s.feeding_iff] at hfeed
    exact step_gap ht ((s.gapEnabled_iff c).mpr ⟨⟨henab, hdivi, hpwen⟩, hf, hlast, hfeed⟩)
  · have enabled := gapEnabled_of_records ht h hwire
    obtain ⟨-, hf, -, hfeed⟩ := (s.gapEnabled_iff c).mp enabled
    have healthy : s.dma.stalled = false := by
      rw [← Bool.not_eq_true]
      intro hst
      obtain ⟨-, hunhealthy⟩ := hdma.stalled hst
      rw [hh] at hunhealthy
      cases hunhealthy
    have outside : ∀ k n, s.dma.active = true → ¬InData s.config d s.dma c k n := fun k n ha hin =>
      hfeed ((s.feeding_iff c).mpr ⟨ha, healthy, hin.phase, hin.permap⟩)
    have pushed := ((chainInv_active hl).mp hc).unsent_nil_or_frame outside
    rw [State.slotFrame_of_some hk] at pushed
    cases h.symm.trans (step_gap ht enabled)
    exact ⟨hf, by simpa using hf, unsent_congr (by simp) (by simp), pushed⟩

/-! ### The levels of a channel (R305, R313) -/

/-- What a channel carries, by its stream's levels, its polarity and its words to send. -/
theorem carried_congr (hw : levelsOf (t.ser c).wire = levelsOf (s.ser c).wire) (hp : (t.ser c).pola = (s.ser c).pola)
    (hq : (t.ser c).fifo ++ t.unsent d c = (s.ser c).fifo ++ s.unsent d c) : t.carried d c = s.carried d c := by
  rw [State.carried, State.carried, hw, hp, hq]

/-- A serializer's turn moves the oldest word's levels from the FIFO to the stream, or adds a Gap, which is no level. -/
theorem serTurn_carried (s : State) (d : Device) (e c : Chan) : (s.serTurn e).carried d c = s.carried d c := by
  by_cases hce : c = e
  · subst hce
    rcases s.serTurn_cases c with ⟨w, rest, -, hf, h⟩ | ⟨-, -, -, -, h⟩ | ⟨-, -, h⟩ <;> rw [h]
    · simp [State.carried, hf, levelsOf_append]
    · exact carried_congr (by simp [levelsOf]) (by simp) (by simp)
  · have other : ∀ x, (s.setSer e x).carried d c = s.carried d c := by
      intro x
      simp [State.carried, State.setSer_ser_ne _ _ hce]
    rcases s.serTurn_cases e with ⟨w, rest, -, -, h⟩ | ⟨-, -, -, -, h⟩ | ⟨-, -, h⟩ <;> rw [h]
    · exact other _
    · exact other _

/-- LOAD of a data block reads what is to be pushed next (R277). -/
theorem unsent_loadData (hd : d.wf p) (hk : d.chan e = some k) (ha : s.dma.active = true) (hp : s.dma.dphase = .load)
    (hx : s.dma.conblkAd = addrWord (d.cbAddr e)) :
    (s.setDma (s.dma.loaded (d.dataBlock p e k (d.afterData e)))).unsent d c = s.unsent d c := by
  have hin : InData p d (s.dma.loaded (d.dataBlock p e k (d.afterData e))) e k k.words := .of_load hk hx
  rw [unsent_atData hd ha hp hx]
  by_cases hce : c = e
  · subst hce
    refine Eq.trans (unsent_inData hd ha hin) ?_
    rw [if_pos (Nat.le_refl _), State.slotFrame_of_some hk, Nat.sub_self]
    rfl
  · refine Eq.trans (unsent_inData_other hd ha hin hce) ?_
    exact if_congr (Nat.lt_iff_le_and_ne.trans (and_iff_left (cbAddr_ne d (Ne.symm hce)))) rfl rfl

/-- NEXT at the end of a data block leaves the frames of the blocks after it (R281). -/
theorem unsent_follow {int : Bool} (hd : d.wf p) (ha : s.dma.active = true) (h : InData p d s.dma e k 0) :
    (s.setDma { s.dma with int := int, conblkAd := addrWord (d.afterData e), dphase := .load }).unsent d c =
      s.unsent d c := by
  refine Eq.trans (unsent_afterData (e := e) hd ha rfl rfl) ?_
  by_cases hce : c = e
  · subst hce
    rw [if_neg (Nat.lt_irrefl _), unsent_inData hd ha h, Memory.wordsAt_zero]
  · rw [unsent_inData_other hd ha h hce]
    rfl

/-- XFER of a data block moves the frame's next word from the slot to the FIFO's end (R279). -/
theorem unsent_inData_succ (hd : d.wf p) (ha : s.dma.active = true) (h : InData p d s.dma c k (n + 1)) (x : Serializer) :
    s.unsent d c =
      Memory.readWord s.mem s.dma.sourceAd.toNat :: ((s.setSer c x).setDma s.dma.advance).unsent d c := by
  have hle : n + 1 ≤ k.words := by
    obtain ⟨-, -, hn, -⟩ := h
    exact hn
  have after : ((s.setSer c x).setDma s.dma.advance).unsent d c =
      wordsAt s.mem (d.slotAddr c + 4 * (k.words - n)) n :=
    Eq.trans (unsent_inData hd ha h.advance) (by rw [State.setDma_mem, State.setSer_mem])
  rw [unsent_inData hd ha h, Memory.wordsAt_succ, after, h.sourceAd_toNat hd,
    show d.slotAddr c + 4 * (k.words - (n + 1)) + 4 = d.slotAddr c + 4 * (k.words - n) by omega]

theorem unsent_push_other (hd : d.wf p) (ha : s.dma.active = true) (h : InData p d s.dma e k (n + 1)) (hce : c ≠ e)
    (x : Serializer) : ((s.setSer e x).setDma s.dma.advance).unsent d c = s.unsent d c := by
  have hslot : ((s.setSer e x).setDma s.dma.advance).slotFrame d c = s.slotFrame d c := by
    unfold State.slotFrame
    rw [State.setDma_mem, State.setSer_mem]
  rw [unsent_inData_other hd ha h hce, ← hslot]
  exact unsent_inData_other hd ha h.advance hce

theorem queue_congr (hf : (t.ser c).fifo = (s.ser c).fifo) (hu : t.unsent d c = s.unsent d c) :
    (t.ser c).fifo ++ t.unsent d c = (s.ser c).fifo ++ s.unsent d c := by
  rw [hf, hu]

/-- A step along the chain moves at most the next word of a frame to the end of its FIFO. -/
theorem ChainStep.queue (h : ChainStep s d t) (hd : d.wf s.config) (ha : s.dma.active = true) (c : Chan) :
    (t.ser c).fifo ++ t.unsent d c = (s.ser c).fifo ++ s.unsent d c := by
  cases h with
  | loadData e k hk hp hx => exact queue_congr (by simp) (unsent_loadData hd hk ha hp hx)
  | loadFlag hp hx => exact queue_congr (by simp) (Eq.trans (unsent_atFlag hd hx) (unsent_atFlag hd hx).symm)
  | push e k n h hroom =>
    by_cases hce : c = e
    · subst hce
      rw [unsent_inData_succ hd ha h, State.setDma_ser, State.setSer_ser_same, List.append_assoc, List.singleton_append]
    · exact queue_congr (by simp [State.setSer_ser_ne _ _ hce]) (unsent_push_other hd ha h hce _)
  | clearFlag h =>
    obtain ⟨-, -, hx, -⟩ := h
    exact queue_congr (by simp) (Eq.trans (unsent_atFlag hd hx) (unsent_atFlag hd hx).symm)
  | follow e k int h => exact queue_congr (by simp) (unsent_follow hd ha h)
  | finish int h hf =>
    obtain ⟨-, -, hx, -⟩ := h
    exact queue_congr (by simp) (Eq.trans (unsent_of_idle rfl) (unsent_atFlag hd hx).symm)

/-- The sequencer sends nothing itself. -/
theorem ChainStep.wire (h : ChainStep s d t) (c : Chan) : (t.ser c).wire = (s.ser c).wire := by
  cases h with
  | push e k n h hroom =>
    by_cases hce : c = e
    · subst hce
      simp
    · simp [State.setSer_ser_ne _ _ hce]
  | _ => simp

theorem ChainStep.carried (h : ChainStep s d t) (hd : d.wf s.config) (ha : s.dma.active = true) (c : Chan) :
    t.carried d c = s.carried d c := by
  obtain ⟨-, hpola, -⟩ := h.frame.ser c
  exact carried_congr (by rw [h.wire]) hpola (h.queue hd ha c)

theorem dropTurn_carried (s : State) (d : Device) (c : Chan) : s.dropTurn.carried d c = s.carried d c :=
  carried_congr (by simp) (by simp) (queue_congr (by simp) rfl)

theorem stallTurn_carried (s : State) (d : Device) (c : Chan) : s.stallTurn.carried d c = s.carried d c := by
  unfold State.stallTurn
  split
  · exact carried_congr (by simp [State.stall]) (by simp [State.stall]) (queue_congr (by simp [State.stall]) rfl)
  · rfl

/-- Settles O56: a word goes from the slot to the FIFO's end, and from its front to the stream. -/
theorem frameLevelsAreConserved : Obligations.FrameLevelsAreConserved := by
  unfold Obligations.FrameLevelsAreConserved
  intro s t d c hp hs hc hl hturn h
  rw [← dropTurn_carried]
  cases ht : s.turn with
  | host => exact absurd ht hturn
  | stall =>
    cases h.symm.trans (step_of_stall ht)
    exact stallTurn_carried _ d c
  | ser e =>
    cases h.symm.trans (step_of_ser ht)
    exact serTurn_carried _ d e c
  | dma =>
    have chained := (chainInv_active hl).mp hc
    by_cases he : s.SequencerEnabled
    · exact (chained.chainStep hp hl ht he h).carried chained.device he.live.1 c
    · simp only [State.SequencerEnabled, not_or, Bool.not_eq_true] at he
      obtain ⟨hload, hxfer, hnext⟩ := he
      cases h.symm.trans (step_dma_rest ht hload hxfer hnext)
      rfl

/-- The words of a frame, sent with a polarity, are its slots, each inverted when the polarity is set (R231, R305). -/
theorem levelsOf_encodeFrame {pix : List Word} {cfg : ChannelConfig} (h : pix.length = cfg.count) (pola : Bool) :
    levelsOf ((encodeFrame pix cfg).flatMap (fun w => wordLevels w pola)) =
      (frameSlots pix cfg).map (fun b => b ^^ pola) := by
  rw [levelsOf_words, encodeFrame, packWords_bits _ _ (frameSlots_length h)]

/-- After RENDER all of a channel's encoded frame is to be pushed (42_dma_sequencer.md R263). -/
theorem Chained.unsent_arm (hc : Chained s d) (hm : Memory.wf s.mem) (hcomplete : s.complete d = true)
    (hk : d.chan c = some k) : (s.arm d).unsent d c = encodeFrame k.pix k.cfg := by
  obtain ⟨-, ha⟩ := (State.complete_iff s d).mp hcomplete
  have hd := hc.device
  obtain ⟨-, -, -, hwords⟩ := Device.chan_wf hd hk
  have frame : wordsAt (s.arm d).mem (d.slotAddr c) k.words = encodeFrame k.pix k.cfg := by
    rw [State.arm_mem, Memory.wordsAt_take _ _ (Device.words_le_slot hd hk), armMem_slot hd hm hk, slotWords,
      List.take_left' (by rw [encodeFrame_length, hwords])]
  have first : d.cbAddr .c0 ≤ d.cbAddr c := by cases c <;> simp [Device.cbAddr]
  have heq := State.arm_eq s d ha hc.error
  rw [unsent_atData (e := .c0) hd (by rw [heq]) (by rw [heq]) (by rw [heq]; simp [Device.cbAddr, addrWord]),
    if_pos first, State.slotFrame_of_some hk, frame]

/-- Settles O57: before RENDER nothing is to be pushed, after it the channel's encoded frame. -/
theorem renderAddsExactlyTheFrame : Obligations.RenderAddsExactlyTheFrame := by
  unfold Obligations.RenderAddsExactlyTheFrame
  intro s t d c k hs hc hl hk hcomplete h
  obtain ⟨-, -, hm, -⟩ := (deviceInv_active hl).mp hs
  obtain ⟨-, ha⟩ := (State.complete_iff s d).mp hcomplete
  have chained := (chainInv_active hl).mp hc
  obtain ⟨-, -, hlen, -⟩ := Device.chan_wf chained.device hk
  rw [exec_render_of_active hl, renderBody_complete hcomplete] at h
  cases h
  have after : ((s.arm d).report .ok 0).unsent d c = encodeFrame k.pix k.cfg := chained.unsent_arm hm hcomplete hk
  rw [State.carried, State.carried, unsent_of_idle ha, after, ← levelsOf_encodeFrame hlen]
  simp [State.report, levelsOf_append]

end

end Sys2Proof.Machine

/-! PROOFS. The statements of 60_exceptions.md: the outcomes of each command, what a command that reports an error leaves
as it was, and the conditions that last while the device stays Active. -/

namespace Sys2Proof.Machine

section

variable {s t : State} {d e : Device} {i : Instr}

/-! ### Which outcomes a command has (R347) -/

/-- A command that acts on a device completes only with one (40_controller_commands.md R151). -/
theorem exists_active_of_exec (h : exec i s = .next t) (hi : NeedsDevice i) : ∃ d, s.life = .active d := by
  by_contra hn
  cases h.symm.trans (exec_of_not_active hi fun d hd => hn ⟨d, hd⟩)

/-- A claim succeeds, or the peripheral is busy, or there are no resources (40_controller_commands.md R163 to R167). -/
theorem claim_code_mem (s : State) (q : InitPlan) :
    (s.claim q).result.code ∈ [.ok, .hardwareBusyError, .resourceError] := by
  unfold State.claim
  repeat' split
  all_goals simp [State.report]

/-- INIT and INIT1 end at the configuration checks or at the claim (40_controller_commands.md R154). -/
theorem initDevice_code_mem {rs : List ConfigRecord} (h : initDevice rs s = .next t) :
    t.result.code ∈ [.ok, .configError, .hardwareBusyError, .resourceError] := by
  unfold initDevice at h
  split at h
  · cases h
  · split at h
    · cases h
      simp [State.report]
    · rename_i q _
      cases h
      exact List.cons_subset_cons _ (List.subset_cons_self _ _) (claim_code_mem s q)

theorem renderBody_code_mem (s : State) (d : Device) : (s.renderBody d).result.code ∈ [.ok, .transmissionError] := by
  rw [renderBody_result]
  split <;> simp

/-- A WAIT that ends reports Ok, or TimeoutError from ERROR or a stuck transport (40_controller_commands.md R182, R183). -/
theorem waitResult_code_mem {r : Result} (h : s.waitResult d = some r) : r.code ∈ [.ok, .timeoutError] := by
  unfold State.waitResult at h
  split at h
  · cases h
    simp
  split at h
  · cases h
    simp
  split at h
  · cases h
    simp
  · cases h

theorem exec_fini_code (h : exec .fini s = .next t) : t.result.code = .ok := by
  simp only [exec, execFini] at h
  split at h <;> cases h <;> rfl

theorem exec_setpixel_code_mem {ch : Chan} {index color : Word} (h : exec (.setpixel ch index color) s = .next t) :
    t.result.code ∈ [.ok, .indexError] := by
  obtain ⟨d, hl⟩ := exists_active_of_exec h trivial
  rw [exec, execSetpixel_active hl] at h
  split at h
  · cases h
    simp [State.report]
  · split at h <;> cases h <;> simp [State.report]

theorem exec_setbitmap_code_mem {ch : Chan} {colors : List Word} (h : exec (.setbitmap ch colors) s = .next t) :
    t.result.code ∈ [.ok, .indexError, .lengthMismatchError] := by
  obtain ⟨d, hl⟩ := exists_active_of_exec h trivial
  rw [exec, execSetbitmap_active hl] at h
  split at h
  · cases h
    simp [State.report]
  · split at h <;> cases h <;> simp [State.report]

/-- CLEAR ends at the channel check or as its render does (40_controller_commands.md R177, R178). -/
theorem exec_clear_code_mem {ch : Chan} (h : exec (.clear ch) s = .next t) :
    t.result.code ∈ [.ok, .indexError, .transmissionError] := by
  obtain ⟨d, hl⟩ := exists_active_of_exec h trivial
  rw [exec, execClear_active hl] at h
  split at h
  · cases h
    simp [State.report]
  · cases h
    exact List.cons_subset_cons _ (List.subset_cons_self _ _) (renderBody_code_mem _ _)

theorem exec_render_code_mem (h : exec .render s = .next t) : t.result.code ∈ [.ok, .transmissionError] := by
  obtain ⟨d, hl⟩ := exists_active_of_exec h trivial
  cases (exec_render_of_active hl).symm.trans h
  exact renderBody_code_mem s d

theorem exec_wait_code_mem (h : exec .wait s = .next t) (hw : t.waiting = false) :
    t.result.code ∈ [.ok, .timeoutError] := by
  obtain ⟨d, hl⟩ := exists_active_of_exec h trivial
  cases hr : s.waitResult d with
  | some r =>
    cases (exec_wait_of_result hl hr).symm.trans h
    exact waitResult_code_mem hr
  | none =>
    cases (exec_wait_of_none hl hr).symm.trans h
    cases hw

/-- Every other command runs its checks and completes or faults. -/
theorem exec_refused_init {r : Refusal} (h : exec i s = .refused r) :
    (∃ rs, i = .init rs) ∨ ∃ pin count bright, i = .init1 pin count bright := by
  cases i
  case init rs => exact .inl ⟨rs, rfl⟩
  case init1 pin count bright => exact .inr ⟨pin, count, bright, rfl⟩
  all_goals
    simp only [exec, execFini, execSetpixel, execSetbitmap, execClear, execRender, execWait, execCb] at h
    repeat' split at h
    all_goals cases h

/-- Settles O11, command by command. -/
theorem commandOutcomeMap : Obligations.CommandOutcomeMap := by
  unfold Obligations.CommandOutcomeMap
  refine ⟨fun s t rs => initDevice_code_mem, fun s t pin count bright => initDevice_code_mem,
    fun s t => exec_fini_code, fun s t ch index color => exec_setpixel_code_mem,
    fun s t ch colors => exec_setbitmap_code_mem, fun s t ch => exec_clear_code_mem, fun s t => exec_render_code_mem,
    fun s t => exec_wait_code_mem, fun i s r h => ⟨exec_refused h, ?_⟩⟩
  rcases exec_refused_init h with ⟨rs, rfl⟩ | ⟨pin, count, bright, rfl⟩ <;> trivial

/-! ### Errors are precise (R356) -/

/-- The fields a command that reports an error may write: RESULT, a WAIT's hold, CLEAR's buffer and INIT's draws. -/
def State.withErrorWrites (s : State) (r : Result) (w : Bool) (l : Life) (draws : List InitDraw) (taken : Nat) : State :=
  { s with result := r, waiting := w, life := l, env := { s.env with draws := draws, drawsTaken := taken } }

/-- The device after command i has reported an error: as before, or with CLEAR's buffer zeroed. -/
def LifeAfterError (i : Instr) (before after : Life) : Prop :=
  after = before ∨
    ∃ ch d k, i = .clear ch ∧ before = .active d ∧ d.chan ch = some k ∧
      after = .active (d.setPix ch (List.replicate k.cfg.count 0))

/-- Of the effects a command can have, those of an error. -/
theorem CommandEffect.of_error (h : CommandEffect s i t) (hr : t.result.code ≠ .ok) :
    ∃ r w l draws taken, t = s.withErrorWrites r w l draws taken ∧ LifeAfterError i s.life l := by
  cases h with
  | result | drawn | waited | holds => exact ⟨_, _, _, _, _, rfl, .inl rfl⟩
  | cleared d ch k hl hk => exact ⟨_, _, _, _, _, rfl, .inr ⟨ch, d, k, rfl, hl, hk, rfl⟩⟩
  | init | fini | pix | render | clear => exact absurd rfl hr

/-- Settles O12: an error's writes leave the rest of the state, and the device too unless the command is CLEAR. -/
theorem errorsArePrecise : Obligations.ErrorsArePrecise := by
  unfold Obligations.ErrorsArePrecise
  intro i s t hi h hr
  obtain ⟨r, w, l, draws, taken, rfl, hlife⟩ := (exec_command_effect hi h).of_error hr
  refine ⟨⟨fun c => by cases c <;> rfl, rfl, rfl, rfl⟩, fun _ => rfl, rfl, rfl, rfl, rfl, rfl, rfl, rfl,
    hlife.imp id ?_⟩
  rintro ⟨ch, d, k, rfl, hl, hk, ht⟩
  exact ⟨ch, d, _, k, rfl, hl, ht, hk, d.onlyPix_setPix ch _⟩

/-! ### What lasts while the device stays Active (R357) -/

/-- ERROR, its cause and STALLED are as before, and a chain that has started has not ended. -/
structure Dma.KeepsErrorAndStall (x y : Dma) : Prop where
  error : y.error = x.error
  errcause : y.errcause = x.errcause
  stalled : y.stalled = x.stalled
  active : x.active = true → y.active = true

theorem Dma.KeepsErrorAndStall.of_eq {x y : Dma} (h : y = x) : x.KeepsErrorAndStall y := by
  subst h
  exact ⟨rfl, rfl, rfl, id⟩

/-- ARM runs on a complete transmission only, and starts no stopped sequencer (42_dma_sequencer.md R262, R276). -/
theorem State.arm_keepsErrorAndStall (s : State) (d : Device) (ha : s.dma.active = false) :
    s.dma.KeepsErrorAndStall (s.arm d).dma :=
  ⟨s.arm_dma_error d, s.arm_dma_errcause d, s.arm_dma_stalled d, fun h => absurd (ha.symm.trans h) Bool.false_ne_true⟩

/-- Only INIT and FINI reset the sequencer: the one needs OWNED = false, the other leaves the device
(42_dma_sequencer.md R285). -/
theorem CommandEffect.keepsErrorAndStall (h : CommandEffect s i t) (ho : s.owned = true) (ht : t.life = .active e) :
    s.dma.KeepsErrorAndStall t.dma := by
  cases h with
  | init _ rs q base hq ho' => exact absurd (ho'.symm.trans ho) Bool.false_ne_true
  | fini d hl =>
    rw [State.release_eq] at ht
    cases ht
  | render d hl hc => exact s.arm_keepsErrorAndStall d ((State.complete_iff s d).mp hc).2
  | clear d ch k hl hk hc =>
    exact State.arm_keepsErrorAndStall { s with life := .active (d.setPix ch (List.replicate k.cfg.count 0)) } _
      ((State.complete_iff s d).mp hc).2
  | result | drawn | pix | cleared | waited | holds => exact .of_eq rfl

/-- A sequencer outside a chain, or stalled, is moved by host commands alone (42_dma_sequencer.md R275). -/
theorem step_command_or_dma_of_not_live (hd : s.dmaLive = false) (h : step s = .next t) :
    (∃ a x i, CommandEffect { s with argq := a, env := x } i t) ∨ t.dma = s.dma := by
  have rests : ¬(s.dma.active = true ∧ s.dma.stalled = false) := by
    rintro ⟨ha, hs⟩
    simp [State.dmaLive, ha, hs] at hd
  cases step_effect h with
  | inputs => exact .inr rfl
  | command a x i _ hi hw hx => exact .inl ⟨a, x, i, exec_command_effect hi hx⟩
  | loadStop cause hl | loadIllegal ws hl | load ws b _ hl => exact absurd (State.SequencerEnabled.live (.inl hl)) rests
  | xfer hx => exact absurd (State.SequencerEnabled.live (.inr (.inl hx))) rests
  | next hn => exact absurd (State.SequencerEnabled.live (.inr (.inr hn))) rests
  | stall hs =>
    obtain ⟨ha, hst, -⟩ := (State.stallEnabled_iff s).mp hs
    exact absurd ⟨ha, hst⟩ rests
  | ser c => exact .inr (s.dropTurn.serTurn_dma c)

theorem step_keepsErrorAndStall (hd : s.dmaLive = false) (ho : s.owned = true) (h : step s = .next t)
    (ht : t.life = .active e) : s.dma.KeepsErrorAndStall t.dma := by
  rcases step_command_or_dma_of_not_live hd h with ⟨a, x, i, hc⟩ | heq
  · exact hc.keepsErrorAndStall ho ht
  · exact .of_eq heq

/-- Settles O54: a stopped or stalled sequencer takes no step, and no command short of FINI resets it. -/
theorem errorAndStallAreSticky : Obligations.ErrorAndStallAreSticky := by
  unfold Obligations.ErrorAndStallAreSticky
  intro s t d e _ ho h ht
  refine ⟨fun herror hidle => ?_, fun hstalled hactive => ?_⟩
  · have kept := step_keepsErrorAndStall (by simp [State.dmaLive, hidle]) ho h ht
    exact ⟨kept.error.trans herror, kept.errcause⟩
  · have kept := step_keepsErrorAndStall (by simp [State.dmaLive, hstalled]) ho h ht
    exact ⟨kept.stalled.trans hstalled, kept.active hactive⟩

end

end Sys2Proof.Machine

/-! PROOFS. The statements of 70_reset_and_hazards.md: on a healthy launch a WAIT that holds always has a step
enabled that moves its frame on, and on a fair run it ends with Ok. Each such step lowers `State.movesLeft` and no other
step changes the transport (`SameTransport`), so a fair run reaches the end of the transmission. -/

namespace Sys2Proof.Machine

section

variable {s t : State} {d : Device} {c : Chan} {k : Channel}

/-! ### An unfinished transmission has a step enabled (42_dma_sequencer.md R287) -/

/-- A healthy launch never stalls (42_dma_sequencer.md R283). -/
theorem DmaInv.not_stalled (h : DmaInv s) (hh : s.hwHealthy = true) : s.dma.stalled = false := by
  by_contra hst
  obtain ⟨-, hunhealthy⟩ := h.stalled (Bool.of_not_eq_false hst)
  exact Bool.false_ne_true (hunhealthy.symm.trans hh)

theorem InData.chan {p : Config} {x : Dma} {n : Nat} (h : InData p d x c k n) : d.chan c = some k := by
  obtain ⟨-, hk, -⟩ := h
  exact hk

theorem InFlag.phase {x : Dma} {n : Nat} (h : InFlag d x n) : x.dphase = .xfer := by
  obtain ⟨hp, -⟩ := h
  exact hp

theorem Chained.running (h : Chained s d) (hk : d.chan c = some k) : Running s c :=
  (State.runs_iff s c).mp (by rw [State.runs, h.clock, h.pwen c k hk]; rfl)

/-- An idle sequencer has ended its chain (42_dma_sequencer.md R268). -/
theorem Chained.cflag_of_idle (h : Chained s d) (ha : s.dma.active = false) : s.cflag d = 0 := by
  cases h.point with
  | rest _ _ hf => exact hf
  | atData _ _ _ hn | atFlag hn | inData _ _ _ hn | inFlag _ hn => exact absurd (ha.symm.trans hn) Bool.false_ne_true

/-- Only a data block is paced, and by the line of its own channel (42_dma_sequencer.md R265, R266). -/
theorem Chained.chan_of_paced (h : Chained s d) (ha : s.dma.active = true) (hp : s.dma.dphase = .xfer)
    (hd : s.info.destDreq = true) (hc : s.dma.ti.toNat / 65536 % 32 = c.toNat + 1) : ∃ k, d.chan c = some k := by
  cases h.point with
  | rest hn => exact absurd (hn.symm.trans ha) Bool.false_ne_true
  | atData _ _ _ _ _ hl | atFlag _ _ hl => exact DPhase.noConfusion (hl.symm.trans hp)
  | inData e k n _ _ hin =>
    have line : some e = some c := ((requestLine_iff _ e).mpr hin.permap).symm.trans ((requestLine_iff _ c).mpr hc)
    cases line
    exact ⟨k, hin.chan⟩
  | inFlag n _ _ hin =>
    rw [State.info, hin.info] at hd
    cases hd

/-- No clause of R183 holds along the chain while it is not stalled (40_controller_commands.md R183). -/
theorem Chained.not_stuck (h : Chained s d) (hst : s.dma.stalled = false) : ¬StuckTransport s d := by
  rintro (⟨-, hs⟩ | ⟨c, ha, hp, -, hpaced, hline, -, hidle⟩ | ⟨ha, -, hf⟩ | ⟨c, k, -, -, hk, -, hidle⟩)
  · exact Bool.false_ne_true (hst.symm.trans hs)
  · obtain ⟨k, hk⟩ := h.chan_of_paced ha hp hpaced hline
    rcases hidle with hoff | hidle
    · exact Bool.false_ne_true (hoff.symm.trans h.dmac)
    · exact hidle (h.running hk)
  · exact hf (h.cflag_of_idle ha)
  · exact hidle (h.running hk)

/-- A step that moves a frame on is enabled: LOAD, XFER or NEXT, or the SHIFT of a configured channel. -/
def State.CanMove (s : State) (d : Device) : Prop :=
  s.SequencerEnabled ∨ ∃ c k, d.chan c = some k ∧ s.shiftEnabled c = true

/-- In a data block: NEXT at its end, XFER while the FIFO has room, else the full FIFO's SHIFT (R280, R287). -/
theorem Chained.canMove_inData {n : Nat} (h : Chained s d) (hdepth : 1 ≤ s.config.fifoDepth)
    (hst : s.dma.stalled = false) (ha : s.dma.active = true) (hin : InData s.config d s.dma c k n) : s.CanMove d := by
  by_cases hz : s.dma.txfrLen = 0
  · exact .inl (.inr (.inr ((State.nextEnabled_iff s).mpr ⟨ha, hst, hin.phase, hz⟩)))
  by_cases hroom : (s.ser c).fifo.length < s.config.fifoDepth
  · have hline : s.lineDreq = true := by
      rw [State.lineDreq, State.info, (requestLine_iff _ c).mpr hin.permap]
      exact (State.dreq_iff s c).mpr ⟨h.dmac, hroom⟩
    exact .inl (.inr (.inl ((State.xferEnabled_iff s).mpr ⟨ha, hst, hin.phase, hz, fun _ => hline⟩)))
  · refine .inr ⟨c, k, hin.chan, (State.shiftEnabled_iff s c).mpr ⟨h.running hin.chan, fun hf => ?_⟩⟩
    rw [hf] at hroom
    exact hroom hdepth

/-- The terminal block is not paced (42_dma_sequencer.md R266). -/
theorem State.canMove_inFlag {n : Nat} (hst : s.dma.stalled = false) (ha : s.dma.active = true)
    (hin : InFlag d s.dma n) : s.CanMove d := by
  have hfree : s.info.destDreq = false := by rw [State.info, hin.info]
  by_cases hz : s.dma.txfrLen = 0
  · exact .inl (.inr (.inr ((State.nextEnabled_iff s).mpr ⟨ha, hst, hin.phase, hz⟩)))
  · exact .inl (.inr (.inl ((State.xferEnabled_iff s).mpr
      ⟨ha, hst, hin.phase, hz, fun hd => absurd (hfree.symm.trans hd) Bool.false_ne_true⟩)))

/-- On a chain that is not stalled a step is enabled, until the transmission is complete and drained (R287). -/
theorem Chained.canMove (h : Chained s d) (hdepth : 1 ≤ s.config.fifoDepth) (hst : s.dma.stalled = false)
    (hu : ¬(s.complete d = true ∧ s.drained d = true)) : s.CanMove d := by
  cases h.point with
  | rest ha hp hf =>
    have undrained : ¬∀ c k, d.chan c = some k → (s.ser c).fifo = [] := fun hd =>
      hu ⟨(State.complete_iff s d).mpr ⟨hf, ha⟩, (State.drained_iff s d).mpr hd⟩
    push Not at undrained
    obtain ⟨c, k, hk, hf⟩ := undrained
    exact .inr ⟨c, k, hk, (State.shiftEnabled_iff s c).mpr ⟨h.running hk, hf⟩⟩
  | atData _ _ _ ha _ hp | atFlag ha _ hp => exact .inl (.inl ((State.loadEnabled_iff s).mpr ⟨ha, hst, hp⟩))
  | inData c k n ha _ hin => exact h.canMove_inData hdepth hst ha hin
  | inFlag n ha _ hin => exact State.canMove_inFlag hst ha hin

/-- Settles O59: at every point of the chain the clauses of R183 fail, and the point says which step is enabled. -/
theorem healthyWaitAlwaysProgresses : Obligations.HealthyWaitAlwaysProgresses := by
  unfold Obligations.HealthyWaitAlwaysProgresses
  intro s d hdepth hdma hc hh hl hu
  have chained := (chainInv_active hl).mp hc
  have hst := hdma.not_stalled hh
  refine ⟨?_, by simpa only [State.CanMove, State.SequencerEnabled, or_assoc] using chained.canMove hdepth hst hu⟩
  exact Bool.eq_false_iff.mpr (mt (State.transportStuck_iff s d chained.error).mp (chained.not_stuck hst))

/-! ### What a step does to the transport while a WAIT holds -/

/-- The words in the two FIFOs. -/
def State.queued (s : State) : Nat := (s.ser .c0).fifo.length + (s.ser .c1).fifo.length

/-- A count that every LOAD, XFER, NEXT and SHIFT lowers. A step of the chain counts twice: an XFER leaves a SHIFT to be
done. -/
def State.movesLeft (s : State) (d : Device) : Nat := 2 * s.chainSteps d + s.queued

/-- A step of the chain queues at most one word (42_dma_sequencer.md R279). -/
theorem ChainStep.queued_le (h : ChainStep s d t) : t.queued ≤ s.queued + 1 := by
  cases h with
  | push c k n => cases c <;> simp [State.queued] <;> omega
  | _ => exact Nat.le_succ s.queued

theorem ChainStep.movesLeft_lt (h : ChainStep s d t) (hd : d.wf s.config) (ha : s.dma.active = true) :
    t.movesLeft d < s.movesLeft d := by
  have steps := h.chainSteps hd ha
  have words := h.queued_le
  unfold State.movesLeft
  omega

/-- What enables LOAD, XFER, NEXT and SHIFT is as before, with the rest that no agent's turn touches. -/
structure SameTransport (s t : State) : Prop extends AgentFrame s t where
  mem : t.mem = s.mem
  dma : t.dma = s.dma
  fifo : ∀ c, (t.ser c).fifo = (s.ser c).fifo

theorem SameTransport.inputs (s : State) (a : List Word) (e : Env) : SameTransport s { s with argq := a, env := e } :=
  ⟨.inputs s a e, rfl, rfl, fun c => by cases c <;> rfl⟩

theorem SameTransport.refl (s : State) : SameTransport s s := .inputs s s.argq s.env

theorem SameTransport.trans {u : State} (h : SameTransport s t) (g : SameTransport t u) : SameTransport s u :=
  ⟨h.toAgentFrame.trans g.toAgentFrame, g.mem.trans h.mem, g.dma.trans h.dma, fun c => (g.fifo c).trans (h.fifo c)⟩

theorem SameTransport.movesLeft (h : SameTransport s t) (d : Device) : t.movesLeft d = s.movesLeft d := by
  simp only [State.movesLeft, State.queued, chainSteps_congr h.mem h.dma, h.fifo]

theorem SameTransport.loadEnabled (h : SameTransport s t) : t.loadEnabled = s.loadEnabled := by
  simp only [State.loadEnabled, State.dmaLive, h.dma]

theorem SameTransport.xferEnabled (h : SameTransport s t) : t.xferEnabled = s.xferEnabled := by
  simp only [State.xferEnabled, State.dmaLive, State.lineDreq, State.info, State.dreq, h.config, h.dmac, h.dma, h.fifo]

theorem SameTransport.nextEnabled (h : SameTransport s t) : t.nextEnabled = s.nextEnabled := by
  simp only [State.nextEnabled, State.dmaLive, h.dma]

theorem SameTransport.shiftEnabled (h : SameTransport s t) (c : Chan) : t.shiftEnabled c = s.shiftEnabled c := by
  obtain ⟨hpwen, -⟩ := h.ser c
  simp only [State.shiftEnabled, State.runs, State.clockRuns, h.clk, hpwen, h.fifo]

/-- A serializer's turn sends a word, or changes nothing but its stream (43_pwm_serializer.md R305, R306). -/
theorem State.serTurn_moves_or_rests (s : State) (d : Device) (c : Chan) :
    (s.serTurn c).movesLeft d < s.movesLeft d ∨ SameTransport s (s.serTurn c) ∧ s.shiftEnabled c = false := by
  rcases State.serTurn_cases s c with ⟨w, rest, -, hf, e⟩ | ⟨-, hf, -, -, e⟩ | ⟨hs, -, e⟩
  · refine .inl ?_
    have steps := chainSteps_congr (d := d) (s.serTurn_mem c) (s.serTurn_dma c)
    have words : (s.serTurn c).queued + 1 = s.queued := by
      rw [e]
      cases c <;> simp_all [State.queued] <;> omega
    unfold State.movesLeft
    omega
  · have empty : s.shiftEnabled c = false := by simp [State.shiftEnabled, hf]
    refine .inr ⟨⟨.serTurn s c, s.serTurn_mem c, s.serTurn_dma c, fun b => ?_⟩, empty⟩
    rw [e]
    cases b <;> cases c <;> rfl
  · exact .inr ⟨e.symm ▸ .refl s, hs⟩

/-- The host's turn while a WAIT holds and goes on holding writes nothing but the port (40_controller_commands.md R182,
R185). -/
theorem step_host_of_held (ht : s.turn = .host) (hl : s.life = .active d) (hw : s.waiting = true)
    (h : step s = .next t) (hw' : t.waiting = true) : ∃ a e, t = { s with argq := a, env := e } := by
  cases step_effect h with
  | inputs a e => exact ⟨a, e, rfl⟩
  | command a e i _ _ hwait hx =>
    cases hwait hw
    cases hr : ({ s with argq := a, env := e } : State).waitResult d with
    | some r =>
      cases (exec_wait_of_result (s := { s with argq := a, env := e }) hl hr).symm.trans hx
      cases hw'
    | none =>
      cases (exec_wait_of_none (s := { s with argq := a, env := e }) hl hr).symm.trans hx
      exact ⟨a, e, by rw [← hw]⟩
  | loadStop _ _ _ hd | loadIllegal _ _ _ _ hd | load _ _ _ _ _ _ _ hd | xfer _ hd | next _ hd | stall _ hd | ser _ hd =>
    exact Turn.noConfusion (ht.symm.trans hd)

/-! ### A healthy launch in which a WAIT holds -/

/-- A healthy launch that meets the invariants, with device d active (70_reset_and_hazards.md R398). -/
structure HealthyLaunch (s : State) (d : Device) : Prop where
  config : s.config.wf = true
  healthy : s.hwHealthy = true
  life : s.life = .active d
  device : DeviceInv s
  dma : DmaInv s
  chain : ChainInv s

theorem HealthyLaunch.chained (h : HealthyLaunch s d) : Chained s d := (chainInv_active h.life).mp h.chain

/-- A step that moves no frame on: it leaves the transport, and its agent had no LOAD, XFER, NEXT or SHIFT enabled. -/
structure RestStep (s t : State) : Prop where
  same : SameTransport s t
  sequencer : s.turn = .dma → ¬s.SequencerEnabled
  shift : ∀ c, s.turn = .ser c → s.shiftEnabled c = false

/-- A step while a WAIT holds lowers the count of moves left, or moves no frame on. -/
inductive HeldStep (s : State) (d : Device) (t : State) : Prop
  | moves (frame : AgentFrame s t) (lt : t.movesLeft d < s.movesLeft d)
  | rests (rest : RestStep s t)

theorem HeldStep.frame (h : HeldStep s d t) : AgentFrame s t := by
  cases h with
  | moves frame => exact frame
  | rests rest => exact rest.same.toAgentFrame

theorem HeldStep.movesLeft_le (h : HeldStep s d t) : t.movesLeft d ≤ s.movesLeft d := by
  cases h with
  | moves _ lt => exact lt.le
  | rests rest => exact (rest.same.movesLeft d).le

theorem HealthyLaunch.heldStep (hs : HealthyLaunch s d) (hw : s.waiting = true) (h : step s = .next t)
    (hw' : t.waiting = true) : HeldStep s d t := by
  have dropped : SameTransport s s.dropTurn := .inputs s s.argq _
  cases ht : s.turn with
  | host =>
    obtain ⟨a, e, rfl⟩ := step_host_of_held ht hs.life hw h hw'
    exact .rests ⟨.inputs s a e, by simp [ht], by simp [ht]⟩
  | stall =>
    have hoff : s.stallEnabled = false := by simp [State.stallEnabled, hs.healthy]
    rw [step_of_stall ht, State.stallTurn, State.dropTurn_stallEnabled, hoff] at h
    cases h
    exact .rests ⟨dropped, by simp [ht], by simp [ht]⟩
  | dma =>
    by_cases he : s.SequencerEnabled
    · have hstep := hs.chained.chainStep hs.config hs.life ht he h
      exact .moves ((AgentFrame.dropTurn s).trans hstep.frame) (hstep.movesLeft_lt hs.chained.device he.live.1)
    · have ⟨hload, hxfer, hnext⟩ : s.loadEnabled = false ∧ s.xferEnabled = false ∧ s.nextEnabled = false := by
        simpa [State.SequencerEnabled] using he
      cases (step_dma_rest ht hload hxfer hnext).symm.trans h
      exact .rests ⟨dropped, fun _ => he, by simp [ht]⟩
  | ser c =>
    cases (step_of_ser ht).symm.trans h
    rcases s.dropTurn.serTurn_moves_or_rests d c with hlt | ⟨same, hoff⟩
    · exact .moves ((AgentFrame.dropTurn s).trans (.serTurn _ c)) hlt
    · refine .rests ⟨dropped.trans same, by simp [ht], fun b hb => ?_⟩
      cases ht.symm.trans hb
      exact hoff

/-- The device stays while a WAIT holds, and every step keeps the invariants. -/
theorem HealthyLaunch.next (hs : HealthyLaunch s d) (hw : s.waiting = true) (h : step s = .next t)
    (hw' : t.waiting = true) : HealthyLaunch t d where
  config := (hs.heldStep hw h hw').frame.config ▸ hs.config
  healthy := (hs.heldStep hw h hw').frame.hwHealthy.trans hs.healthy
  life := (hs.heldStep hw h hw').frame.life.trans hs.life
  device := stepKeepsTheDevice s t hs.device h
  dma := stepKeepsTheDmaWindow s t hs.dma h
  chain := (armedChainNeverErrs s t hs.config hs.device hs.chain h).1

theorem Config.wf_fifoDepth {p : Config} (h : p.wf = true) : 1 ≤ p.fifoDepth := by
  simp only [Config.wf, Bool.and_eq_true, decide_eq_true_eq] at h
  omega

theorem HealthyLaunch.canMove (hs : HealthyLaunch s d) (hu : ¬(s.complete d = true ∧ s.drained d = true)) :
    s.CanMove d :=
  hs.chained.canMove (Config.wf_fifoDepth hs.config) (hs.dma.not_stalled hs.healthy) hu

/-- With the transmission complete and drained, WAIT ends with Ok (40_controller_commands.md R184). -/
theorem HealthyLaunch.exec_wait_of_finished (hs : HealthyLaunch s d)
    (hf : s.complete d = true ∧ s.drained d = true) :
    exec .wait s = .next { s with result := ⟨.ok, 0⟩, waiting := false } := by
  obtain ⟨hcomplete, hdrained⟩ := hf
  obtain ⟨hflag, hidle⟩ := (State.complete_iff s d).mp hcomplete
  exact waitReturnsWhenDrained s d hs.life hflag hidle ((State.drained_iff s d).mp hdrained)

/-- Before that WAIT holds: there is no error and the transport is not stuck (R182, R183). -/
theorem HealthyLaunch.exec_wait_of_unfinished (hs : HealthyLaunch s d)
    (hu : ¬(s.complete d = true ∧ s.drained d = true)) : exec .wait s = .next { s with waiting := true } := by
  obtain ⟨-, -, holds⟩ := waitTimesOutOrHolds s d hs.life hu
  exact holds hs.chained.error (hs.chained.not_stuck (hs.dma.not_stalled hs.healthy))

theorem HealthyLaunch.result_of_exec_wait (hs : HealthyLaunch s d) (h : exec .wait s = .next t)
    (hw : t.waiting = false) : t.result = ⟨.ok, 0⟩ := by
  by_cases hf : s.complete d = true ∧ s.drained d = true
  · cases (hs.exec_wait_of_finished hf).symm.trans h
    rfl
  · cases (hs.exec_wait_of_unfinished hf).symm.trans h
    cases hw

end

/-! ### A run in which a WAIT holds (70_reset_and_hazards.md R398) -/

section

variable {r : Nat → State} {d : Device} {n : Nat}

theorem HealthyLaunch.of_heldUpTo (hrun : IsRun r) (h0 : HealthyLaunch (r 0) d) {m : Nat} (hheld : HeldUpTo r m) :
    HealthyLaunch (r m) d := by
  induction m with
  | zero => exact h0
  | succ m ih =>
    have before : HeldUpTo r m := fun j hj => hheld j (Nat.le_succ_of_le hj)
    exact (ih before).next (before m le_rfl) (hrun m) (hheld (m + 1) le_rfl)

/-- From its n-th state on no step of the run moves a frame on. -/
def RestsFrom (r : Nat → State) (n : Nat) : Prop := ∀ m, n ≤ m → RestStep (r m) (r (m + 1))

/-- The count of moves left cannot fall for ever. -/
theorem exists_restsFrom (h : ∀ m, HeldStep (r m) d (r (m + 1))) : ∃ n, RestsFrom r n := by
  have falls : Antitone fun m => (r m).movesLeft d := antitone_nat_of_succ_le fun m => (h m).movesLeft_le
  obtain ⟨n, hn⟩ := WellFoundedLT.antitone_chain_condition falls
  refine ⟨n, fun m hm => ?_⟩
  cases h m with
  | moves _ lt => exact absurd ((hn m hm).symm.trans (hn (m + 1) (Nat.le_succ_of_le hm))) lt.ne'
  | rests rest => exact rest

theorem RestsFrom.same (h : RestsFrom r n) {m : Nat} (hm : n ≤ m) : SameTransport (r n) (r m) := by
  induction m, hm using Nat.le_induction with
  | base => exact .refl _
  | succ m hm ih => exact ih.trans (h m hm).same

theorem RestsFrom.mono (h : RestsFrom r n) {m : Nat} (hm : n ≤ m) : RestsFrom r m := fun j hj => h j (hm.trans hj)

/-- A step that only the transport enables is not enabled at rest: it would stay enabled, and its turn would come. -/
theorem RestsFrom.not_enabled (h : RestsFrom r n) {enabled : State → Bool} {turn : Turn}
    (fair : EventuallyTaken r enabled turn) (reads : ∀ {s t}, SameTransport s t → enabled t = enabled s)
    (idle : ∀ m, n ≤ m → (r m).turn = turn → enabled (r m) ≠ true) : enabled (r n) ≠ true := by
  intro he
  obtain ⟨m, hm, ht⟩ := fair n fun m hm => (reads (h.same hm)).trans he
  exact idle m hm ht ((reads (h.same hm)).trans he)

/-- A fair run at rest has nothing left to move. -/
theorem RestsFrom.not_canMove (h : RestsFrom r n) (fair : WeaklyFair r) : ¬(r n).CanMove d := by
  rintro ((hload | hxfer | hnext) | ⟨c, k, -, hshift⟩)
  · exact h.not_enabled fair.load SameTransport.loadEnabled (fun m hm ht hl => (h m hm).sequencer ht (.inl hl)) hload
  · exact h.not_enabled fair.xfer SameTransport.xferEnabled
      (fun m hm ht hx => (h m hm).sequencer ht (.inr (.inl hx))) hxfer
  · exact h.not_enabled fair.next SameTransport.nextEnabled
      (fun m hm ht hn => (h m hm).sequencer ht (.inr (.inr hn))) hnext
  · exact h.not_enabled (fair.shift c) (fun same => same.shiftEnabled c)
      (fun m hm ht => Bool.eq_false_iff.mp ((h m hm).shift c ht)) hshift

/-- A WAIT that held for ever would come to a transmission that stays complete and drained. -/
theorem exists_finished_of_held (hrun : IsRun r) (fair : WeaklyFair r) (h0 : HealthyLaunch (r 0) d)
    (hheld : ∀ m, (r m).waiting = true) :
    ∃ n, ∀ m, n ≤ m → (r m).complete d = true ∧ (r m).drained d = true := by
  have launch : ∀ m, HealthyLaunch (r m) d := fun m => .of_heldUpTo hrun h0 fun j _ => hheld j
  obtain ⟨n, hn⟩ := exists_restsFrom fun m => (launch m).heldStep (hheld m) (hrun m) (hheld (m + 1))
  exact ⟨n, fun m hm => by_contra fun hu => (hn.mono hm).not_canMove fair ((launch m).canMove hu)⟩

/-- Settles O60: either the WAIT ends, and no later state is one it has held up to, or the run comes to rest with the
transmission complete and drained. -/
theorem fairHealthyWaitReturnsOk : Obligations.FairHealthyWaitReturnsOk := by
  unfold Obligations.FairHealthyWaitReturnsOk
  intro r d hrun fair hconfig hhealthy hdevice hdma hchain hlife
  have h0 : HealthyLaunch (r 0) d := ⟨hconfig, hhealthy, hlife, hdevice, hdma, hchain⟩
  refine ⟨?_, fun m t hheld h hw => (HealthyLaunch.of_heldUpTo hrun h0 hheld).result_of_exec_wait h hw⟩
  by_cases hheld : ∀ m, (r m).waiting = true
  · obtain ⟨n, hn⟩ := exists_finished_of_held hrun fair h0 hheld
    exact ⟨n, fun m hm hm' => (HealthyLaunch.of_heldUpTo hrun h0 hm').exec_wait_of_finished (hn m hm)⟩
  · obtain ⟨n, hn⟩ := not_forall.mp hheld
    exact ⟨n, fun m hm hm' => absurd (hm' n hm) hn⟩

end

end Sys2Proof.Machine
